-- ==== Sys2Proof/Word.lean ====
section
/-! DEFINITION. The byte of every stream and of the history window (00_scope.md R11, R12). -/

namespace Sys2Proof

/-- One byte: an item of the source, of the sink, a cell of the window. Bit 0 is its least significant bit (R11). -/
abbrev Byte := BitVec 8

end Sys2Proof
end

