-- ==== Sys2Proof/Config.lean ====
section
/-! DEFINITION. The parameters of CORE that 00_scope.md R10 fixes. The spec leaves no result of any element open
(93_implementation_defined.md part 1), so there is no free value here. Where the source and the sink fail
(`SRC_IOERR_MARKS`, `SNK_FAIL_AT`, 92_eei_decisions.md D18) is data of a run and stands in State. -/

namespace Sys2Proof.Config

/-- `WSIZE`: bytes of history (R10). -/
def wsize : Nat := 32768

/-- `MAXBITS`: the longest Huffman code (R10). -/
def maxBits : Nat := 15

/-- `MAXREAD`: the largest `n` of `ReadBits(n)` (R10). -/
def maxRead : Nat := 32

/-- `CRC_POLY`: the reflected CRC-32 polynomial (R10). -/
def crcPoly : BitVec 32 := 0xEDB88320

/-- `CRC_INIT`: the initial CRC register (R10). -/
def crcInit : BitVec 32 := 0xFFFFFFFF

/-- `CRC_XOROUT`: the final XOR (R10). -/
def crcXorOut : BitVec 32 := 0xFFFFFFFF

/-- Where IPOS and COUNT stop: wrap-around at 2^64 is not specified and a model refuses to reach it
(10_state.md R31, R33; 93_implementation_defined.md U19; log 5). -/
def countLimit : Nat := 2 ^ 64

end Sys2Proof.Config
end

