-- ==== Sys2Proof/Syntax.lean ====
section
/-! DEFINITION. The stream elements of CORE, one constructor per row of spec/opcode_table.json (30_encoding.md R104),
and the alphabets they belong to. The operand of an element is its numeric field, of exactly the field's width
(R102): BFINAL of a block header, the symbol number of a CLEN or a literal, the extra bits of a repeat, a length or a
distance. The fields a block body carries beside its header (LEN, NLEN, raw bytes, HLIT, HDIST, HCLEN, tree-code
lengths) are read from the stream by the meaning of the block header. -/

namespace Sys2Proof

/-- The four formats of the opcode table (R105): block header, tree code, literal/length, distance. -/
inductive Alphabet where
  | header
  | treeCode
  | litLen
  | dist
deriving DecidableEq, Repr

/-- What the next bits of the stream are read with (R104: "Selection is by context, then by number"): a block header,
or one code of a table, given by the code lengths it is built from (10_state.md R35). -/
inductive Context where
  | header
  | treeCode (lens : List Nat)
  | litLen (lens : List Nat)
  | dist (lens : List Nat)
deriving DecidableEq, Repr

/-- A stream element ("instruction", R104). -/
inductive Instr where
  /-- BLK.STORED (R195): header of a stored block; `f` is BFINAL. -/
  | blkStored (f : BitVec 1)
  /-- BLK.FIXED (R201): header of a fixed Huffman block; `f` is BFINAL. -/
  | blkFixed (f : BitVec 1)
  /-- BLK.DYNAMIC (R203): header of a dynamic Huffman block; `f` is BFINAL. -/
  | blkDynamic (f : BitVec 1)
  /-- BLK.RSVD (R199): header with the reserved block type; `f` is BFINAL. -/
  | blkRsvd (f : BitVec 1)
  /-- CLEN (R206): one code length equal to `n`. -/
  | clen (n : BitVec 4)
  /-- CREP16 (R207): repeat the previous length `3 + x` times. -/
  | crep16 (x : BitVec 2)
  /-- CZERO17 (R208): `3 + x` zero lengths. -/
  | czero17 (x : BitVec 3)
  /-- CZERO18 (R209): `11 + x` zero lengths. -/
  | czero18 (x : BitVec 7)
  /-- LIT (R231): literal byte `b`. -/
  | lit (b : BitVec 8)
  /-- EOB (R232): end of block. -/
  | eob
  /-- LEN257 (R233): match length 3. -/
  | len257
  /-- LEN258 (R234): match length 4. -/
  | len258
  /-- LEN259 (R235): match length 5. -/
  | len259
  /-- LEN260 (R236): match length 6. -/
  | len260
  /-- LEN261 (R237): match length 7. -/
  | len261
  /-- LEN262 (R238): match length 8. -/
  | len262
  /-- LEN263 (R239): match length 9. -/
  | len263
  /-- LEN264 (R240): match length 10. -/
  | len264
  /-- LEN265 (R241): match length 11 + x. -/
  | len265 (x : BitVec 1)
  /-- LEN266 (R242): match length 13 + x. -/
  | len266 (x : BitVec 1)
  /-- LEN267 (R243): match length 15 + x. -/
  | len267 (x : BitVec 1)
  /-- LEN268 (R244): match length 17 + x. -/
  | len268 (x : BitVec 1)
  /-- LEN269 (R245): match length 19 + x. -/
  | len269 (x : BitVec 2)
  /-- LEN270 (R246): match length 23 + x. -/
  | len270 (x : BitVec 2)
  /-- LEN271 (R247): match length 27 + x. -/
  | len271 (x : BitVec 2)
  /-- LEN272 (R248): match length 31 + x. -/
  | len272 (x : BitVec 2)
  /-- LEN273 (R249): match length 35 + x. -/
  | len273 (x : BitVec 3)
  /-- LEN274 (R250): match length 43 + x. -/
  | len274 (x : BitVec 3)
  /-- LEN275 (R251): match length 51 + x. -/
  | len275 (x : BitVec 3)
  /-- LEN276 (R252): match length 59 + x. -/
  | len276 (x : BitVec 3)
  /-- LEN277 (R253): match length 67 + x. -/
  | len277 (x : BitVec 4)
  /-- LEN278 (R254): match length 83 + x. -/
  | len278 (x : BitVec 4)
  /-- LEN279 (R255): match length 99 + x. -/
  | len279 (x : BitVec 4)
  /-- LEN280 (R256): match length 115 + x. -/
  | len280 (x : BitVec 4)
  /-- LEN281 (R257): match length 131 + x. -/
  | len281 (x : BitVec 5)
  /-- LEN282 (R258): match length 163 + x. -/
  | len282 (x : BitVec 5)
  /-- LEN283 (R259): match length 195 + x. -/
  | len283 (x : BitVec 5)
  /-- LEN284 (R260): match length 227 + x. -/
  | len284 (x : BitVec 5)
  /-- LEN285 (R261): match length 258. -/
  | len285
  /-- LL286 (R262): reserved literal/length symbol. -/
  | ll286
  /-- LL287 (R263): reserved literal/length symbol. -/
  | ll287
  /-- DIST0 (R264): match distance 1. -/
  | dist0
  /-- DIST1 (R265): match distance 2. -/
  | dist1
  /-- DIST2 (R266): match distance 3. -/
  | dist2
  /-- DIST3 (R267): match distance 4. -/
  | dist3
  /-- DIST4 (R268): match distance 5 + y. -/
  | dist4 (y : BitVec 1)
  /-- DIST5 (R269): match distance 7 + y. -/
  | dist5 (y : BitVec 1)
  /-- DIST6 (R270): match distance 9 + y. -/
  | dist6 (y : BitVec 2)
  /-- DIST7 (R271): match distance 13 + y. -/
  | dist7 (y : BitVec 2)
  /-- DIST8 (R272): match distance 17 + y. -/
  | dist8 (y : BitVec 3)
  /-- DIST9 (R273): match distance 25 + y. -/
  | dist9 (y : BitVec 3)
  /-- DIST10 (R274): match distance 33 + y. -/
  | dist10 (y : BitVec 4)
  /-- DIST11 (R275): match distance 49 + y. -/
  | dist11 (y : BitVec 4)
  /-- DIST12 (R276): match distance 65 + y. -/
  | dist12 (y : BitVec 5)
  /-- DIST13 (R277): match distance 97 + y. -/
  | dist13 (y : BitVec 5)
  /-- DIST14 (R278): match distance 129 + y. -/
  | dist14 (y : BitVec 6)
  /-- DIST15 (R279): match distance 193 + y. -/
  | dist15 (y : BitVec 6)
  /-- DIST16 (R280): match distance 257 + y. -/
  | dist16 (y : BitVec 7)
  /-- DIST17 (R281): match distance 385 + y. -/
  | dist17 (y : BitVec 7)
  /-- DIST18 (R282): match distance 513 + y. -/
  | dist18 (y : BitVec 8)
  /-- DIST19 (R283): match distance 769 + y. -/
  | dist19 (y : BitVec 8)
  /-- DIST20 (R284): match distance 1025 + y. -/
  | dist20 (y : BitVec 9)
  /-- DIST21 (R285): match distance 1537 + y. -/
  | dist21 (y : BitVec 9)
  /-- DIST22 (R286): match distance 2049 + y. -/
  | dist22 (y : BitVec 10)
  /-- DIST23 (R287): match distance 3073 + y. -/
  | dist23 (y : BitVec 10)
  /-- DIST24 (R288): match distance 4097 + y. -/
  | dist24 (y : BitVec 11)
  /-- DIST25 (R289): match distance 6145 + y. -/
  | dist25 (y : BitVec 11)
  /-- DIST26 (R290): match distance 8193 + y. -/
  | dist26 (y : BitVec 12)
  /-- DIST27 (R291): match distance 12289 + y. -/
  | dist27 (y : BitVec 12)
  /-- DIST28 (R292): match distance 16385 + y. -/
  | dist28 (y : BitVec 13)
  /-- DIST29 (R293): match distance 24577 + y. -/
  | dist29 (y : BitVec 13)
  /-- DIST30 (R294): reserved distance symbol. -/
  | dist30
  /-- DIST31 (R295): reserved distance symbol. -/
  | dist31
deriving DecidableEq, Repr

end Sys2Proof
end

