-- ==== Sys2Proof/Decode.lean ====
section
/-! DEFINITION. From stream bits to elements and back: the constant tables (30_encoding.md R94, R97 to R100), numeric
fields and Huffman codes as bit lists (R11, R12; 20_memory.md R67, R68), the canonical Huffman construction
(42_huffman.md R170 to R174), the selection of an element by alphabet and number (R104), the decoder, and after it the
encoder. A bit list is in stream order: its head is the bit read first. -/

namespace Sys2Proof

/-! ## Constant tables -/

/-- `CL_ORDER` (R94). -/
def clOrder : List Nat := [16, 17, 18, 0, 8, 7, 9, 6, 10, 5, 11, 4, 12, 3, 13, 2, 14, 1, 15]

/-- `LBASE[257..285]` (R97). -/
def lBaseTable : List Nat :=
  [3, 4, 5, 6, 7, 8, 9, 10, 11, 13, 15, 17, 19, 23, 27,
   31, 35, 43, 51, 59, 67, 83, 99, 115, 131, 163, 195, 227, 258]

/-- `LEXTRA[257..285]` (R97). -/
def lExtraTable : List Nat :=
  [0, 0, 0, 0, 0, 0, 0, 0, 1, 1, 1, 1, 2, 2, 2,
   2, 3, 3, 3, 3, 4, 4, 4, 4, 5, 5, 5, 5, 0]

/-- `DBASE[0..29]` (R98). -/
def dBaseTable : List Nat :=
  [1, 2, 3, 4, 5, 7, 9, 13, 17, 25, 33, 49, 65, 97, 129,
   193, 257, 385, 513, 769, 1025, 1537, 2049, 3073, 4097, 6145, 8193, 12289, 16385, 24577]

/-- `DEXTRA[0..29]` (R98). -/
def dExtraTable : List Nat :=
  [0, 0, 0, 0, 1, 1, 2, 2, 3, 3, 4, 4, 5, 5, 6,
   6, 7, 7, 8, 8, 9, 9, 10, 10, 11, 11, 12, 12, 13, 13]

/-- `LBASE[S]` (R97); 0 outside 257..285. -/
def lBase (S : Nat) : Nat := if S < 257 then 0 else lBaseTable.getD (S - 257) 0

/-- `LEXTRA[S]` (R97); 0 outside 257..285: only a length symbol has an extra field. -/
def lExtra (S : Nat) : Nat := if S < 257 then 0 else lExtraTable.getD (S - 257) 0

/-- `DBASE[D]` (R98); 0 for the reserved symbols. -/
def dBase (D : Nat) : Nat := dBaseTable.getD D 0

/-- `DEXTRA[D]` (R98); 0 for the reserved symbols, which have no extra field (44_symbols.md R294). -/
def dExtra (D : Nat) : Nat := dExtraTable.getD D 0

/-- Base of the repeat count of tree-code symbol `n` (R95, R102 (b)). -/
def repeatBase (n : Nat) : Nat := if n = 18 then 11 else 3

/-- Width of the extra field of tree-code symbol `n` (R95). -/
def clExtra (n : Nat) : Nat := if n = 16 then 2 else if n = 17 then 3 else if n = 18 then 7 else 0

/-- The fixed literal/length code lengths, symbols 0..287 (R99). -/
def fixedLLLens : List Nat :=
  List.replicate 144 8 ++ List.replicate 112 9 ++ List.replicate 24 7 ++ List.replicate 8 8

/-- The fixed distance code lengths, symbols 0..29 (R100, 90_conflicts.md C3). -/
def fixedDLens : List Nat := List.replicate 30 5

/-! ## Fields and codes as bits -/

/-- The stream bits of the numeric field `v` of `w` bits, least significant bit first (20_memory.md R67). -/
def numBits : Nat → Nat → List Bool
  | 0, _ => []
  | w + 1, v => (v % 2 == 1) :: numBits w (v / 2)

/-- The number a list of stream bits gives when it is read as a numeric field (R67). -/
def numOfBits : List Bool → Nat
  | [] => 0
  | b :: bs => b.toNat + 2 * numOfBits bs

/-- The stream bits of a Huffman code of `len` bits, most significant bit first (20_memory.md R68). -/
def codeBits (len code : Nat) : List Bool := (numBits len code).reverse

/-- The eight stream bits of a source byte, bit 0 first (R12, R66). -/
def byteBits (b : Byte) : List Bool := numBits 8 b.toNat

/-- Stream bits packed into source bytes, the last byte filled up with zeros. -/
def packBits : List Bool → List Byte
  | b0 :: b1 :: b2 :: b3 :: b4 :: b5 :: b6 :: b7 :: rest =>
    BitVec.ofNat 8 (numOfBits [b0, b1, b2, b3, b4, b5, b6, b7]) :: packBits rest
  | [] => []
  | bs => [BitVec.ofNat 8 (numOfBits bs)]

/-! ## Canonical Huffman construction (42_huffman.md) -/

/-- One assigned code: symbol `sym` has the code of `len` bits with value `code`. -/
structure CodeEntry where
  len : Nat
  code : Nat
  sym : Nat
deriving DecidableEq, Repr

/-- `count[L]` of R170, with `count[0] = 0` (R171). -/
def lenCount (lens : List Nat) (L : Nat) : Nat := if L = 0 then 0 else lens.count L

/-- `next_code[L]` as step 2 of R170 computes it: `(next_code[L-1] + count[L-1]) << 1`. -/
def firstCode (lens : List Nat) : Nat → Nat
  | 0 => 0
  | L + 1 => (firstCode lens L + lenCount lens L) <<< 1

/-- Step 3 of R170 from symbol `s` on: codes in ascending symbol order; `next` holds `next_code[0..15]`. -/
def assignCodes : Nat → List Nat → List Nat → List CodeEntry
  | _, [], _ => []
  | s, L :: lens, next =>
    if L = 0 then assignCodes (s + 1) lens next
    else ⟨L, next.getD L 0, s⟩ :: assignCodes (s + 1) lens (next.set L (next.getD L 0 + 1))

/-- Test (b) of R172: for some `L` in 1..15 the codes of length `L` do not fit in `L` bits. -/
def overSubscribed (lens : List Nat) : Bool :=
  (List.range' 1 Config.maxBits).any fun L => decide (2 ^ L < firstCode lens L + lenCount lens L)

/-- `HuffBuild(lens, n)` with `lens` the first `n` entries of the length array (R170); `none` is
`InvalidHuffmanTree`, in the two cases of R172 and no other (R173). -/
def huffBuild (lens : List Nat) : Option (List CodeEntry) :=
  if lens.any (fun L => decide (Config.maxBits < L)) then none
  else if overSubscribed lens then none
  else some (assignCodes 0 lens ((List.range (Config.maxBits + 1)).map (firstCode lens)))

/-- `T[(len, code)]` (R170). -/
def lookupCode (T : List CodeEntry) (len code : Nat) : Option Nat :=
  (T.find? fun e => e.len == len && e.code == code).map CodeEntry.sym

/-! ## Selection (30_encoding.md R104, R105) -/

/-- Width of the extra field that follows the symbol `n` (R95, R97, R98). A block header has none. -/
def extraWidth : Alphabet → Nat → Nat
  | .header, _ => 0
  | .treeCode, n => clExtra n
  | .litLen, n => lExtra n
  | .dist, n => dExtra n

/-- The length elements LEN257 to LEN285, as functions of their extra field (R97). -/
def lengthInstrs : List (Nat → Instr) :=
  [fun _ => .len257,
   fun _ => .len258,
   fun _ => .len259,
   fun _ => .len260,
   fun _ => .len261,
   fun _ => .len262,
   fun _ => .len263,
   fun _ => .len264,
   fun x => .len265 (BitVec.ofNat 1 x),
   fun x => .len266 (BitVec.ofNat 1 x),
   fun x => .len267 (BitVec.ofNat 1 x),
   fun x => .len268 (BitVec.ofNat 1 x),
   fun x => .len269 (BitVec.ofNat 2 x),
   fun x => .len270 (BitVec.ofNat 2 x),
   fun x => .len271 (BitVec.ofNat 2 x),
   fun x => .len272 (BitVec.ofNat 2 x),
   fun x => .len273 (BitVec.ofNat 3 x),
   fun x => .len274 (BitVec.ofNat 3 x),
   fun x => .len275 (BitVec.ofNat 3 x),
   fun x => .len276 (BitVec.ofNat 3 x),
   fun x => .len277 (BitVec.ofNat 4 x),
   fun x => .len278 (BitVec.ofNat 4 x),
   fun x => .len279 (BitVec.ofNat 4 x),
   fun x => .len280 (BitVec.ofNat 4 x),
   fun x => .len281 (BitVec.ofNat 5 x),
   fun x => .len282 (BitVec.ofNat 5 x),
   fun x => .len283 (BitVec.ofNat 5 x),
   fun x => .len284 (BitVec.ofNat 5 x),
   fun _ => .len285]

/-- The distance elements DIST0 to DIST31, as functions of their extra field (R98, R109). -/
def distInstrs : List (Nat → Instr) :=
  [fun _ => .dist0,
   fun _ => .dist1,
   fun _ => .dist2,
   fun _ => .dist3,
   fun y => .dist4 (BitVec.ofNat 1 y),
   fun y => .dist5 (BitVec.ofNat 1 y),
   fun y => .dist6 (BitVec.ofNat 2 y),
   fun y => .dist7 (BitVec.ofNat 2 y),
   fun y => .dist8 (BitVec.ofNat 3 y),
   fun y => .dist9 (BitVec.ofNat 3 y),
   fun y => .dist10 (BitVec.ofNat 4 y),
   fun y => .dist11 (BitVec.ofNat 4 y),
   fun y => .dist12 (BitVec.ofNat 5 y),
   fun y => .dist13 (BitVec.ofNat 5 y),
   fun y => .dist14 (BitVec.ofNat 6 y),
   fun y => .dist15 (BitVec.ofNat 6 y),
   fun y => .dist16 (BitVec.ofNat 7 y),
   fun y => .dist17 (BitVec.ofNat 7 y),
   fun y => .dist18 (BitVec.ofNat 8 y),
   fun y => .dist19 (BitVec.ofNat 8 y),
   fun y => .dist20 (BitVec.ofNat 9 y),
   fun y => .dist21 (BitVec.ofNat 9 y),
   fun y => .dist22 (BitVec.ofNat 10 y),
   fun y => .dist23 (BitVec.ofNat 10 y),
   fun y => .dist24 (BitVec.ofNat 11 y),
   fun y => .dist25 (BitVec.ofNat 11 y),
   fun y => .dist26 (BitVec.ofNat 12 y),
   fun y => .dist27 (BitVec.ofNat 12 y),
   fun y => .dist28 (BitVec.ofNat 13 y),
   fun y => .dist29 (BitVec.ofNat 13 y),
   fun _ => .dist30,
   fun _ => .dist31]

/-- The element that number `n` selects in an alphabet, with extra field `x` (R104, R105); `none` for a number the
alphabet does not have (R110: no tree-code symbol above 18, R230: no literal/length symbol above 287, no distance
symbol above 31). -/
def instrOf : Alphabet → Nat → Nat → Option Instr
  | .header, h, _ =>
    let f : BitVec 1 := BitVec.ofNat 1 h
    if h / 2 = 0 then some (.blkStored f)
    else if h / 2 = 1 then some (.blkFixed f)
    else if h / 2 = 2 then some (.blkDynamic f)
    else if h / 2 = 3 then some (.blkRsvd f)
    else none
  | .treeCode, n, x =>
    if n < 16 then some (.clen (BitVec.ofNat 4 n))
    else if n = 16 then some (.crep16 (BitVec.ofNat 2 x))
    else if n = 17 then some (.czero17 (BitVec.ofNat 3 x))
    else if n = 18 then some (.czero18 (BitVec.ofNat 7 x))
    else none
  | .litLen, n, x =>
    if n < 256 then some (.lit (BitVec.ofNat 8 n))
    else if n = 256 then some .eob
    else if n < 286 then (lengthInstrs[n - 257]?).map (· x)
    else if n = 286 then some .ll286
    else if n = 287 then some .ll287
    else none
  | .dist, n, x => (distInstrs[n]?).map (· x)

/-! ## The decoder -/

/-- Why the decoder rejects a bit string. -/
inductive Reject where
  /-- The bits end inside the element (`UnexpectedEof` in the machine). -/
  | endOfInput
  /-- The context's code lengths build no table (R172). -/
  | invalidTree
  /-- 15 bits match no assigned code (42_huffman.md R176). -/
  | invalidCode
  /-- A symbol number its alphabet does not have. -/
  | noSuchSymbol
deriving DecidableEq, Repr

/-- Bit-serial decode of one code (R175, R176): `k` more bits may be read, `len` bits with value `acc` have been. -/
def matchCode (T : List CodeEntry) : Nat → Nat → Nat → List Bool → Except Reject (Nat × List Bool)
  | 0, _, _, _ => .error .invalidCode
  | _ + 1, _, _, [] => .error .endOfInput
  | k + 1, len, acc, b :: bs =>
    match lookupCode T (len + 1) (2 * acc + b.toNat) with
    | some s => .ok (s, bs)
    | none => matchCode T k (len + 1) (2 * acc + b.toNat) bs

/-- One symbol of the table built from `lens`. -/
def decodeSymbol (lens : List Nat) (bits : List Bool) : Except Reject (Nat × List Bool) :=
  match huffBuild lens with
  | none => .error .invalidTree
  | some T => matchCode T Config.maxBits 0 0 bits

/-- A numeric field of `w` bits (R67). -/
def takeNum (w : Nat) (bits : List Bool) : Except Reject (Nat × List Bool) :=
  if bits.length < w then .error .endOfInput else .ok (numOfBits (bits.take w), bits.drop w)

/-- The element `n` of an alphabet, its extra field read from `bits`. -/
def decodeExtra (a : Alphabet) (n : Nat) (bits : List Bool) : Except Reject (Instr × List Bool) :=
  match takeNum (extraWidth a n) bits with
  | .error e => .error e
  | .ok (x, rest) =>
    match instrOf a n x with
    | some i => .ok (i, rest)
    | none => .error .noSuchSymbol

/-- A coded element: its Huffman code, then its extra field (R95, R96). -/
def decodeCoded (a : Alphabet) (lens : List Nat) (bits : List Bool) : Except Reject (Instr × List Bool) :=
  match decodeSymbol lens bits with
  | .error e => .error e
  | .ok (n, rest) => decodeExtra a n rest

/-- THE DECODER: the element at the head of a bit string and the bits after it, in a context. Total; it rejects by
name. -/
def decode : Context → List Bool → Except Reject (Instr × List Bool)
  | .header, bits =>
    match takeNum 3 bits with
    | .error e => .error e
    | .ok (h, rest) => decodeExtra .header h rest
  | .treeCode lens, bits => decodeCoded .treeCode lens bits
  | .litLen lens, bits => decodeCoded .litLen lens bits
  | .dist lens, bits => decodeCoded .dist lens bits

/-! ## The encoder -/

/-- Alphabet, number and extra field of an element (R95 to R98, R105). For a block header the number is the 3-bit
`h` of R91: BFINAL is bit 0, BTYPE bits 2:1. -/
def fieldsOf : Instr → Alphabet × Nat × Nat
  | .blkStored f => (.header, f.toNat + 0, 0)
  | .blkFixed f => (.header, f.toNat + 2, 0)
  | .blkDynamic f => (.header, f.toNat + 4, 0)
  | .blkRsvd f => (.header, f.toNat + 6, 0)
  | .clen n => (.treeCode, n.toNat, 0)
  | .crep16 x => (.treeCode, 16, x.toNat)
  | .czero17 x => (.treeCode, 17, x.toNat)
  | .czero18 x => (.treeCode, 18, x.toNat)
  | .lit b => (.litLen, b.toNat, 0)
  | .eob => (.litLen, 256, 0)
  | .len257 => (.litLen, 257, 0)
  | .len258 => (.litLen, 258, 0)
  | .len259 => (.litLen, 259, 0)
  | .len260 => (.litLen, 260, 0)
  | .len261 => (.litLen, 261, 0)
  | .len262 => (.litLen, 262, 0)
  | .len263 => (.litLen, 263, 0)
  | .len264 => (.litLen, 264, 0)
  | .len265 x => (.litLen, 265, x.toNat)
  | .len266 x => (.litLen, 266, x.toNat)
  | .len267 x => (.litLen, 267, x.toNat)
  | .len268 x => (.litLen, 268, x.toNat)
  | .len269 x => (.litLen, 269, x.toNat)
  | .len270 x => (.litLen, 270, x.toNat)
  | .len271 x => (.litLen, 271, x.toNat)
  | .len272 x => (.litLen, 272, x.toNat)
  | .len273 x => (.litLen, 273, x.toNat)
  | .len274 x => (.litLen, 274, x.toNat)
  | .len275 x => (.litLen, 275, x.toNat)
  | .len276 x => (.litLen, 276, x.toNat)
  | .len277 x => (.litLen, 277, x.toNat)
  | .len278 x => (.litLen, 278, x.toNat)
  | .len279 x => (.litLen, 279, x.toNat)
  | .len280 x => (.litLen, 280, x.toNat)
  | .len281 x => (.litLen, 281, x.toNat)
  | .len282 x => (.litLen, 282, x.toNat)
  | .len283 x => (.litLen, 283, x.toNat)
  | .len284 x => (.litLen, 284, x.toNat)
  | .len285 => (.litLen, 285, 0)
  | .ll286 => (.litLen, 286, 0)
  | .ll287 => (.litLen, 287, 0)
  | .dist0 => (.dist, 0, 0)
  | .dist1 => (.dist, 1, 0)
  | .dist2 => (.dist, 2, 0)
  | .dist3 => (.dist, 3, 0)
  | .dist4 y => (.dist, 4, y.toNat)
  | .dist5 y => (.dist, 5, y.toNat)
  | .dist6 y => (.dist, 6, y.toNat)
  | .dist7 y => (.dist, 7, y.toNat)
  | .dist8 y => (.dist, 8, y.toNat)
  | .dist9 y => (.dist, 9, y.toNat)
  | .dist10 y => (.dist, 10, y.toNat)
  | .dist11 y => (.dist, 11, y.toNat)
  | .dist12 y => (.dist, 12, y.toNat)
  | .dist13 y => (.dist, 13, y.toNat)
  | .dist14 y => (.dist, 14, y.toNat)
  | .dist15 y => (.dist, 15, y.toNat)
  | .dist16 y => (.dist, 16, y.toNat)
  | .dist17 y => (.dist, 17, y.toNat)
  | .dist18 y => (.dist, 18, y.toNat)
  | .dist19 y => (.dist, 19, y.toNat)
  | .dist20 y => (.dist, 20, y.toNat)
  | .dist21 y => (.dist, 21, y.toNat)
  | .dist22 y => (.dist, 22, y.toNat)
  | .dist23 y => (.dist, 23, y.toNat)
  | .dist24 y => (.dist, 24, y.toNat)
  | .dist25 y => (.dist, 25, y.toNat)
  | .dist26 y => (.dist, 26, y.toNat)
  | .dist27 y => (.dist, 27, y.toNat)
  | .dist28 y => (.dist, 28, y.toNat)
  | .dist29 y => (.dist, 29, y.toNat)
  | .dist30 => (.dist, 30, 0)
  | .dist31 => (.dist, 31, 0)

/-- The alphabet of an element. -/
def alphabetOf (i : Instr) : Alphabet := (fieldsOf i).1

/-- The number of an element in its alphabet (opcode_table.json). -/
def numberOf (i : Instr) : Nat := (fieldsOf i).2.1

/-- The value of an element's extra field, 0 where it has none. -/
def extraOf (i : Instr) : Nat := (fieldsOf i).2.2

/-- The alphabet a context reads. -/
def Context.alphabet : Context → Alphabet
  | .header => .header
  | .treeCode _ => .treeCode
  | .litLen _ => .litLen
  | .dist _ => .dist

/-- The code lengths of a context's table; a block header is no Huffman code. -/
def Context.lens : Context → List Nat
  | .header => []
  | .treeCode lens => lens
  | .litLen lens => lens
  | .dist lens => lens

/-- The bits of the code that the table built from `lens` gives symbol `n`, if it gives it one. -/
def symbolBits (lens : List Nat) (n : Nat) : Option (List Bool) :=
  match huffBuild lens with
  | none => none
  | some T => (T.find? fun e => e.sym == n).map fun e => codeBits e.len e.code

/-- The extra field of an element as bits. -/
def extraBits (i : Instr) : List Bool := numBits (extraWidth (alphabetOf i) (numberOf i)) (extraOf i)

/-- THE ENCODER: the stream bits of an element in a context; `none` where the context cannot present it. -/
def encode (c : Context) (i : Instr) : Option (List Bool) :=
  if alphabetOf i = c.alphabet then
    match c with
    | .header => some (numBits 3 (numberOf i))
    | .treeCode lens => (symbolBits lens (numberOf i)).map (· ++ extraBits i)
    | .litLen lens => (symbolBits lens (numberOf i)).map (· ++ extraBits i)
    | .dist lens => (symbolBits lens (numberOf i)).map (· ++ extraBits i)
  else none

/-! ## The opcode table's words (log 15)

A word of spec/opcode_table.json is a NUMBER IN AN ALPHABET (R105), not stream bits, and the word alone does not say
which alphabet: 0 is a stored header, CLEN 0 and DIST0. `tableRow` fixes one reading for each word; the stream itself
never needs it, since the state machine knows the alphabet. -/

/-- The alphabet and number of a word of the opcode table (log 15). -/
def tableRow (nbits w : Nat) : Option (Alphabet × Nat) :=
  if nbits ≤ 8 then
    if w < 8 && w % 2 == 0 then some (.header, w)
    else if w == 16 || w == 17 then some (.treeCode, w)
    else if w < 32 then some (.dist, w)
    else none
  else if w < 18 then some (.litLen, w)
  else if w == 18 then some (.treeCode, 18)
  else if w < 30 then some (.dist, w)
  else if w < 288 then some (.litLen, w)
  else if w < 512 then none
  else if w % 32 == 18 then some (.treeCode, 18)
  else if 18 < w % 32 && w % 32 < 30 then some (.dist, w % 32)
  else none

/-- The tables a word of the opcode table is presented with (log 15): the fixed literal/length table (R99), and for
the tree codes and the distances, where no block of the spec has a code for every symbol, equal lengths of 5, so that
symbol `n` has the 5-bit code `n`. -/
def tableContext : Alphabet → Context
  | .header => .header
  | .treeCode => .treeCode (List.replicate 19 5)
  | .litLen => .litLen fixedLLLens
  | .dist => .dist (List.replicate 32 5)

/-- The code of a fixed literal/length symbol, from the table of R99. -/
def fixedLLCode (n : Nat) : List Bool :=
  if n < 144 then codeBits 8 (0x30 + n)
  else if n < 256 then codeBits 9 (0x190 + (n - 144))
  else if n < 280 then codeBits 7 (n - 256)
  else codeBits 8 (0xC0 + (n - 280))

/-- The stream bits of a word of the opcode table: its header field or its code, every bit after it 0. -/
def tableBits : Alphabet → Nat → List Bool
  | .header, h => numBits 3 h ++ List.replicate 77 false
  | .treeCode, n => codeBits 5 n ++ List.replicate 75 false
  | .litLen, n => fixedLLCode n ++ List.replicate 72 false
  | .dist, n => codeBits 5 n ++ List.replicate 75 false

/-- The instruction the decoder reads from a word of the opcode table, operand bits above it 0 (log 15). -/
def decodeTableWord (nbits w : Nat) : Option Instr :=
  match tableRow nbits w with
  | none => none
  | some (a, n) =>
    match decode (tableContext a) (tableBits a n) with
    | .ok (i, _) => some i
    | .error _ => none

end Sys2Proof
end

