-- ==== Sys2Proof/Machine/State.lean ====
section
/-! DEFINITION. The state of CORE (10_state.md R20), of its environment (the source, the sink: R20, 20_memory.md R60)
and of the gzip host (45_host_gzip.md), the ways a step can stop, and the state right after reset
(70_reset_and_hazards.md R380). Widths are those of R20. -/

namespace Sys2Proof.Machine

/-- STATE, the block state machine (10_state.md R40, 43_blocks.md R190). Its numeric codes are in Flags.lean. -/
inductive BlkState where
  | start
  | readBlockHeader
  | stored
  | fixed
  | dynamic
  | decodeSymbols
  | blockEnd
  | done
  | error
deriving DecidableEq, Repr

/-- The twelve error kinds (60_exceptions.md R350). CORE raises seven of them, the host the rest, `unexpectedEof` and
`ioError` both. Their numeric codes are in Ops.lean. -/
inductive ErrKind where
  | lengthMismatch
  | crc32Mismatch
  | wrongIdValues
  | headerCrc16Mismatch
  | unsupportedBlockType
  | unsupportedCompressionMethod
  | nlenMismatch
  | invalidHuffmanTree
  | invalidHuffmanCode
  | invalidDistance
  | unexpectedEof
  | ioError
deriving DecidableEq, Repr

/-- An item of the byte source (20_memory.md R63, 92_eei_decisions.md D18): a byte, or the mark that the source reports
an I/O error there. The end of the list is end of stream. -/
inductive SrcItem where
  | byte (b : Byte)
  | ioErr
deriving DecidableEq, Repr

/-- Where the gzip host is in `Decompress()` (45_host_gzip.md). -/
inductive GzPhase where
  /-- No gzip host: whoever drives CORE has positioned the source and started it (00_scope.md R5; log 9). -/
  | bare
  /-- Reading ID1, ID2 (R328). -/
  | ids
  /-- Reading CM (R328). -/
  | cm
  /-- Reading FLG (R329). -/
  | flg
  /-- Reading MTIME, XFL, OS, six bytes (R328). -/
  | fixedRest
  /-- Reading the two length bytes of FEXTRA (R330). -/
  | xlen
  /-- Skipping the bytes of FEXTRA (R330). -/
  | extra
  /-- Reading FNAME up to its 0x00 (R330). -/
  | name
  /-- Reading FCOMMENT up to its 0x00 (R330). -/
  | comment
  /-- Reading the two bytes of FHCRC (R331). -/
  | hcrc
  /-- CORE has been reset and started; the host waits for DONE or ERR (R321, R326). -/
  | core
  /-- Reading the eight bytes of the trailer (R334). -/
  | trailer
  /-- The member has been accepted (R337). -/
  | success
  /-- The run has failed; `err` holds the first error (R327). -/
  | failed
deriving DecidableEq, Repr

/-- The host's own registers (45_host_gzip.md `Decompress()`). -/
structure GzHost where
  phase : GzPhase
  /-- FLG (R329). -/
  flg : BitVec 8
  /-- HCRC: CrcStep over the header bytes read so far (R331). -/
  hcrc : BitVec 32
  /-- The bytes read so far of the field being read. -/
  buf : List Byte
  /-- Bytes still to skip in `fixedRest` and `extra`. -/
  left : Nat
  /-- The error of a failed run. -/
  err : Option ErrKind
deriving DecidableEq, Repr

/-- Everything the machine holds. -/
structure State where
  /-- `BB`: the unconsumed bits of the current source byte, next bit at bit 0 (R22). -/
  bb : BitVec 8
  /-- `BC`: how many bits of `BB` are valid (R22). -/
  bc : BitVec 4
  /-- `IPOS`: bytes taken from the source since reset (R31; log 5). -/
  ipos : Nat
  /-- `WIN`: the history window, (index, byte) cells in strictly rising order; an unlisted index has no value (R34; log 3). -/
  win : List Host.Cell
  /-- `CRC`: the running CRC-32 before the final XOR (R32). -/
  crc : BitVec 32
  /-- `COUNT`: bytes written since reset (R33; log 5). -/
  count : Nat
  /-- `CL_LENS` (R36). -/
  clLens : Vector (BitVec 3) 19
  /-- `LL_LENS` (R37). -/
  llLens : Vector (BitVec 4) 288
  /-- `LL_N` (R37). -/
  llN : BitVec 9
  /-- `D_LENS` (R38). -/
  dLens : Vector (BitVec 4) 32
  /-- `D_N` (R38). -/
  dN : BitVec 6
  /-- `SCR` (R39; log 4). -/
  scr : Vector (BitVec 4) 320
  /-- `ACC` (R47). -/
  acc : BitVec 15
  /-- `ACCN` (R47). -/
  accn : BitVec 4
  /-- `STATE` (R40). -/
  st : BlkState
  /-- `BFINAL` (R41). -/
  bfinal : BitVec 1
  /-- `BTYPE` (R41). -/
  btype : BitVec 2
  /-- `HLIT` (R44). -/
  hlit : BitVec 9
  /-- `HDIST` (R44). -/
  hdist : BitVec 6
  /-- `HCLEN` (R44). -/
  hclen : BitVec 5
  /-- `IDX` (R44). -/
  idx : BitVec 9
  /-- `SLEN` (R45). -/
  slen : BitVec 16
  /-- `SNLEN` (R45). -/
  snlen : BitVec 16
  /-- `REM` (R45). -/
  rem : BitVec 16
  /-- `SYM` (R46). -/
  sym : BitVec 9
  /-- `DSYM` (R46). -/
  dsym : BitVec 5
  /-- `MLEN` (R46). -/
  mlen : BitVec 9
  /-- `MDIST` (R46). -/
  mdist : BitVec 16
  /-- `ERR` (R42). -/
  err : BitVec 4
  /-- `DONE` (R43). -/
  done : BitVec 1
  /-- The model's own field: the position inside the loop body of R230. True after a length symbol, when the next code
  is a distance code (log 1). -/
  awaitDist : Bool
  /-- SRC: what the source still holds (20_memory.md R62, R63; log 6). -/
  src : List SrcItem
  /-- SNK: what the sink holds, oldest first (R64, R65). -/
  snk : List Byte
  /-- `SNK_FAIL_AT`: the index, counted from reset, of the output byte the sink refuses, or never (D18). -/
  snkFailAt : Option Nat
  /-- The gzip host (45_host_gzip.md; log 9). -/
  gz : GzHost
deriving DecidableEq, Repr

/-- Reasons the model stops with a fault. -/
inductive Fault where
  /-- Raised by the copy of `WritePrevious` (a distance element) when it reads a window index nothing has written.
  The spec says it never happens ("never read before written", 10_state.md R34) and gives the index no value. Safe:
  the model stops where the hardware would go on with an unspecified byte (log 3). No run from reset reaches it. -/
  | windowUnwritten
deriving DecidableEq, Repr

/-- Reasons the model refuses. -/
inductive Refusal where
  /-- An instruction that has no meaning yet. No arm of `exec` answers it. Safe. -/
  | notModelled (mnemonic : String)
  /-- Raised by `SrcNext` when IPOS would reach 2^64: "a model refuses an input of 2^64 bytes or more" (10_state.md
  R31). Safe (log 5). -/
  | inputTooLong
  /-- Raised by `WriteByte` when COUNT would reach 2^64: "a model refuses to go past it" (10_state.md R33). Safe
  (log 5). -/
  | outputTooLong
  /-- Raised by `ReadBits(n)` with `n > 32`: "A model refuses it (it has no meaning)" (40_bitreader.md R133). No rule
  calls it so. Safe. -/
  | readTooWide
  /-- Raised by `WritePrevious` called with `dist = 0`: "outside the contract ... a model refuses it"
  (41_tracking_writer.md R158). No stream element reaches it: the smallest distance is 1. Safe. -/
  | zeroDistance
  /-- Raised by the fetch when a table decodes to a symbol number its alphabet does not have. The register widths and
  array sizes keep every table inside its alphabet, so no state reaches it (log 14). Safe. -/
  | noSuchSymbol
deriving DecidableEq, Repr

/-- The host's registers when there is no gzip host (log 9). -/
def GzHost.bare : GzHost :=
  { phase := .bare, flg := 0, hcrc := Config.crcInit, buf := [], left := 0, err := none }

/-- The machine right after reset (70_reset_and_hazards.md R380). WIN and SCR are unspecified there: log 3, log 4. The
environment is empty: log 6. -/
def State.reset : State :=
  { bb := 0, bc := 0, ipos := 0
    win := [], crc := Config.crcInit, count := 0
    clLens := Vector.replicate 19 0, llLens := Vector.replicate 288 0, llN := 0
    dLens := Vector.replicate 32 0, dN := 0, scr := Vector.replicate 320 0
    acc := 0, accn := 0
    st := .start, bfinal := 0, btype := 0
    hlit := 0, hdist := 0, hclen := 0, idx := 0
    slen := 0, snlen := 0, rem := 0
    sym := 0, dsym := 0, mlen := 0, mdist := 0
    err := 0, done := 0
    awaitDist := false
    src := [], snk := [], snkFailAt := none
    gz := GzHost.bare }

end Sys2Proof.Machine
end

