-- ==== Sys2Proof/Machine/Ops.lean ====
section
/-! DEFINITION. The named operations every meaning is written with: results of an operation, taking an exception
(60_exceptions.md R356), the byte source and the bit reader (20_memory.md R62; 40_bitreader.md), the window, CRC-32 and
the byte sink (20_memory.md R64, R76; 41_tracking_writer.md), and runs of code-length entries (43_blocks.md). -/

namespace Sys2Proof.Machine

/-! ## Errors: codes and texts -/

/-- The numeric code of an error kind (60_exceptions.md R350). -/
def errCode : ErrKind → BitVec 4
  | .lengthMismatch => 1
  | .crc32Mismatch => 2
  | .wrongIdValues => 3
  | .headerCrc16Mismatch => 4
  | .unsupportedBlockType => 5
  | .unsupportedCompressionMethod => 6
  | .nlenMismatch => 7
  | .invalidHuffmanTree => 8
  | .invalidHuffmanCode => 9
  | .invalidDistance => 10
  | .unexpectedEof => 11
  | .ioError => 12

/-- The kind an `ERR` value names; none for 0 (no error) and for the three codes the spec does not use (R350). -/
def errKind (c : BitVec 4) : Option ErrKind :=
  [.lengthMismatch, .crc32Mismatch, .wrongIdValues, .headerCrc16Mismatch, .unsupportedBlockType,
   .unsupportedCompressionMethod, .nlenMismatch, .invalidHuffmanTree, .invalidHuffmanCode, .invalidDistance,
   .unexpectedEof, .ioError].find? fun k => errCode k == c

/-- The canonical message of the kinds that have one (R350, R361). -/
def errText : ErrKind → Option String
  | .lengthMismatch => some "length check failed"
  | .crc32Mismatch => some "crc32 check failed"
  | .wrongIdValues => some "wrong id values"
  | .headerCrc16Mismatch => some "header crc16 check failed"
  | .unsupportedBlockType => some "unsupported block type"
  | .unsupportedCompressionMethod => some "unsupported compression method"
  | .nlenMismatch => some "nlen check failed"
  | _ => none

/-! ## Operations -/

/-- What an operation gives: a value and the state after it; the state after a `raise` (R356: the operation and all its
callers are abandoned, everything done before stays done); or a stop of the model. -/
inductive Res (α : Type) where
  | ok (a : α) (s : State)
  | raised (s : State)
  | fault (f : Fault)
  | refused (r : Refusal)
deriving DecidableEq, Repr

/-- An operation of the pseudocode (00_scope.md R13): it reads and writes the state. -/
abbrev Op (α : Type) := State → Res α

/-- No effect, the value `a`. -/
def Op.pure {α : Type} (a : α) : Op α := fun s => .ok a s

/-- `x`, then `f` of its value; nothing after a raise or a stop. -/
def Op.bind {α β : Type} (x : Op α) (f : α → Op β) : Op β := fun s =>
  match x s with
  | .ok a t => f a t
  | .raised t => .raised t
  | .fault e => .fault e
  | .refused r => .refused r

/-- `x`, then `y`. -/
def Op.andThen {β : Type} (x : Op Unit) (y : Op β) : Op β := Op.bind x fun _ => y

/-- Register writes `g`. -/
def Op.modify (g : State → State) : Op Unit := fun s => .ok () (g s)

/-- The outcome of a whole element: after a raise the machine goes on to the state in which the error is recorded. -/
def Op.run (x : Op Unit) (s : State) : Host.Outcome State Fault Refusal :=
  match x s with
  | .ok _ t => .next t
  | .raised t => .next t
  | .fault e => .fault e
  | .refused r => .refused r

/-! ## Taking an exception -/

/-- The state change of `raise K` (60_exceptions.md R356): `ERR` takes the code if it is 0, `STATE <- ERROR`, nothing
else. There is no return from it (R366); only reset leaves ERROR. -/
def takeError (k : ErrKind) (s : State) : State :=
  { s with err := if s.err = 0 then errCode k else s.err, st := .error }

/-- `raise K`. -/
def raise {α : Type} (k : ErrKind) : Op α := fun s => .raised (takeError k s)

/-! ## The byte source and the bit reader -/

/-- `SrcNext()` with the raise that follows its two bad outcomes (20_memory.md R62, R63; 40_bitreader.md R130). An
`IoErr` mark is not taken from the source (log 7); reaching 2^64 bytes is refused (10_state.md R31). -/
def srcNext : Op Byte := fun s =>
  match s.src with
  | [] => raise .unexpectedEof s
  | .ioErr :: _ => raise .ioError s
  | .byte b :: rest =>
    if s.ipos + 1 < Config.countLimit then .ok b { s with src := rest, ipos := s.ipos + 1 }
    else .refused .inputTooLong

/-- `BB <- b ; BC <- 8`: a fetched byte in the bit buffer (R130). -/
def loadByte (b : Byte) (s : State) : State := { s with bb := b, bc := 8 }

/-- `BB <- BB >> 1 ; BC <- BC - 1` (R130). -/
def shiftBit (s : State) : State := { s with bb := s.bb >>> 1, bc := s.bc - 1 }

/-- `bit <- BB[0]`, then the shift (R130). -/
def takeBit : Op Bool := fun s => .ok (s.bb.getLsbD 0) (shiftBit s)

/-- `ReadBit()` (40_bitreader.md R130). -/
def readBit : Op Bool := fun s =>
  if s.bc = 0 then (srcNext.bind fun b => (Op.modify (loadByte b)).andThen takeBit) s
  else takeBit s

/-- The loop of `ReadBits` (R131): `k` bits still to read, the next one goes to bit `i` of `v`. -/
def readBitsFrom : Nat → Nat → Nat → Op Nat
  | 0, _, v => Op.pure v
  | k + 1, i, v => readBit.bind fun b => readBitsFrom k (i + 1) (v ||| (b.toNat <<< i))

/-- `ReadBits(n)` for `0 <= n <= 32` (R131, R132); above 32 it is refused (R133). -/
def readBits (n : Nat) : Op Nat := fun s =>
  if n ≤ Config.maxRead then readBitsFrom n 0 0 s else .refused .readTooWide

/-- `AlignToByte()` (R134). -/
def alignToByte (s : State) : State := { s with bb := 0, bc := 0 }

/-- `ReadByteAligned()` (R135); it requires `BC = 0`. -/
def readByteAligned : Op Byte := srcNext

/-- `ReturnReader()` (R136): no effect on state and no fault. -/
def returnReader : Op Unit := Op.pure ()

/-! ## The window -/

/-- `MemRead(WIN, a, 1)`; an index nothing has written has no value (10_state.md R34; log 3). -/
def Memory.read : List Host.Cell → Nat → Option Byte
  | [], _ => none
  | (k, b) :: m, a => if k = a then some b else Memory.read m a

/-- `MemWrite(WIN, a, 1, v)`, keeping the cells in rising order of their index. -/
def Memory.write : List Host.Cell → Nat → Byte → List Host.Cell
  | [], a, v => [(a, v)]
  | (k, b) :: m, a, v =>
    if a < k then (a, v) :: (k, b) :: m
    else if a = k then (a, v) :: m
    else (k, b) :: Memory.write m a v

/-- The canonical form of the window: indices strictly rising, all of them below 32768 (20_memory.md R60). Every listed
entry differs from what an unlisted index reads as, since that is no value. -/
def Memory.wf (m : List Host.Cell) : Bool :=
  decide (m.Pairwise fun x y => x.1 < y.1) && m.all fun c => decide (c.1 < Config.wsize)

/-! ## CRC-32 -/

/-- One shift of the reflected CRC register (41_tracking_writer.md R153). -/
def crcShift (c : BitVec 32) : BitVec 32 :=
  if c.getLsbD 0 then (c >>> 1) ^^^ Config.crcPoly else c >>> 1

/-- `k` shifts. -/
def crcShifts : Nat → BitVec 32 → BitVec 32
  | 0, c => c
  | k + 1, c => crcShifts k (crcShift c)

/-- `CrcStep(c, b)` (R153). -/
def crcStep (c : BitVec 32) (b : Byte) : BitVec 32 := crcShifts 8 (c ^^^ b.setWidth 32)

/-! ## The byte sink and the tracking writer -/

/-- The four effects of one output byte, one indivisible event (20_memory.md R74; 41_tracking_writer.md R151). -/
def putByte (b : Byte) (s : State) : State :=
  { s with
    snk := s.snk ++ [b]
    crc := crcStep s.crc b
    win := Memory.write s.win (s.count % Config.wsize) b
    count := s.count + 1 }

/-- `WriteByte(b)` (R151): a sink that refuses the byte raises `IoError` and nothing else happens (20_memory.md R64,
R74); reaching 2^64 bytes is refused (10_state.md R33). -/
def writeByte (b : Byte) : Op Unit := fun s =>
  if s.snkFailAt = some s.count then raise .ioError s
  else if s.count + 1 < Config.countLimit then .ok () (putByte b s)
  else .refused .outputTooLong

/-- `WriteBytes(buf)` (R152): `WriteByte` of each byte in order. -/
def writeBytes : List Byte → Op Unit
  | [] => Op.pure ()
  | b :: bs => (writeByte b).andThen (writeBytes bs)

/-- The loop of `WritePrevious` (R156): each iteration reads, with the current COUNT, and then writes
(70_reset_and_hazards.md R390). -/
def copyBack : Nat → Nat → Op Unit
  | 0, _ => Op.pure ()
  | k + 1, dist => fun s =>
    match Memory.read s.win ((s.count - dist) % Config.wsize) with
    | none => .fault .windowUnwritten
    | some b => ((writeByte b).andThen (copyBack k dist)) s

/-- `WritePrevious(len, dist)` (R156 to R159): the distance is checked against COUNT at entry, before any byte is
written; `dist = 0` is outside the contract and refused (R158); `len` is not checked (R159). -/
def writePrevious (len dist : Nat) : Op Unit := fun s =>
  if dist = 0 then .refused .zeroDistance
  else if min Config.wsize s.count < dist then raise .invalidDistance s
  else copyBack len dist s

/-! ## Runs of code-length entries -/

/-- The entries of `xs` over the first entries of a list; the entries above keep their value. -/
def overwrite {α : Type} : List α → List α → List α
  | x :: xs, _ :: as => x :: overwrite xs as
  | _, as => as

theorem overwrite_length {α : Type} (xs as : List α) : (overwrite xs as).length = as.length := by
  induction xs generalizing as with
  | nil => cases as <;> rfl
  | cons x xs ih => cases as with
    | nil => rfl
    | cons a as => simp [overwrite, ih]

/-- `A[i] <- xs[i]` for every index `i` of `xs`; the entries above keep their value. -/
def writeRun {w n : Nat} (A : Vector (BitVec w) n) (xs : List (BitVec w)) : Vector (BitVec w) n :=
  ⟨(overwrite xs A.toList).toArray, by simp [overwrite_length]⟩

/-- `SCR[IDX] <- v ; IDX <- IDX + 1` (43_blocks.md R206). -/
def pushLen (v : BitVec 4) (s : State) : State :=
  { s with scr := s.scr.setIfInBounds s.idx.toNat v, idx := s.idx + 1 }

/-- `r` times `pushLen` (43_blocks.md `Repeat`). -/
def pushLens (v : BitVec 4) : Nat → State → State
  | 0, s => s
  | r + 1, s => pushLens v r (pushLen v s)

/-- Write the header registers (43_blocks.md R191). -/
def setHeader (f : BitVec 1) (t : BitVec 2) (s : State) : State := { s with bfinal := f, btype := t }

/-- `STATE <- b` (00_scope.md R13). -/
def setState (b : BlkState) (s : State) : State := { s with st := b }

end Sys2Proof.Machine
end

