-- ==== Sys2Proof/Machine/Operands.lean ====
section
/-! DEFINITION. Operand assembly (30_encoding.md R102): every way an element's operand becomes a number. Numeric fields
are read by `readBits`; the table bases are those of Decode.lean. -/

namespace Sys2Proof.Machine

/-- R102 (b): `HLIT = field + 257`. -/
def hlitOf (field : Nat) : BitVec 9 := BitVec.ofNat 9 (field + 257)

/-- R102 (b): `HDIST = field + 1`. -/
def hdistOf (field : Nat) : BitVec 6 := BitVec.ofNat 6 (field + 1)

/-- R102 (b): `HCLEN = field + 4`. -/
def hclenOf (field : Nat) : BitVec 5 := BitVec.ofNat 5 (field + 4)

/-- R102 (b): the repeat count of tree-code symbol `n` with extra field `x`. -/
def repeatCount (n x : Nat) : Nat := repeatBase n + x

/-- R102 (c): `MLEN = LBASE[S] + extra`. -/
def matchLength (S x : Nat) : BitVec 9 := BitVec.ofNat 9 (lBase S + x)

/-- R102 (c): `MDIST = DBASE[D] + extra`. -/
def matchDistance (D y : Nat) : BitVec 16 := BitVec.ofNat 16 (dBase D + y)

/-- R102 (e), 20_memory.md R69: two bytes joined little-endian. -/
def joinBytes (lo hi : Byte) : BitVec 16 := lo.setWidth 16 ||| (hi.setWidth 16 <<< 8)

/-- The code lengths `T_CL` is built from: `CL_LENS[0..18]` (10_state.md R35). -/
def clInForce (s : State) : List Nat := s.clLens.toList.map BitVec.toNat

/-- The code lengths `T_LL` is built from: the first `LL_N` entries of `LL_LENS` (R35, R37; entries at `LL_N` and above
are absent, 70_reset_and_hazards.md R393). -/
def llInForce (s : State) : List Nat := (s.llLens.toList.take s.llN.toNat).map BitVec.toNat

/-- The code lengths `T_D` is built from: the first `D_N` entries of `D_LENS` (R35, R38). -/
def dInForce (s : State) : List Nat := (s.dLens.toList.take s.dN.toNat).map BitVec.toNat

/-- How many code lengths the current dynamic block has: `HLIT + HDIST` (43_blocks.md R205). -/
def lensWanted (s : State) : Nat := s.hlit.toNat + s.hdist.toNat

/-- `SCR[IDX-1]`, the previous length (43_blocks.md R205); 0 when there is none. -/
def prevLen (s : State) : BitVec 4 := s.scr.toList.getD (s.idx.toNat - 1) 0

end Sys2Proof.Machine
end

