-- ==== Sys2Proof/Machine/Flags.lean ====
section
/-! DEFINITION. Single-bit state and derived predicates (10_state.md R48), the numeric codes of STATE (R40), the input
cursor (R30) and the accessors the host reads (41_tracking_writer.md R155). CORE has no arithmetic condition codes. -/

namespace Sys2Proof.Machine

/-- The numeric code of a state of the block state machine (R40). -/
def stateCode : BlkState → BitVec 4
  | .start => 0
  | .readBlockHeader => 1
  | .stored => 2
  | .fixed => 3
  | .dynamic => 4
  | .decodeSymbols => 5
  | .blockEnd => 6
  | .done => 7
  | .error => 8

/-- `BFINAL = 1`, tested at BLOCK_END (R41). -/
def isFinal (s : State) : Bool := s.bfinal == 1

/-- `ERR != 0` (R42). -/
def hasError (s : State) : Bool := s.err != 0

/-- `DONE = 1` (R43). -/
def isDone (s : State) : Bool := s.done == 1

/-- `IDX > 0`: a previous length exists (R48). -/
def hasPrevLen (s : State) : Bool := s.idx != 0

/-- `IDX < HLIT + HDIST`: the code-length sequence goes on (43_blocks.md R205). -/
def wantsLens (s : State) : Bool := decide (s.idx.toNat < lensWanted s)

/-- `BC = 0`: the cursor is at a byte boundary (R22). -/
def atBoundary (s : State) : Bool := s.bc == 0

/-- `CUR = 8 * IPOS - BC`, the bits consumed or discarded since reset (R30). -/
def cursor (s : State) : Nat := 8 * s.ipos - s.bc.toNat

/-- `crc32()` (R155). -/
def crc32 (s : State) : BitVec 32 := s.crc ^^^ Config.crcXorOut

/-- `byte_count()` (R155). -/
def byteCount (s : State) : Nat := s.count

end Sys2Proof.Machine
end

