-- ==== Sys2Proof/Machine/Huffman.lean ====
section
/-! DEFINITION. `HuffDecode` on the machine (42_huffman.md R175 to R177): one bit at a time through `ReadBit`, the code
assembled most significant bit first in ACC. -/

namespace Sys2Proof.Machine

/-- `ACC <- (ACC << 1) | bit ; ACCN <- ACCN + 1` (R175). -/
def shiftIn (b : Bool) (s : State) : State :=
  { s with acc := (s.acc <<< 1) ||| (BitVec.ofBool b).setWidth 15, accn := s.accn + 1 }

/-- `ACC <- 0 ; ACCN <- 0`. -/
def clearAcc (s : State) : State := { s with acc := 0, accn := 0 }

/-- The loop of `HuffDecode`: `k` more bits may be read. After the fifteenth bit without a match it raises
`InvalidHuffmanCode` (R176); a fault of `ReadBit` propagates (R177). -/
def huffLoop (T : List CodeEntry) : Nat → Op Nat
  | 0 => raise .invalidHuffmanCode
  | k + 1 => readBit.bind fun b => (Op.modify (shiftIn b)).andThen fun s =>
    match lookupCode T s.accn.toNat s.acc.toNat with
    | some sym => .ok sym s
    | none => huffLoop T k s

/-- `T <- HuffBuild(lens)` used for its fault only: the table itself is the function `huffBuild` of the length array
(10_state.md R35). -/
def buildTable (lens : List Nat) : Op Unit := fun s =>
  match huffBuild lens with
  | none => raise .invalidHuffmanTree s
  | some _ => .ok () s

/-- `HuffDecode(HuffBuild(lens))` (R175). In a block's body the table has been built before and the construction cannot
fail (43_blocks.md R211); where it does fail, in a state no run reaches, the construction raises (log 13). -/
def huffDecode (lens : List Nat) : Op Nat := fun s =>
  match huffBuild lens with
  | none => raise .invalidHuffmanTree s
  | some T => huffLoop T Config.maxBits (clearAcc s)

end Sys2Proof.Machine
end

