-- ==== Sys2Proof/Machine/Blocks.lean ====
section
/-! DEFINITION. The block headers BLK.STORED, BLK.FIXED, BLK.DYNAMIC, BLK.RSVD, the end of a block, and the operations
they are made of (43_blocks.md R190 to R212). -/

namespace Sys2Proof.Machine

/-! ## Stored blocks (R195 to R197) -/

/-- `while REM > 0`: one byte read, then written, before the next is read (R196); `k` bytes to go. -/
def copyStored : Nat → Op Unit
  | 0 => Op.pure ()
  | k + 1 => readByteAligned.bind fun b =>
    (writeByte b).andThen <|
    (Op.modify fun s => { s with rem := s.rem - 1 }).andThen (copyStored k)

/-- The rest of a stored block from `REM` on, to `STATE <- BLOCK_END` (R195). -/
def storedRest : Op Unit := fun s =>
  ((copyStored s.rem.toNat).andThen <| returnReader.andThen <| Op.modify (setState .blockEnd)) s

/-- `if SLEN != ((~SNLEN) & 0xFFFF): raise NlenMismatch` (R195, R197). -/
def checkNlen : Op Unit := fun s => if s.slen = ~~~s.snlen then .ok () s else raise .nlenMismatch s

/-- LEN and NLEN, little-endian, checked (R92, R195). -/
def storedLengths : Op Unit :=
  readByteAligned.bind fun b0 => readByteAligned.bind fun b1 =>
  (Op.modify fun s => { s with slen := joinBytes b0 b1 }).andThen <|
  readByteAligned.bind fun b2 => readByteAligned.bind fun b3 =>
  (Op.modify fun s => { s with snlen := joinBytes b2 b3 }).andThen checkNlen

/-- `Stored()` (R195). -/
def storedBlock : Op Unit :=
  (Op.modify (setState .stored)).andThen <|
  (Op.modify alignToByte).andThen <|
  storedLengths.andThen <|
  (Op.modify fun s => { s with rem := s.slen }).andThen storedRest

/-! ## Fixed blocks (R201) -/

/-- Install the fixed code lengths and go to DECODE_SYMBOLS (R201). Entries of `D_LENS` above 29 are not written. -/
def installFixed (s : State) : State :=
  { s with
    llN := 288
    llLens := writeRun s.llLens (fixedLLLens.map (BitVec.ofNat 4))
    dN := 30
    dLens := writeRun s.dLens (fixedDLens.map (BitVec.ofNat 4))
    st := .decodeSymbols
    awaitDist := false }

/-! ## Dynamic blocks (R203, R204, R211) -/

/-- `CL_LENS[s] <- ReadBits(3)` for each `s` of the list, in order (R204). -/
def readClLens : List Nat → Op Unit
  | [] => Op.pure ()
  | n :: rest => (readBits 3).bind fun v =>
    (Op.modify fun s => { s with clLens := s.clLens.setIfInBounds n (BitVec.ofNat 3 v) }).andThen (readClLens rest)

/-- HLIT, HDIST, HCLEN, each written as soon as it is read (R203). -/
def readCounts : Op Unit :=
  (readBits 5).bind fun v => (Op.modify fun s => { s with hlit := hlitOf v }).andThen <|
  (readBits 5).bind fun v => (Op.modify fun s => { s with hdist := hdistOf v }).andThen <|
  (readBits 4).bind fun v => Op.modify fun s => { s with hclen := hclenOf v }

/-- The tree-code lengths and `T_CL` (R204): all 19 cleared, `HCLEN` of them read in the order `CL_ORDER`, then the
table is built. -/
def readTreeCode : Op Unit :=
  (Op.modify fun s => { s with clLens := Vector.replicate 19 0 }).andThen fun s =>
  ((readClLens (clOrder.take s.hclen.toNat)).andThen fun t => buildTable (clInForce t) t) s

/-- `Dynamic()` up to `IDX <- 0` (R203). The code-length sequence that follows is a sequence of elements of their own,
executed in STATE DYNAMIC (R206 to R209), and its end is `splitAndBuild` (log 2). -/
def dynamicHeader : Op Unit :=
  (Op.modify (setState .dynamic)).andThen <|
  readCounts.andThen <|
  readTreeCode.andThen <|
  Op.modify fun s => { s with idx := 0 }

/-- `LL_N <- HLIT`, `LL_LENS[s] <- SCR[s]`, `D_N <- HDIST`, `D_LENS[d] <- SCR[HLIT + d]` (R211). -/
def splitLens (s : State) : State :=
  { s with
    llN := s.hlit
    llLens := writeRun s.llLens (s.scr.toList.take s.hlit.toNat)
    dN := s.hdist
    dLens := writeRun s.dLens ((s.scr.toList.drop s.hlit.toNat).take s.hdist.toNat) }

/-- The end of a dynamic header: split, build `T_LL` then `T_D`, go to DECODE_SYMBOLS (R211). -/
def splitAndBuild : Op Unit :=
  (Op.modify splitLens).andThen fun s =>
  ((buildTable (llInForce s)).andThen <| (buildTable (dInForce s)).andThen <|
    Op.modify fun t => { t with st := .decodeSymbols, awaitDist := false }) s

/-! ## The end of a block (R193) -/

/-- BLOCK_END: the next header, or the discard of the partial byte and DONE (R193). -/
def endBlock (s : State) : State :=
  if isFinal s then { alignToByte s with done := 1, st := .done } else setState .readBlockHeader s

/-! ## The four headers. Each writes BFINAL and BTYPE, as the header read has (R191; log 17), then has its effect. -/

/-- BLK.STORED (R195). -/
def execBlkStored (f : BitVec 1) : State → Host.Outcome State Fault Refusal :=
  Op.run ((Op.modify (setHeader f 0)).andThen storedBlock)

/-- BLK.FIXED (R201): STATE FIXED, the tables, DECODE_SYMBOLS. -/
def execBlkFixed (f : BitVec 1) : State → Host.Outcome State Fault Refusal :=
  Op.run ((Op.modify (setHeader f 1)).andThen <|
    (Op.modify (setState .fixed)).andThen (Op.modify installFixed))

/-- BLK.DYNAMIC (R203). -/
def execBlkDynamic (f : BitVec 1) : State → Host.Outcome State Fault Refusal :=
  Op.run ((Op.modify (setHeader f 2)).andThen dynamicHeader)

/-- BLK.RSVD (R199): `raise UnsupportedBlockType`, whatever BFINAL is. -/
def execBlkRsvd (f : BitVec 1) : State → Host.Outcome State Fault Refusal :=
  Op.run ((Op.modify (setHeader f 3)).andThen (raise .unsupportedBlockType))

end Sys2Proof.Machine
end

