-- ==== Sys2Proof/Machine/TreeCode.lean ====
section
/-! DEFINITION. The tree-code elements CLEN, CREP16, CZERO17, CZERO18 (43_blocks.md R206 to R210). -/

namespace Sys2Proof.Machine

/-- `Repeat(v, r)` (43_blocks.md R203, R210): a run that would pass `HLIT + HDIST` raises `InvalidHuffmanTree` and
writes nothing. -/
def repeatLen (v : BitVec 4) (r : Nat) : Op Unit := fun s =>
  if lensWanted s < s.idx.toNat + r then raise .invalidHuffmanTree s
  else .ok () (pushLens v r s)

/-- Symbol 16 needs a previous length (R207). -/
def needPrevLen : Op Unit := fun s => if hasPrevLen s then .ok () s else raise .invalidHuffmanTree s

/-- CLEN (R206). -/
def execClen (n : BitVec 4) : State → Host.Outcome State Fault Refusal := Op.run (Op.modify (pushLen n))

/-- CREP16 (R207): `3 + x` copies of the previous length. The test of `IDX` stands before the extra field is read, so
the fetch has made it already (Fetch.lean); made again here, it makes the meaning whole on any state. -/
def execCrep16 (x : BitVec 2) : State → Host.Outcome State Fault Refusal :=
  Op.run (needPrevLen.andThen fun s => repeatLen (prevLen s) (repeatCount 16 x.toNat) s)

/-- CZERO17 (R208): `3 + x` zeros. -/
def execCzero17 (x : BitVec 3) : State → Host.Outcome State Fault Refusal :=
  Op.run (repeatLen 0 (repeatCount 17 x.toNat))

/-- CZERO18 (R209): `11 + x` zeros. -/
def execCzero18 (x : BitVec 7) : State → Host.Outcome State Fault Refusal :=
  Op.run (repeatLen 0 (repeatCount 18 x.toNat))

end Sys2Proof.Machine
end

