-- ==== Sys2Proof/Machine/Symbols.lean ====
section
/-! DEFINITION. Literals, end of block and the reserved literal/length symbols (44_symbols.md R231, R232, R262, R263). -/

namespace Sys2Proof.Machine

/-- LIT (R231): `WriteByte(S)`. -/
def execLit (b : BitVec 8) : State → Host.Outcome State Fault Refusal := Op.run (writeByte b)

/-- EOB (R232): `STATE <- BLOCK_END`; no output. -/
def execEob : State → Host.Outcome State Fault Refusal := Op.run (Op.modify (setState .blockEnd))

/-- LL286 (R262, reserved): `raise InvalidHuffmanCode`. -/
def execLl286 : State → Host.Outcome State Fault Refusal := Op.run (raise .invalidHuffmanCode)

/-- LL287 (R263, reserved): `raise InvalidHuffmanCode`. -/
def execLl287 : State → Host.Outcome State Fault Refusal := Op.run (raise .invalidHuffmanCode)

end Sys2Proof.Machine
end

