-- ==== Sys2Proof/Machine/Lengths.lean ====
section
/-! DEFINITION. The length elements LEN257 to LEN285 (44_symbols.md R233 to R261), each the scheme of R296 steps (1) and
(2) with its own row of the length table. The distance element that follows is an element of its own (log 1). -/

namespace Sys2Proof.Machine

/-- `MLEN <- LBASE[S] + extra`; the next code is a distance code (R230, R296). -/
def lengthElement (S x : Nat) : Op Unit :=
  Op.modify fun s => { s with mlen := matchLength S x, awaitDist := true }

/-- LEN257 (R233): `MLEN <- 3`. -/
def execLen257 : State → Host.Outcome State Fault Refusal := Op.run (lengthElement 257 0)

/-- LEN258 (R234): `MLEN <- 4`. -/
def execLen258 : State → Host.Outcome State Fault Refusal := Op.run (lengthElement 258 0)

/-- LEN259 (R235): `MLEN <- 5`. -/
def execLen259 : State → Host.Outcome State Fault Refusal := Op.run (lengthElement 259 0)

/-- LEN260 (R236): `MLEN <- 6`. -/
def execLen260 : State → Host.Outcome State Fault Refusal := Op.run (lengthElement 260 0)

/-- LEN261 (R237): `MLEN <- 7`. -/
def execLen261 : State → Host.Outcome State Fault Refusal := Op.run (lengthElement 261 0)

/-- LEN262 (R238): `MLEN <- 8`. -/
def execLen262 : State → Host.Outcome State Fault Refusal := Op.run (lengthElement 262 0)

/-- LEN263 (R239): `MLEN <- 9`. -/
def execLen263 : State → Host.Outcome State Fault Refusal := Op.run (lengthElement 263 0)

/-- LEN264 (R240): `MLEN <- 10`. -/
def execLen264 : State → Host.Outcome State Fault Refusal := Op.run (lengthElement 264 0)

/-- LEN265 (R241): `MLEN <- 11 + x`. -/
def execLen265 (x : BitVec 1) : State → Host.Outcome State Fault Refusal := Op.run (lengthElement 265 x.toNat)

/-- LEN266 (R242): `MLEN <- 13 + x`. -/
def execLen266 (x : BitVec 1) : State → Host.Outcome State Fault Refusal := Op.run (lengthElement 266 x.toNat)

/-- LEN267 (R243): `MLEN <- 15 + x`. -/
def execLen267 (x : BitVec 1) : State → Host.Outcome State Fault Refusal := Op.run (lengthElement 267 x.toNat)

/-- LEN268 (R244): `MLEN <- 17 + x`. -/
def execLen268 (x : BitVec 1) : State → Host.Outcome State Fault Refusal := Op.run (lengthElement 268 x.toNat)

/-- LEN269 (R245): `MLEN <- 19 + x`. -/
def execLen269 (x : BitVec 2) : State → Host.Outcome State Fault Refusal := Op.run (lengthElement 269 x.toNat)

/-- LEN270 (R246): `MLEN <- 23 + x`. -/
def execLen270 (x : BitVec 2) : State → Host.Outcome State Fault Refusal := Op.run (lengthElement 270 x.toNat)

/-- LEN271 (R247): `MLEN <- 27 + x`. -/
def execLen271 (x : BitVec 2) : State → Host.Outcome State Fault Refusal := Op.run (lengthElement 271 x.toNat)

/-- LEN272 (R248): `MLEN <- 31 + x`. -/
def execLen272 (x : BitVec 2) : State → Host.Outcome State Fault Refusal := Op.run (lengthElement 272 x.toNat)

/-- LEN273 (R249): `MLEN <- 35 + x`. -/
def execLen273 (x : BitVec 3) : State → Host.Outcome State Fault Refusal := Op.run (lengthElement 273 x.toNat)

/-- LEN274 (R250): `MLEN <- 43 + x`. -/
def execLen274 (x : BitVec 3) : State → Host.Outcome State Fault Refusal := Op.run (lengthElement 274 x.toNat)

/-- LEN275 (R251): `MLEN <- 51 + x`. -/
def execLen275 (x : BitVec 3) : State → Host.Outcome State Fault Refusal := Op.run (lengthElement 275 x.toNat)

/-- LEN276 (R252): `MLEN <- 59 + x`. -/
def execLen276 (x : BitVec 3) : State → Host.Outcome State Fault Refusal := Op.run (lengthElement 276 x.toNat)

/-- LEN277 (R253): `MLEN <- 67 + x`. -/
def execLen277 (x : BitVec 4) : State → Host.Outcome State Fault Refusal := Op.run (lengthElement 277 x.toNat)

/-- LEN278 (R254): `MLEN <- 83 + x`. -/
def execLen278 (x : BitVec 4) : State → Host.Outcome State Fault Refusal := Op.run (lengthElement 278 x.toNat)

/-- LEN279 (R255): `MLEN <- 99 + x`. -/
def execLen279 (x : BitVec 4) : State → Host.Outcome State Fault Refusal := Op.run (lengthElement 279 x.toNat)

/-- LEN280 (R256): `MLEN <- 115 + x`. -/
def execLen280 (x : BitVec 4) : State → Host.Outcome State Fault Refusal := Op.run (lengthElement 280 x.toNat)

/-- LEN281 (R257): `MLEN <- 131 + x`. -/
def execLen281 (x : BitVec 5) : State → Host.Outcome State Fault Refusal := Op.run (lengthElement 281 x.toNat)

/-- LEN282 (R258): `MLEN <- 163 + x`. -/
def execLen282 (x : BitVec 5) : State → Host.Outcome State Fault Refusal := Op.run (lengthElement 282 x.toNat)

/-- LEN283 (R259): `MLEN <- 195 + x`. -/
def execLen283 (x : BitVec 5) : State → Host.Outcome State Fault Refusal := Op.run (lengthElement 283 x.toNat)

/-- LEN284 (R260): `MLEN <- 227 + x`. -/
def execLen284 (x : BitVec 5) : State → Host.Outcome State Fault Refusal := Op.run (lengthElement 284 x.toNat)

/-- LEN285 (R261): `MLEN <- 258`. -/
def execLen285 : State → Host.Outcome State Fault Refusal := Op.run (lengthElement 285 0)

end Sys2Proof.Machine
end

