-- ==== Sys2Proof/Machine/Distances.lean ====
section
/-! DEFINITION. The distance elements DIST0 to DIST29 (44_symbols.md R264 to R293), each the scheme of R296 steps (5) to
(7) with its own row of the distance table, and the reserved DIST30, DIST31 (R294, R295). -/

namespace Sys2Proof.Machine

/-- `WritePrevious(MLEN, MDIST)` (R296 (6), (7)). -/
def copyMatch : Op Unit := fun s => writePrevious s.mlen.toNat s.mdist.toNat s

/-- `MDIST <- DBASE[D] + extra`, `WritePrevious(MLEN, MDIST)`; the next code is a literal/length code again (R296). -/
def distElement (D y : Nat) : Op Unit :=
  (Op.modify fun s => { s with mdist := matchDistance D y }).andThen <|
  copyMatch.andThen <|
  Op.modify fun s => { s with awaitDist := false }

/-- DIST0 (R264): `MDIST <- 1`, then the copy. -/
def execDist0 : State → Host.Outcome State Fault Refusal := Op.run (distElement 0 0)

/-- DIST1 (R265): `MDIST <- 2`, then the copy. -/
def execDist1 : State → Host.Outcome State Fault Refusal := Op.run (distElement 1 0)

/-- DIST2 (R266): `MDIST <- 3`, then the copy. -/
def execDist2 : State → Host.Outcome State Fault Refusal := Op.run (distElement 2 0)

/-- DIST3 (R267): `MDIST <- 4`, then the copy. -/
def execDist3 : State → Host.Outcome State Fault Refusal := Op.run (distElement 3 0)

/-- DIST4 (R268): `MDIST <- 5 + y`, then the copy. -/
def execDist4 (y : BitVec 1) : State → Host.Outcome State Fault Refusal := Op.run (distElement 4 y.toNat)

/-- DIST5 (R269): `MDIST <- 7 + y`, then the copy. -/
def execDist5 (y : BitVec 1) : State → Host.Outcome State Fault Refusal := Op.run (distElement 5 y.toNat)

/-- DIST6 (R270): `MDIST <- 9 + y`, then the copy. -/
def execDist6 (y : BitVec 2) : State → Host.Outcome State Fault Refusal := Op.run (distElement 6 y.toNat)

/-- DIST7 (R271): `MDIST <- 13 + y`, then the copy. -/
def execDist7 (y : BitVec 2) : State → Host.Outcome State Fault Refusal := Op.run (distElement 7 y.toNat)

/-- DIST8 (R272): `MDIST <- 17 + y`, then the copy. -/
def execDist8 (y : BitVec 3) : State → Host.Outcome State Fault Refusal := Op.run (distElement 8 y.toNat)

/-- DIST9 (R273): `MDIST <- 25 + y`, then the copy. -/
def execDist9 (y : BitVec 3) : State → Host.Outcome State Fault Refusal := Op.run (distElement 9 y.toNat)

/-- DIST10 (R274): `MDIST <- 33 + y`, then the copy. -/
def execDist10 (y : BitVec 4) : State → Host.Outcome State Fault Refusal := Op.run (distElement 10 y.toNat)

/-- DIST11 (R275): `MDIST <- 49 + y`, then the copy. -/
def execDist11 (y : BitVec 4) : State → Host.Outcome State Fault Refusal := Op.run (distElement 11 y.toNat)

/-- DIST12 (R276): `MDIST <- 65 + y`, then the copy. -/
def execDist12 (y : BitVec 5) : State → Host.Outcome State Fault Refusal := Op.run (distElement 12 y.toNat)

/-- DIST13 (R277): `MDIST <- 97 + y`, then the copy. -/
def execDist13 (y : BitVec 5) : State → Host.Outcome State Fault Refusal := Op.run (distElement 13 y.toNat)

/-- DIST14 (R278): `MDIST <- 129 + y`, then the copy. -/
def execDist14 (y : BitVec 6) : State → Host.Outcome State Fault Refusal := Op.run (distElement 14 y.toNat)

/-- DIST15 (R279): `MDIST <- 193 + y`, then the copy. -/
def execDist15 (y : BitVec 6) : State → Host.Outcome State Fault Refusal := Op.run (distElement 15 y.toNat)

/-- DIST16 (R280): `MDIST <- 257 + y`, then the copy. -/
def execDist16 (y : BitVec 7) : State → Host.Outcome State Fault Refusal := Op.run (distElement 16 y.toNat)

/-- DIST17 (R281): `MDIST <- 385 + y`, then the copy. -/
def execDist17 (y : BitVec 7) : State → Host.Outcome State Fault Refusal := Op.run (distElement 17 y.toNat)

/-- DIST18 (R282): `MDIST <- 513 + y`, then the copy. -/
def execDist18 (y : BitVec 8) : State → Host.Outcome State Fault Refusal := Op.run (distElement 18 y.toNat)

/-- DIST19 (R283): `MDIST <- 769 + y`, then the copy. -/
def execDist19 (y : BitVec 8) : State → Host.Outcome State Fault Refusal := Op.run (distElement 19 y.toNat)

/-- DIST20 (R284): `MDIST <- 1025 + y`, then the copy. -/
def execDist20 (y : BitVec 9) : State → Host.Outcome State Fault Refusal := Op.run (distElement 20 y.toNat)

/-- DIST21 (R285): `MDIST <- 1537 + y`, then the copy. -/
def execDist21 (y : BitVec 9) : State → Host.Outcome State Fault Refusal := Op.run (distElement 21 y.toNat)

/-- DIST22 (R286): `MDIST <- 2049 + y`, then the copy. -/
def execDist22 (y : BitVec 10) : State → Host.Outcome State Fault Refusal := Op.run (distElement 22 y.toNat)

/-- DIST23 (R287): `MDIST <- 3073 + y`, then the copy. -/
def execDist23 (y : BitVec 10) : State → Host.Outcome State Fault Refusal := Op.run (distElement 23 y.toNat)

/-- DIST24 (R288): `MDIST <- 4097 + y`, then the copy. -/
def execDist24 (y : BitVec 11) : State → Host.Outcome State Fault Refusal := Op.run (distElement 24 y.toNat)

/-- DIST25 (R289): `MDIST <- 6145 + y`, then the copy. -/
def execDist25 (y : BitVec 11) : State → Host.Outcome State Fault Refusal := Op.run (distElement 25 y.toNat)

/-- DIST26 (R290): `MDIST <- 8193 + y`, then the copy. -/
def execDist26 (y : BitVec 12) : State → Host.Outcome State Fault Refusal := Op.run (distElement 26 y.toNat)

/-- DIST27 (R291): `MDIST <- 12289 + y`, then the copy. -/
def execDist27 (y : BitVec 12) : State → Host.Outcome State Fault Refusal := Op.run (distElement 27 y.toNat)

/-- DIST28 (R292): `MDIST <- 16385 + y`, then the copy. -/
def execDist28 (y : BitVec 13) : State → Host.Outcome State Fault Refusal := Op.run (distElement 28 y.toNat)

/-- DIST29 (R293): `MDIST <- 24577 + y`, then the copy. -/
def execDist29 (y : BitVec 13) : State → Host.Outcome State Fault Refusal := Op.run (distElement 29 y.toNat)

/-- DIST30 (R294, reserved): `raise InvalidHuffmanCode`; nothing is copied. -/
def execDist30 : State → Host.Outcome State Fault Refusal := Op.run (raise .invalidHuffmanCode)

/-- DIST31 (R295, reserved): `raise InvalidHuffmanCode`; nothing is copied. -/
def execDist31 : State → Host.Outcome State Fault Refusal := Op.run (raise .invalidHuffmanCode)

end Sys2Proof.Machine
end

