-- ==== Sys2Proof/Machine/Gzip.lean ====
section
/-! DEFINITION. The gzip host: `Decompress()` of 45_host_gzip.md (R320 to R337) as an agent that moves one byte at a time
(log 9). It uses the source before CORE starts and after CORE is done, never meanwhile (R320), and never the sink. -/

namespace Sys2Proof.Machine

/-- Replace the host's registers. -/
def setGz (g : GzHost) (s : State) : State := { s with gz := g }

/-- `fail K` of `Decompress()`: the run ends with its first error (R327, R336). -/
def gzFail (k : ErrKind) (s : State) : State := setGz { s.gz with phase := .failed, err := some k } s

/-- Reset of CORE while the environment and the host stay as they are (70_reset_and_hazards.md R380, R382): bytes given
to the sink are not recalled. -/
def resetCore (s : State) : State :=
  { State.reset with src := s.src, snk := s.snk, snkFailAt := s.snkFailAt, gz := s.gz }

/-- The next phase of the header, its field empty; after the last one CORE is reset and started (R326, R333; log 11). -/
def gzEnter (p : GzPhase) (s : State) : State :=
  let t := setGz { s.gz with phase := p, buf := [], left := 0 } s
  if p = .core then resetCore t else t

/-- What follows FCOMMENT: FHCRC when FLG bit 1 is set, else the DEFLATE stream (R330, R331). -/
def afterComment (flg : BitVec 8) : GzPhase := if flg.getLsbD 1 then .hcrc else .core

/-- What follows FNAME: FCOMMENT when FLG bit 4 is set (R330). -/
def afterName (flg : BitVec 8) : GzPhase := if flg.getLsbD 4 then .comment else afterComment flg

/-- What follows FEXTRA: FNAME when FLG bit 3 is set (R330). -/
def afterExtra (flg : BitVec 8) : GzPhase := if flg.getLsbD 3 then .name else afterName flg

/-- What follows the fixed prefix: FEXTRA when FLG bit 2 is set (R330). -/
def afterFixed (flg : BitVec 8) : GzPhase := if flg.getLsbD 2 then .xlen else afterExtra flg

/-- A list of bytes as a little-endian number (R330, R331, R334). -/
def leNumber : List Byte → Nat
  | [] => 0
  | b :: bs => b.toNat + 256 * leNumber bs

/-- One byte of the field being read goes into the host's buffer. -/
def gzKeep (b : Byte) (s : State) : State := setGz { s.gz with buf := s.gz.buf ++ [b] } s

/-- One byte is skipped; after the last one the phase `p` follows. -/
def gzSkip (p : GzPhase) (s : State) : State :=
  if s.gz.left ≤ 1 then gzEnter p s else setGz { s.gz with left := s.gz.left - 1 } s

/-- The trailer check, once all eight bytes are read: length, then CRC (R335). -/
def gzTrailer (t : List Byte) (s : State) : State :=
  if leNumber (t.drop 4) ≠ byteCount s % 2 ^ 32 then gzFail .lengthMismatch s
  else if leNumber (t.take 4) ≠ (crc32 s).toNat then gzFail .crc32Mismatch s
  else setGz { s.gz with phase := .success } s

/-- HCRC takes in a header byte (R331). -/
def gzHash (b : Byte) (s : State) : State := setGz { s.gz with hcrc := crcStep s.gz.hcrc b } s

/-- What the host does with a byte of a header field (R328 to R332). -/
def gzHeaderByte (b : Byte) (s : State) : State :=
  match s.gz.phase with
  | .ids =>
    match s.gz.buf with
    | [] => gzKeep b s
    | b1 :: _ => if b1 = 0x1F ∧ b = 0x8B then gzEnter .cm s else gzFail .wrongIdValues s
  | .cm => if b = 8 then gzEnter .flg s else gzFail .unsupportedCompressionMethod s
  | .flg => setGz { s.gz with phase := .fixedRest, flg := b, left := 6 } s
  | .fixedRest => gzSkip (afterFixed s.gz.flg) s
  | .xlen =>
    match s.gz.buf with
    | [] => gzKeep b s
    | b0 :: _ =>
      if leNumber [b0, b] = 0 then gzEnter (afterExtra s.gz.flg) s
      else setGz { s.gz with phase := .extra, buf := [], left := leNumber [b0, b] } s
  | .extra => gzSkip (afterExtra s.gz.flg) s
  | .name => if b = 0 then gzEnter (afterName s.gz.flg) s else s
  | .comment => if b = 0 then gzEnter (afterComment s.gz.flg) s else s
  | _ => s

/-- What the host does with a byte of the FHCRC field (R331): `want` is the low half of the CRC-32 of every header byte
before the field. -/
def gzHcrcByte (b : Byte) (s : State) : State :=
  match s.gz.buf with
  | [] => gzKeep b s
  | c0 :: _ =>
    if leNumber [c0, b] = (s.gz.hcrc ^^^ Config.crcXorOut).toNat % 2 ^ 16 then gzEnter .core s
    else gzFail .headerCrc16Mismatch s

/-- What the host does with a byte of the trailer (R334). -/
def gzTrailerByte (b : Byte) (s : State) : State :=
  if s.gz.buf.length < 7 then gzKeep b s else gzTrailer (s.gz.buf ++ [b]) s

/-- What the host does with the byte `HostByte()` gave. -/
def gzByte (b : Byte) (s : State) : State :=
  match s.gz.phase with
  | .hcrc => gzHcrcByte b s
  | .trailer => gzTrailerByte b s
  | _ => gzHeaderByte b (gzHash b s)

/-- One move of the host: `HostByte()` and what follows (R332, R334: end of input anywhere is `UnexpectedEof`). The
host's bytes do not count in IPOS, which is CORE's (log 10). -/
def gzMove (s : State) : State :=
  match s.src with
  | [] => gzFail .unexpectedEof s
  | .ioErr :: _ => gzFail .ioError s
  | .byte b :: rest => gzByte b { s with src := rest }

/-- CORE has ended: its error is the run's error, else the trailer follows (R334, R336). -/
def gzCoreEnded (s : State) : State :=
  if hasError s then setGz { s.gz with phase := .failed, err := errKind s.err } s else gzEnter .trailer s

/-- The machine as `decompress()` starts it, with a whole gzip file in the source (R320). -/
def gzStart (src : List SrcItem) : State :=
  { State.reset with src := src, gz := { GzHost.bare with phase := .ids } }

end Sys2Proof.Machine
end

