-- ==== Sys2Proof/Machine/Fetch.lean ====
section
/-! DEFINITION. The next element of the stream, and the moves of the state machine between elements (43_blocks.md R190 to
R194, R212; 44_symbols.md R230). The state says which alphabet the next code belongs to; the decode writes the
registers a decode writes (BB, BC, IPOS, ACC, ACCN, BFINAL, BTYPE, SYM, DSYM). -/

namespace Sys2Proof.Machine

/-- The element numbered `n`, its extra field read from the stream (30_encoding.md R102 to R104). -/
def fetchElement (a : Alphabet) (n : Nat) : Op Instr :=
  (readBits (extraWidth a n)).bind fun x s =>
  match instrOf a n x with
  | some i => .ok i s
  | none => .refused .noSuchSymbol

/-- READ_BLOCK_HEADER (R191): BFINAL, then BTYPE, each written as soon as it is read. -/
def fetchHeader : Op Instr :=
  (readBits 1).bind fun f => (Op.modify fun s => { s with bfinal := BitVec.ofNat 1 f }).andThen <|
  (readBits 2).bind fun t => (Op.modify fun s => { s with btype := BitVec.ofNat 2 t }).andThen <|
  fetchElement .header (f + 2 * t)

/-- Symbol 16 with no previous length raises before its extra field is read (43_blocks.md R207). -/
def checkRepeat (n : Nat) : Op Unit := fun s =>
  if n = 16 ∧ hasPrevLen s = false then raise .invalidHuffmanTree s else .ok () s

/-- The next element of the code-length sequence (43_blocks.md R205). -/
def fetchTree : Op Instr := fun s =>
  ((huffDecode (clInForce s)).bind fun n => (checkRepeat n).andThen (fetchElement .treeCode n)) s

/-- The next literal/length element: `SYM <- HuffDecode(T_LL)`, then its extra field (44_symbols.md R230). -/
def fetchLitLen : Op Instr := fun s =>
  ((huffDecode (llInForce s)).bind fun n =>
    (Op.modify fun t => { t with sym := BitVec.ofNat 9 n }).andThen (fetchElement .litLen n)) s

/-- The distance element of a match: `DSYM <- HuffDecode(T_D)`, then its extra field (44_symbols.md R297). -/
def fetchDist : Op Instr := fun s =>
  ((huffDecode (dInForce s)).bind fun n =>
    (Op.modify fun t => { t with dsym := BitVec.ofNat 5 n }).andThen (fetchElement .dist n)) s

/-- What a step finds: an element to execute, with the state after its bits were consumed, or a move of the machine
that is no element, with its outcome. -/
inductive Fetched where
  | element (i : Instr) (s : State)
  | move (o : Host.Outcome State Fault Refusal)

/-- The result of a decode: an element, or the end of the step (a raise goes on in ERROR). -/
def Fetched.ofRes : Res Instr → Fetched
  | .ok i s => .element i s
  | .raised s => .move (.next s)
  | .fault f => .move (.fault f)
  | .refused r => .move (.refused r)

/-- CORE's next element or move, by STATE (43_blocks.md R190). A stored or fixed block is executed whole by its header,
so STORED and FIXED are met here only in states no run reaches; the block is then resumed (log 12). DONE and ERROR
stay (R194; log 16). -/
def coreFetch (s : State) : Fetched :=
  match s.st with
  | .start => .move (.next (setState .readBlockHeader s))
  | .readBlockHeader => Fetched.ofRes (fetchHeader s)
  | .stored => .move (Op.run storedRest s)
  | .fixed => .move (.next (installFixed s))
  | .dynamic => if wantsLens s then Fetched.ofRes (fetchTree s) else .move (Op.run splitAndBuild s)
  | .decodeSymbols => if s.awaitDist then Fetched.ofRes (fetchDist s) else Fetched.ofRes (fetchLitLen s)
  | .blockEnd => .move (.next (endBlock s))
  | .done => .move (.next s)
  | .error => .move (.next s)

/-- The machine's next element or move: CORE's, or the gzip host's (45_host_gzip.md R320, R321). -/
def fetch (s : State) : Fetched :=
  match s.gz.phase with
  | .bare => coreFetch s
  | .core => if isDone s || hasError s then .move (.next (gzCoreEnded s)) else coreFetch s
  | .success => .move (.next s)
  | .failed => .move (.next s)
  | _ => .move (.next (gzMove s))

/-! ## The stream ahead -/

/-- The stream bits ahead of the cursor: the `BC` bits of `BB`, then those of the source's bytes up to its end or its
first `IoErr` mark (R12, R22). -/
def srcBits : List SrcItem → List Bool
  | .byte b :: rest => byteBits b ++ srcBits rest
  | _ => []

/-- See `srcBits`. -/
def bitsAhead (s : State) : List Bool := numBits s.bc.toNat s.bb.toNat ++ srcBits s.src

/-- The context the next element is read in; none where the next step is no element (R104, R190). -/
def contextOf (s : State) : Option Context :=
  match s.st with
  | .readBlockHeader => some .header
  | .dynamic => if wantsLens s then some (.treeCode (clInForce s)) else none
  | .decodeSymbols => if s.awaitDist then some (.dist (dInForce s)) else some (.litLen (llInForce s))
  | _ => none

/-! ## A word of the opcode table as the next element (log 15) -/

/-- The state in which the stream's next element belongs to an alphabet, with the tables of `tableContext`. For the tree
codes one length (a 0) has been placed already, so that symbol 16 has a previous length. -/
def placeContext (a : Alphabet) (s : State) : State :=
  match a with
  | .header => { s with st := .readBlockHeader }
  | .treeCode =>
    { s with st := .dynamic, clLens := Vector.replicate 19 5, hlit := 257, hdist := 1, idx := 1 }
  | .litLen =>
    { s with st := .decodeSymbols, awaitDist := false, llN := 288
             llLens := writeRun s.llLens (fixedLLLens.map (BitVec.ofNat 4)) }
  | .dist =>
    { s with st := .decodeSymbols, awaitDist := true, dN := 32, dLens := Vector.replicate 32 5 }

/-- `s` with a word of the opcode table as the next element of its stream (log 15). -/
def placeWord (s : State) (nbits w : Nat) : State :=
  match tableRow nbits w with
  | none => s
  | some (a, n) =>
    { placeContext a s with
      bb := 0, bc := 0
      src := (packBits (tableBits a n)).map SrcItem.byte
      gz := { s.gz with phase := .bare } }

end Sys2Proof.Machine
end

