-- ==== Sys2Proof/Machine/Step.lean ====
section
/-! DEFINITION. One step: the next element is fetched and executed, or the machine makes a move that is no element
(43_blocks.md R190, R212). -/

namespace Sys2Proof.Machine

/-- One step of the machine. -/
def step (s : State) : Host.Outcome State Fault Refusal :=
  match fetch s with
  | .element i t => exec i t
  | .move o => o

/-- `s` with a word of the opcode table as its next element (log 15). -/
def State.withFetchWord (s : State) (nbits w : Nat) : State := placeWord s nbits w

end Sys2Proof.Machine
end

