-- ==== Sys2Proof/WellFormed.lean ====
section
/-! DEFINITION. Which elements a context can present. Operand ranges need no check: an operand's type has exactly the
width of its field. What can be ill-formed is the pair of a context and an element. -/

namespace Sys2Proof

/-- An element is well-formed in a context when (1) it belongs to the context's alphabet, and, for a Huffman-coded
one, (2) its symbol number lies below the number of code lengths, (3) its code length is not 0 (an absent symbol has no
code, 42_huffman.md R170), (4) no length exceeds 15 and (5) the lengths are not over-subscribed (R172). -/
def WellFormed (c : Context) (i : Instr) : Bool :=
  alphabetOf i == c.alphabet &&
  (c.alphabet == .header ||
    (decide (numberOf i < c.lens.length) &&
     c.lens.getD (numberOf i) 0 != 0 &&
     !(c.lens.any fun L => decide (Config.maxBits < L)) &&
     !overSubscribed c.lens))

end Sys2Proof
end

