-- ==== Sys2Proof/Safety.lean ====
section
/-! DEFINITION. What the claims call a safe state and a safe step: the invariants of the machine's parts, the shape of a
change that touches the input side only, and what a run of copied bytes is. Each invariant is the spec's own statement
about the state between two operations. -/

namespace Sys2Proof.Machine

/-! ## Invariants -/

/-- 10_state.md R22: between operations BC is in 0..7 and the bits of BB at BC and above are zero. -/
def BitReaderOk (s : State) : Prop := s.bc.toNat ≤ 7 ∧ s.bb.toNat < 2 ^ s.bc.toNat

/-- The CRC register after the bytes `out`, from reset (41_tracking_writer.md R150, R153). -/
def crcAfter (out : List Byte) : BitVec 32 := out.foldl crcStep Config.crcInit

/-- 41_tracking_writer.md R150: `out` is what was given to the sink since reset (the sink may have held `pre` before,
70_reset_and_hazards.md R383), COUNT is its length, CRC is the register after it, and WIN holds the last
`min(32768, COUNT)` bytes of it, byte number `k` at index `k mod 32768` (20_memory.md R76). -/
def OutputIs (s : State) (pre out : List Byte) : Prop :=
  s.snk = pre ++ out ∧ s.count = out.length ∧ s.crc = crcAfter out ∧
  ∀ k, k < s.count → s.count ≤ k + Config.wsize → Memory.read s.win (k % Config.wsize) = out[k]?

/-- R150 for some history of the sink. -/
def OutputOk (s : State) : Prop := ∃ pre out, OutputIs s pre out

/-- The window is in canonical form. -/
def WindowOk (s : State) : Prop := Memory.wf s.win = true

/-- 10_state.md R40, R42, R43: DONE is 1 exactly in STATE DONE, ERR is not 0 exactly in STATE ERROR, and ERR is one of
the codes CORE can raise (60_exceptions.md R350). -/
def StatusOk (s : State) : Prop :=
  (s.done = 1 ↔ s.st = .done) ∧ (s.err ≠ 0 ↔ s.st = .error) ∧
  s.err ∈ ([0, 5, 7, 8, 9, 10, 11, 12] : List (BitVec 4))

/-- What holds between steps in each STATE: a stored or fixed block is never met half way (log 2); in DYNAMIC the counts
are in their ranges (10_state.md R44) and `T_CL` has been built; in DECODE_SYMBOLS both tables have been built
(43_blocks.md R211) and a pending match has a length in 3..258 (30_encoding.md R97). -/
def ControlOk (s : State) : Prop :=
  s.st ≠ .stored ∧ s.st ≠ .fixed ∧
  (s.st = .dynamic →
    257 ≤ s.hlit.toNat ∧ s.hlit.toNat ≤ 288 ∧ 1 ≤ s.hdist.toNat ∧ s.hdist.toNat ≤ 32 ∧
    s.idx.toNat ≤ lensWanted s ∧ (huffBuild (clInForce s)).isSome = true) ∧
  (s.st = .decodeSymbols →
    (huffBuild (llInForce s)).isSome = true ∧ (huffBuild (dInForce s)).isSome = true ∧
    (s.awaitDist = true → 3 ≤ s.mlen.toNat ∧ s.mlen.toNat ≤ 258))

/-- All of them: a sound state. -/
def Sound (s : State) : Prop := BitReaderOk s ∧ OutputOk s ∧ WindowOk s ∧ StatusOk s ∧ ControlOk s

/-! ## Safe steps -/

/-- A safe outcome: the machine goes on, or it refuses an input or output of 2^64 bytes (10_state.md R31, R33). -/
def SafeOutcome : Host.Outcome State Fault Refusal → Prop
  | .next _ => True
  | .fault _ => False
  | .refused r => r = .inputTooLong ∨ r = .outputTooLong

/-- CORE has ended: STATE is DONE or ERROR (43_blocks.md R194). -/
def Ended (s : State) : Prop := s.st = .done ∨ s.st = .error

/-- CORE takes the steps: alone, or under a gzip host that waits for DONE or ERR (45_host_gzip.md R320, R321, R326). -/
def CoreRuns (s : State) : Prop := s.gz.phase = .bare ∨ (s.gz.phase = .core ∧ s.done = 0 ∧ s.err = 0)

/-! ## Shapes of change -/

/-- `t` is `s` but for the bit reader and the source. -/
def InputOnly (s t : State) : Prop :=
  t = { s with bb := t.bb, bc := t.bc, ipos := t.ipos, src := t.src }

/-- `t` is `s` but for what a decode writes: the bit reader, the source, and ACC, ACCN, BFINAL, BTYPE, SYM, DSYM. -/
def DecodeOnly (s t : State) : Prop :=
  t = { s with bb := t.bb, bc := t.bc, ipos := t.ipos, src := t.src, acc := t.acc, accn := t.accn
               bfinal := t.bfinal, btype := t.btype, sym := t.sym, dsym := t.dsym }

/-- `t` is `s` but for the tracking writer and the sink. -/
def OutputOnly (s t : State) : Prop :=
  t = { s with snk := t.snk, crc := t.crc, win := t.win, count := t.count }

/-- `IPOS` has room for `n` more source bytes below 2^64 (10_state.md R31). -/
def RoomIn (s : State) (n : Nat) : Prop := s.ipos + n < Config.countLimit

/-- The sink takes the next `n` output bytes and COUNT has room for them (20_memory.md R64, 10_state.md R33). -/
def RoomOut (s : State) (n : Nat) : Prop :=
  s.count + n < Config.countLimit ∧ ∀ k, s.snkFailAt = some k → k < s.count ∨ s.count + n ≤ k

/-- The window after output bytes `count`, ..., `count + n - 1` have been written: nothing but their indices has
changed. -/
def WindowKept (s t : State) (n : Nat) : Prop :=
  ∀ a, (∀ j, j < n → (s.count + j) % Config.wsize ≠ a) → Memory.read t.win a = Memory.read s.win a

/-- The machine with more items behind the end of its source. -/
def withMoreSource (s : State) (more : List SrcItem) : State := { s with src := s.src ++ more }

/-- How many bits the bit reader and the source can still give at most. -/
def bitsLeft (s : State) : Nat := s.bc.toNat + 8 * s.src.length

/-- Source items that are all bytes. -/
def bytesSrc (bs : List Byte) : List SrcItem := bs.map SrcItem.byte

/-- What a read that finds no more bytes raises: `IoError` where the bytes end at a mark, `UnexpectedEof` where the
source ends (20_memory.md R63). -/
def srcEnd : List SrcItem → ErrKind
  | [] => .unexpectedEof
  | .ioErr :: _ => .ioError
  | .byte _ :: rest => srcEnd rest

/-- No byte stands at the head of the source: it is at its end or at an `IoErr` mark (20_memory.md R62, R63). -/
def SourceEnds (src : List SrcItem) : Prop := src = [] ∨ ∃ rest, src = .ioErr :: rest

/-- `ReadBits(n_1)`, ..., `ReadBits(n_k)` in order (40_bitreader.md R137). -/
def readFields : List Nat → Op (List Nat)
  | [] => Op.pure []
  | n :: ns => (readBits n).bind fun v => (readFields ns).bind fun vs => Op.pure (v :: vs)

/-- `sum over s with lens[s] > 0 of 2^(15 - lens[s])`: the Kraft sum in units of 2^(-15) (42_huffman.md R172). -/
def kraftUnits (lens : List Nat) : Nat := ((lens.filter (· ≠ 0)).map fun L => 2 ^ (15 - L)).sum

/-- The 19 tree-code lengths that the transmitted ones `ls` give: the `i`-th is the length of symbol `CL_ORDER[i]`, the
symbols later in `CL_ORDER` have length 0 (30_encoding.md R94; 43_blocks.md R204). -/
def treeLens (ls : List Nat) : List Nat := (List.range 19).map fun n => ls.getD (clOrder.idxOf n) 0

/-- How many bits a dynamic header needs before its code-length sequence, as far as the bits there tell: 14 for the three
counts, then 3 for each of the HCLEN lengths (43_blocks.md R203, R204). -/
def dynamicNeeds (bits : List Bool) : Nat :=
  if bits.length < 14 then 14 else 14 + 3 * (numOfBits ((bits.drop 10).take 4) + 4)

/-- The tree-code lengths that stand whole in the bits after the three counts of a dynamic header. -/
def lensAhead (bits : List Bool) : List Nat :=
  (List.range ((bits.length - 14) / 3)).map fun j => numOfBits ((bits.drop (14 + 3 * j)).take 3)

/-! ## The gzip header -/

/-- The phases in which the host reads a header byte that the header CRC covers (45_host_gzip.md R328, R330, R331). -/
def headerPhases : List GzPhase := [.ids, .cm, .flg, .fixedRest, .xlen, .extra, .name, .comment]

/-- The optional fields in stream order, each with its FLG bit (R329, R330). -/
def optionalFields : List (Nat × GzPhase) := [(2, .xlen), (3, .name), (4, .comment), (1, .hcrc)]

/-- Of the optional fields from number `k` on, the first that FLG announces; the DEFLATE stream if there is none (R330,
R333). -/
def nextField (flg : BitVec 8) (k : Nat) : GzPhase :=
  (((optionalFields.drop k).find? fun p => flg.getLsbD p.1).map Prod.snd).getD .core

/-- The host is at the start of a phase, with no byte of its field read. -/
def Entered (t : State) (p : GzPhase) : Prop := t.gz.phase = p ∧ t.gz.buf = []

/-- Of the gzip file `all`, the header bytes `hdr` have been read, and HCRC is their CRC register (R331). -/
def HeaderRead (all : List SrcItem) (hdr : List Byte) (s : State) : Prop :=
  all = bytesSrc hdr ++ s.src ∧ s.gz.hcrc = crcAfter hdr

/-! ## Shapes of an element's effect -/

/-- `i` is a length element of length `len`: it sets MLEN, and that a distance is awaited, and nothing else. -/
def SetsLength (i : Instr) (len : Nat) : Prop :=
  ∀ s, ∃ t, exec i s = .next t ∧ t.mlen.toNat = len ∧ t = { s with mlen := t.mlen, awaitDist := true }

/-- `i` appends `r` copies of the code length `v s` to SCR and nothing else, wherever the sequence has room for them and
`ok s` holds (43_blocks.md R206 to R209). -/
def AppendsLens (i : Instr) (ok : State → Prop) (v : State → BitVec 4) (r : Nat) : Prop :=
  ∀ s, ok s → lensWanted s ≤ 320 → s.idx.toNat + r ≤ lensWanted s → ∃ t, exec i s = .next t ∧
    t.idx.toNat = s.idx.toNat + r ∧
    t.scr.toList = s.scr.toList.take s.idx.toNat ++ List.replicate r (v s) ++ s.scr.toList.drop (s.idx.toNat + r) ∧
    t = { s with scr := t.scr, idx := t.idx }

/-- `u` is `s` inside a stored block whose header is `f`, whose LEN and NLEN are the four bytes given, and of whose LEN
bytes `data` have been output (43_blocks.md R195, R196). -/
def StoredPart (s u : State) (f : BitVec 1) (b0 b1 b2 b3 : Byte) (data : List Byte) : Prop :=
  u.snk = s.snk ++ data ∧ u.crc = data.foldl crcStep s.crc ∧ u.count = s.count + data.length ∧
  (OutputOk s → OutputOk u) ∧ WindowKept s u data.length ∧
  u.rem.toNat + data.length = (joinBytes b0 b1).toNat ∧
  u = { s with bfinal := f, btype := 0, st := .stored, bb := 0, bc := 0, ipos := u.ipos, src := u.src
               slen := joinBytes b0 b1, snlen := joinBytes b2 b3, rem := u.rem
               snk := u.snk, crc := u.crc, win := u.win, count := u.count }

/-- `t` is `s` after `len` bytes have been copied from `dist` back: the `i`-th byte appended is the output byte
`dist - (i mod dist)` before the old end (41_tracking_writer.md R156, R157), CRC, COUNT and WIN follow it (R150), and
no window index changes but those of the bytes appended. -/
def CopiedBack (s t : State) (len dist : Nat) : Prop :=
  t.count = s.count + len ∧ t.snk.length = s.snk.length + len ∧ s.snk <+: t.snk ∧
  (∀ i, i < len → t.snk[s.snk.length + i]? = s.snk[s.snk.length - dist + i % dist]?) ∧
  OutputOk t ∧ WindowKept s t len

/-- `i` is a distance element of distance `dist`. With the history there and room in the sink it sets MDIST, copies MLEN
bytes and awaits a literal/length code again (44_symbols.md R264 to R293, R296). -/
def CopiesFrom (i : Instr) (dist : Nat) : Prop :=
  ∀ s, OutputOk s → dist ≤ s.count → RoomOut s s.mlen.toNat → ∃ t, exec i s = .next t ∧
    t.mdist.toNat = dist ∧ CopiedBack s t s.mlen.toNat dist ∧
    t = { s with mdist := t.mdist, awaitDist := false, snk := t.snk, crc := t.crc, win := t.win, count := t.count }

/-- `i` is a distance element of distance `dist`: beyond the output so far it raises `InvalidDistance` and writes nothing
but MDIST (44_symbols.md R296 (6)). -/
def RejectsFar (i : Instr) (dist : Nat) : Prop :=
  ∀ s, s.count < dist → exec i s = .next (takeError .invalidDistance { s with mdist := BitVec.ofNat 16 dist })

/-- `i` is a distance element of distance `dist`. Where the history is there and the sink refuses output byte `k` of the
copy, it raises `IoError`: the bytes before it are output and MDIST is set (44_symbols.md R296 (7), 60_exceptions.md R358,
R365). -/
def StopsAtSink (i : Instr) (dist : Nat) : Prop :=
  ∀ s k, OutputOk s → dist ≤ s.count → s.snkFailAt = some k → s.count ≤ k → k < s.count + s.mlen.toNat →
  k < Config.countLimit → ∃ t, exec i s = .next (takeError .ioError t) ∧ t.mdist.toNat = dist ∧
    CopiedBack s t (k - s.count) dist ∧
    t = { s with mdist := t.mdist, snk := t.snk, crc := t.crc, win := t.win, count := t.count }

end Sys2Proof.Machine
end

