-- ==== Sys2Proof/Certificates/Slice0/Obligations.lean ====
section
/-! DEFINITION. The statements for the provers, each from the spec's numbered rules. Statements about every state hold in
states no run reaches too; where they need an invariant (Safety.lean) it is a premise, and stated as an invariant of its
own. -/

open Sys2Proof Sys2Proof.Machine

/-- O1. For every state: if fetch finds element i and leaves the state t, step is exec of i at t; if fetch finds a move
that is no element, step is that move. Nothing else is added around exec. Where CORE takes the steps, alone or under
a gzip host that waits for it, the fetch is CORE's. That one step is exactly one element or one move is the model's
choice (log 2): the spec leaves the size of a step open (92_eei_decisions.md D19). (log 2, 92_eei_decisions.md D19,
R320, R321) -/
def Obligations.StepRunsTheFetchedElement : Prop :=
    ∀ s, (∀ i t, fetch s = .element i t → step s = exec i t) ∧ (∀ o, fetch s = .move o → step s = o) ∧
    (CoreRuns s → fetch s = coreFetch s)

/-- O2. For every state in which CORE takes the steps (bare, or under a waiting gzip host) with an element next
(contextOf), a sound bit reader and room for 8 more bytes in IPOS: if the decoder reads element i from the bits
ahead, leaving rest, and i is not CREP16 without a previous length, then i is well-formed in that context and step
is exec of i at a state t whose bits ahead are rest, which differs from s only in BB, BC, IPOS, the source and what
this decode writes: BFINAL and BTYPE (a header only), SYM (literal/length only), DSYM (distance only), ACC and ACCN
(a code only). They hold what was decoded; ACC and ACCN hold its code. IPOS counts each source byte taken. (One
element a step: log 2.) (R104, R190, R191, R205, R230, R297, R175, 10_state.md R46, R320, R321, log 2) -/
def Obligations.StepRunsTheDecodedElement : Prop :=
    ∀ s c i rest, CoreRuns s → BitReaderOk s → RoomIn s 8 → contextOf s = some c →
    decode c (bitsAhead s) = .ok (i, rest) → (alphabetOf i = .treeCode → numberOf i = 16 → hasPrevLen s = true) →
    WellFormed c i = true ∧ ∃ t, step s = exec i t ∧ bitsAhead t = rest ∧ BitReaderOk t ∧ DecodeOnly s t ∧
      t.ipos + t.src.length = s.ipos + s.src.length ∧
      (if c.alphabet = .header then numberOf i = t.bfinal.toNat + 2 * t.btype.toNat
       else t.bfinal = s.bfinal ∧ t.btype = s.btype) ∧
      (if c.alphabet = .litLen then numberOf i = t.sym.toNat else t.sym = s.sym) ∧
      (if c.alphabet = .dist then numberOf i = t.dsym.toNat else t.dsym = s.dsym) ∧
      (if c.alphabet = .header then t.acc = s.acc ∧ t.accn = s.accn
       else symbolBits c.lens (numberOf i) = some (codeBits t.accn.toNat t.acc.toNat))

/-- O3. For every state in which CORE takes the steps (bare, or under a waiting gzip host), with an element next, a
sound bit reader and room for 8 more bytes in IPOS: if the decoder runs out of bits, the step takes the error
UnexpectedEof, or IoError where the bytes end at an IoErr mark, with every bit ahead consumed (symbol 16 as the
first code-length element is the one exception: it is rejected before its extra bits are read); if 15 bits match no
code, it takes InvalidHuffmanCode after exactly 15 bits; if the table cannot be built (a state no run reaches, log
13) InvalidHuffmanTree with nothing consumed. The error is recorded in ERR if ERR was 0, STATE is ERROR, and nothing
else has changed but what a decode writes; nothing is output. (One element a step: log 2.) (R140, R176, R177, R191,
R207, R357, R358, R356, log 2, log 13) -/
def Obligations.StepRejectsAsTheDecoderDoes : Prop :=
    ∀ s c, CoreRuns s → BitReaderOk s → RoomIn s 8 → contextOf s = some c →
    (decode c (bitsAhead s) = .error .endOfInput →
      ¬ (c.alphabet = .treeCode ∧ s.idx = 0 ∧ ∃ rest, decodeSymbol c.lens (bitsAhead s) = .ok (16, rest)) →
      ∃ u, step s = .next (takeError (srcEnd s.src) u) ∧ bitsAhead u = [] ∧ u.bc = 0 ∧ DecodeOnly s u ∧
        u.ipos + u.src.length = s.ipos + s.src.length) ∧
    (decode c (bitsAhead s) = .error .invalidCode →
      ∃ u, step s = .next (takeError .invalidHuffmanCode u) ∧ bitsAhead u = (bitsAhead s).drop 15 ∧ BitReaderOk u ∧
        DecodeOnly s u ∧ u.ipos + u.src.length = s.ipos + s.src.length) ∧
    (decode c (bitsAhead s) = .error .invalidTree → step s = .next (takeError .invalidHuffmanTree s))

/-- O4. A few words of each alphabet, written bit by bit from the spec: headers (R91), tree codes (program P5),
fixed-block literal, end of block, lengths and distances with extra bits (44_symbols.md examples). (R91, R95, R99,
R100, R231, R232, R245, R274) -/
def Obligations.SpecWordsDecode : Prop :=
    decode .header [true, true, false] = .ok (.blkFixed 1, []) ∧
    decode .header [false, false, true] = .ok (.blkDynamic 0, []) ∧
    decode (.treeCode [4, 4, 1, 0, 0, 0, 0, 0, 0, 0, 0, 0, 0, 0, 0, 0, 0, 3, 2])
      [true, false, false, true, true, false, true, false, true] = .ok (.czero18 86, []) ∧
    decode (.litLen fixedLLLens) [false, true, true, true, false, false, false, true] = .ok (.lit 0x41, []) ∧
    decode (.litLen fixedLLLens) [false, false, false, false, false, false, false] = .ok (.eob, []) ∧
    decode (.litLen fixedLLLens) [false, false, false, true, true, false, true, false, true] = .ok (.len269 2, []) ∧
    decode (.dist fixedDLens) [false, true, false, true, false, true, false, false, true] = .ok (.dist10 9, [])

/-- O5. HuffBuild of the fixed literal/length lengths gives symbol S the code of R99's table for all 288 symbols, and of
the fixed distance lengths gives symbol D the 5-bit number D for all 30. (R99, R100) -/
def Obligations.FixedCodesAreTheTables : Prop :=
    (∀ n, n < 288 → symbolBits fixedLLLens n = some (fixedLLCode n)) ∧
    (∀ d, d < 30 → symbolBits fixedDLens d = some (codeBits 5 d))

/-- O6. For every context (a header, or any code lengths whatever), element i and bits after it: if the encoder gives i
the bits, the decoder reads i from them and leaves the bits after it. (R104, R174, R178) -/
def Obligations.DecodeOfEncode : Prop :=
    ∀ c i bits rest, encode c i = some bits → decode c (bits ++ rest) = .ok (i, rest)

/-- O7. For every context and bits: if the decoder reads element i, then i is well-formed there, and the bits are the
encoder's bits of i followed by what the decoder left: each word has one meaning and no bit is dropped. (R104, R174,
R175) -/
def Obligations.EncodeOfDecode : Prop :=
    ∀ c bits i rest, decode c bits = .ok (i, rest) →
    WellFormed c i = true ∧ ∃ word, encode c i = some word ∧ bits = word ++ rest

/-- O8. For every context and element: encode answers bits exactly when the element belongs to the context's alphabet
and, if coded, its symbol has a code in a table that builds. (R170, R172, R104) -/
def Obligations.EncodableExactlyWhenWellFormed : Prop :=
    ∀ c i, WellFormed c i = (encode c i).isSome

/-- O9. For every list of code lengths: construction fails exactly when some length exceeds 15 or the Kraft sum of the
non-zero lengths exceeds 1; incomplete and empty codes are accepted. (R172, R173, R111) -/
def Obligations.HuffBuildFailsExactlyOverBudget : Prop :=
    ∀ lens, huffBuild lens = none ↔ (∃ L ∈ lens, 15 < L) ∨ 2 ^ 15 < kraftUnits lens

/-- O10. For every list of code lengths that builds: each entry has its symbol's length, 1..15, and a value that fits;
its value is first[len] plus the number of smaller symbols of that length; every symbol with a non-zero length has
an entry, and entries of one symbol are equal; no code is a prefix of another symbol's code; among codes of one
length values increase with the symbol; a shorter code extended with zeros is below every longer code. (R174, R170) -/
def Obligations.HuffTableIsCanonicalAndPrefixFree : Prop :=
    ∀ lens T, huffBuild lens = some T →
    (∀ e ∈ T, 1 ≤ e.len ∧ e.len ≤ 15 ∧ e.code < 2 ^ e.len ∧ lens[e.sym]? = some e.len ∧
      e.code = firstCode lens e.len + (lens.take e.sym).count e.len) ∧
    (∀ n, lens.getD n 0 ≠ 0 → ∃ e ∈ T, e.sym = n) ∧
    (∀ e ∈ T, ∀ f ∈ T, e.sym ≠ f.sym → ¬ codeBits e.len e.code <+: codeBits f.len f.code) ∧
    (∀ e ∈ T, ∀ f ∈ T, e.sym = f.sym → e = f) ∧
    (∀ e ∈ T, ∀ f ∈ T, e.len = f.len → e.sym < f.sym → e.code < f.code) ∧
    (∀ e ∈ T, ∀ f ∈ T, e.len < f.len → e.code * 2 ^ (f.len - e.len) < f.code)

/-- O11. For every list of code lengths, none above 15 and with a Kraft sum of at most 1, construction succeeds; and for
every symbol n of non-zero length, its code has exactly lens[n] bits, and HuffDecode on any machine state whose bits
ahead begin with that code (most significant bit first) returns n after exactly those bits. (R178) -/
def Obligations.HuffmanRoundTrip : Prop :=
    ∀ lens, (∀ L ∈ lens, L ≤ 15) → kraftUnits lens ≤ 2 ^ 15 → (huffBuild lens).isSome = true ∧
    ∀ n, lens.getD n 0 ≠ 0 → ∃ code, symbolBits lens n = some code ∧ code.length = lens.getD n 0 ∧
      ∀ s rest, BitReaderOk s → RoomIn s 3 → bitsAhead s = code ++ rest →
        ∃ t, huffDecode lens s = .ok n t ∧ bitsAhead t = rest ∧ BitReaderOk t

/-- O12. A byte at the head of the source is delivered, the source advances by one and IPOS by one (refused only where
IPOS would reach 2^64); at the end UnexpectedEof is raised and at an IoErr mark IoError, and the source and IPOS
stay (that a mark stays in the source is the model's choice, log 7). (R62, R63, R31) -/
def Obligations.SourceOutcomes : Prop :=
    ∀ s : State, (∀ b rest, s.src = .byte b :: rest → RoomIn s 1 → srcNext s = .ok b { s with src := rest, ipos := s.ipos + 1 }) ∧
    (∀ b rest, s.src = .byte b :: rest → ¬ RoomIn s 1 → srcNext s = .refused .inputTooLong) ∧
    (s.src = [] → srcNext s = .raised (takeError .unexpectedEof s)) ∧
    (∀ rest, s.src = .ioErr :: rest → srcNext s = .raised (takeError .ioError s))

/-- O13. In every state ReadBits(0) returns 0 with the state unchanged; it never faults. (R132) -/
def Obligations.ReadZeroBits : Prop :=
    ∀ s, readBits 0 s = .ok 0 s

/-- O14. For n up to 32, a sound bit reader, room for 5 bytes in IPOS and n bits ahead: ReadBits(n) returns their value
least significant bit first, the bits ahead are the rest, the cursor 8*IPOS-BC has advanced by n, and nothing but
the bit reader and the source has changed. (R131, R67, R30, R139) -/
def Obligations.ReadBitsValue : Prop :=
    ∀ n s, n ≤ 32 → BitReaderOk s → RoomIn s 5 → n ≤ (bitsAhead s).length →
    ∃ t, readBits n s = .ok (numOfBits ((bitsAhead s).take n)) t ∧ bitsAhead t = (bitsAhead s).drop n ∧
      BitReaderOk t ∧ InputOnly s t ∧ 8 * t.ipos + s.bc.toNat = 8 * s.ipos + n + t.bc.toNat

/-- O15. For n up to 32, a sound bit reader, room for 5 bytes in IPOS and fewer than n bits ahead: the bits there are
stay consumed and the call raises UnexpectedEof, or IoError where the bytes end at an IoErr mark. (R131, R357, R63) -/
def Obligations.ReadBitsPastTheEnd : Prop :=
    ∀ n s, n ≤ 32 → BitReaderOk s → RoomIn s 5 → (bitsAhead s).length < n →
    ∃ t, readBits n s = .raised (takeError (srcEnd s.src) t) ∧ bitsAhead t = [] ∧ t.bc = 0 ∧ InputOnly s t

/-- O16. In every state, for a + b up to 32, reading a bits then b bits and joining them is reading a + b bits: same
value, same final state, same faults in the same cases. (R138) -/
def Obligations.ReadBitsSplits : Prop :=
    ∀ a b s, a + b ≤ 32 →
    readBits (a + b) s = ((readBits a).bind fun lo => (readBits b).bind fun hi => Op.pure (lo ||| (hi <<< a))) s

/-- O17. For every byte sequence and widths of at most 32 summing to 8 times its length, from a byte boundary: the reads
succeed, consume all of it, and their values written least significant bit first and concatenated are the bytes'
bits in stream order. (R137) -/
def Obligations.FieldsReconstructTheBytes : Prop :=
    ∀ (bs : List Byte) (ws : List Nat) (s : State), (∀ w ∈ ws, w ≤ 32) → ws.sum = 8 * bs.length → s.src = bytesSrc bs →
    s.bb = 0 → s.bc = 0 → RoomIn s bs.length → ∃ vs t, readFields ws s = .ok vs t ∧ t.src = [] ∧ t.bc = 0 ∧
      vs.length = ws.length ∧ (List.zipWith numBits ws vs).flatten = bs.flatMap byteBits

/-- O18. AlignToByte clears BB and BC, touches nothing else and leaves exactly the source's bits ahead; at a byte
boundary ReadByteAligned and ReadBits(8) give the same value, the same state and the same faults. (R134, R135) -/
def Obligations.AlignedByteIsEightBits : Prop :=
    (∀ s, alignToByte s = { s with bb := 0, bc := 0 } ∧ bitsAhead (alignToByte s) = srcBits s.src) ∧
    (∀ s, s.bb = 0 → s.bc = 0 → readBits 8 s = (readByteAligned.bind fun b => Op.pure b.toNat) s)

/-- O19. Where the sink takes the byte, it is appended, CRC takes it in, WIN[COUNT mod 32768] holds it and COUNT grows
by one, and nothing else changes; where the sink refuses it, IoError is raised and nothing else changes. (R151, R64,
R74) -/
def Obligations.WriteByteEffects : Prop :=
    ∀ b s, (RoomOut s 1 → writeByte b s = .ok () { s with
        snk := s.snk ++ [b], crc := crcStep s.crc b
        win := Memory.write s.win (s.count % 32768) b, count := s.count + 1 }) ∧
    (s.snkFailAt = some s.count → writeByte b s = .raised (takeError .ioError s))

/-- O20. If OUT is what was output since reset and the sink takes the bytes, writing them leaves OUT ++ bytes as what
was output, with CRC the CRC of all of it, COUNT its length and WIN its last 32768 bytes, and changes nothing else.
(R150, R152, R76) -/
def Obligations.WriteBytesKeepHistory : Prop :=
    ∀ bs s pre out, OutputIs s pre out → RoomOut s bs.length →
    ∃ t, writeBytes bs s = .ok () t ∧ OutputIs t pre (out ++ bs) ∧ OutputOnly s t ∧ WindowKept s t bs.length

/-- O21. With the history there (R150), a distance in 1..min(32768, COUNT) and room in the sink: len bytes are appended,
the i-th equal to the output byte dist - (i mod dist) before the old end; the history stays consistent and no window
index changes but those of the appended bytes. (R156, R157, R158, R390) -/
def Obligations.WritePreviousCopies : Prop :=
    ∀ len dist s, OutputOk s → 1 ≤ dist → dist ≤ min 32768 s.count → RoomOut s len →
    ∃ t, writePrevious len dist s = .ok () t ∧ CopiedBack s t len dist ∧ OutputOnly s t

/-- O22. A distance above min(32768, COUNT) raises InvalidDistance with nothing written; distance 0 is refused as
outside the contract; ReadBits above 32 is refused likewise. (R156, R158, R133, R355) -/
def Obligations.WritePreviousRejects : Prop :=
    ∀ len dist s, (min 32768 s.count < dist → writePrevious len dist s = .raised (takeError .invalidDistance s)) ∧
    writePrevious len 0 s = .refused .zeroDistance ∧ (32 < len → readBits len s = .refused .readTooWide)

/-- O23. For every register value and byte, CrcStep(c, b) is TAB[(c ^ b) & 0xFF] ^ (c >> 8) with TAB[i] = CrcStep(0, i).
(R154, R153) -/
def Obligations.CrcTableDriven : Prop :=
    ∀ (c : BitVec 32) (b : Byte), crcStep c b = crcStep 0 (c.setWidth 8 ^^^ b) ^^^ (c >>> 8)

/-- O24. The CRC of the byte 0x41 is 0xD3D99E8B, of the digits 1 to 9 0xCBF43926, of nothing 0; the accessors read CRC
xor 0xFFFFFFFF and COUNT in every state. (R153, R155, 95_test_vectors.md V2) -/
def Obligations.CrcKnownValues : Prop :=
    (∀ s, crc32 s = s.crc ^^^ 0xFFFFFFFF ∧ byteCount s = s.count) ∧ crc32 State.reset = 0 ∧
    crcAfter [0x41] ^^^ 0xFFFFFFFF = 0xD3D99E8B ∧
    crcAfter [0x31, 0x32, 0x33, 0x34, 0x35, 0x36, 0x37, 0x38, 0x39] ^^^ 0xFFFFFFFF = 0xCBF43926

/-- O25. For every kind, state and result type: the state after raise K differs in ERR, which takes the kind's code if
it was 0 and keeps its value otherwise, and in STATE, which is ERROR. The codes of the twelve kinds are 1 to 12 in
the order of the table of R350, a code names its kind back, and the seven kinds that have a canonical text have the
table's. (R356, R42, R350, R361) -/
def Obligations.RaiseRecordsTheFirstError : Prop :=
    (∀ (α : Type) (k : ErrKind) (s : State), (raise k : Op α) s = .raised { s with
      err := if s.err = 0 then errCode k else s.err, st := .error }) ∧
    ([.lengthMismatch, .crc32Mismatch, .wrongIdValues, .headerCrc16Mismatch, .unsupportedBlockType,
      .unsupportedCompressionMethod, .nlenMismatch, .invalidHuffmanTree, .invalidHuffmanCode, .invalidDistance,
      .unexpectedEof, .ioError] : List ErrKind).map errCode = [1, 2, 3, 4, 5, 6, 7, 8, 9, 10, 11, 12] ∧
    (∀ k, errKind (errCode k) = some k) ∧
    ([.lengthMismatch, .crc32Mismatch, .wrongIdValues, .headerCrc16Mismatch, .unsupportedBlockType,
      .unsupportedCompressionMethod, .nlenMismatch] : List ErrKind).map errText =
      [some "length check failed", some "crc32 check failed", some "wrong id values", some "header crc16 check failed",
       some "unsupported block type", some "unsupported compression method", some "nlen check failed"]

/-- O26. For every state, of CORE alone or under a gzip host that has started it: if ERR is not 0, it has the same value
after a step. (Only a reset clears it.) (R42, R356, R366) -/
def Obligations.FirstErrorIsKept : Prop :=
    ∀ s t, s.gz.phase = .bare ∨ s.gz.phase = .core → s.err ≠ 0 → step s = .next t → t.err = s.err

/-- O27. Every raise leaves STATE = ERROR. While the gzip host does not use the source itself, a step in STATE ERROR or
DONE goes on in the same STATE with the same source, the same IPOS and the same sink. That such a step answers a
next state at all is the model's choice (log 16): 93_implementation_defined.md U20 calls the machine stuck there
until reset. (R194, log 16, 93_implementation_defined.md U20) -/
def Obligations.EndedStatesStay : Prop :=
    (∀ (α : Type) k s, ∃ t, (raise k : Op α) s = .raised t ∧ t.st = .error) ∧
    (∀ s, s.gz.phase = .bare ∨ s.gz.phase = .core → s.st = .error ∨ s.st = .done →
      ∃ t, step s = .next t ∧ t.st = s.st ∧ t.src = s.src ∧ t.ipos = s.ipos ∧ t.snk = s.snk)

/-- O28. Where CORE takes the steps (bare, or under a waiting gzip host): START moves to READ_BLOCK_HEADER and nothing
else; BLOCK_END with BFINAL 0 moves there too; with BFINAL 1 it clears BB and BC, sets DONE and goes to DONE, taking
nothing from the source. (That START needs no signal is the model's merge, log 8, which R192 allows; that each of
these is a step of its own is the model's choice, log 2.) (R192, R193, R190, R326, log 2, log 8) -/
def Obligations.StartAndBlockEnd : Prop :=
    ∀ s, CoreRuns s →
    (s.st = .start → step s = .next { s with st := .readBlockHeader }) ∧
    (s.st = .blockEnd → s.bfinal = 0 → step s = .next { s with st := .readBlockHeader }) ∧
    (s.st = .blockEnd → s.bfinal = 1 → step s = .next { s with bb := 0, bc := 0, done := 1, st := .done })

/-- O29. With LEN and its complement NLEN at the head of the source, LEN data bytes after them, and room in IPOS and the
sink: the data bytes are appended to the sink in order, CRC, COUNT and WIN follow, IPOS counts 4 + LEN, SLEN and
SNLEN hold the fields, REM is 0, the partial byte is gone, BFINAL and BTYPE hold the header, STATE is BLOCK_END and
nothing else changes. (That one element is the whole block is the model's choice, log 2.) (R195, R92, R69, R71) -/
def Obligations.StoredBlockCopies : Prop :=
    ∀ (s : State) f b0 b1 b2 b3 (data : List Byte) rest, s.src = bytesSrc (b0 :: b1 :: b2 :: b3 :: data) ++ rest →
    joinBytes b0 b1 = ~~~ joinBytes b2 b3 → data.length = (joinBytes b0 b1).toNat →
    RoomIn s (4 + data.length) → RoomOut s data.length → ∃ t, exec (.blkStored f) s = .next t ∧
      t.snk = s.snk ++ data ∧ t.crc = data.foldl crcStep s.crc ∧ t.count = s.count + data.length ∧
      (OutputOk s → OutputOk t) ∧ WindowKept s t data.length ∧
      t = { s with bfinal := f, btype := 0, st := .blockEnd, bb := 0, bc := 0
                   ipos := s.ipos + 4 + data.length, src := rest
                   slen := joinBytes b0 b1, snlen := joinBytes b2 b3, rem := 0
                   snk := t.snk, crc := t.crc, win := t.win, count := t.count }

/-- O30. With four bytes at the head of the source whose NLEN is not the complement of LEN: NlenMismatch, with SLEN and
SNLEN holding the fields, four bytes taken, nothing copied. If fewer than four bytes stand before the end of the
source, UnexpectedEof, and before an IoErr mark, IoError: the bytes there are taken, SLEN holds LEN if both its
bytes were there and keeps its value otherwise, and nothing else changes but what the header and the alignment
write. (R195, R197, R352, R107, R357, R358) -/
def Obligations.StoredBlockRejectsNlen : Prop :=
    (∀ (s : State) f b0 b1 b2 b3 rest, s.src = bytesSrc [b0, b1, b2, b3] ++ rest → joinBytes b0 b1 ≠ ~~~ joinBytes b2 b3 → RoomIn s 4 →
      exec (.blkStored f) s = .next (takeError .nlenMismatch { s with
        bfinal := f, btype := 0, st := .stored, bb := 0, bc := 0, ipos := s.ipos + 4, src := rest
        slen := joinBytes b0 b1, snlen := joinBytes b2 b3 })) ∧
    (∀ (s : State) f bs tail, s.src = bytesSrc bs ++ tail → SourceEnds tail → bs.length < 4 → RoomIn s 4 →
      exec (.blkStored f) s = .next (takeError (srcEnd tail) { s with
        bfinal := f, btype := 0, st := .stored, bb := 0, bc := 0, ipos := s.ipos + bs.length, src := tail
        slen := if 2 ≤ bs.length then joinBytes (bs.getD 0 0) (bs.getD 1 0) else s.slen }))

/-- O31. With correct LEN and NLEN but fewer than LEN bytes before the end of the source, or before an IoErr mark: the
bytes there are output and REM holds how many were missing; the error is UnexpectedEof, or IoError at the mark. If
the sink refuses a data byte: the bytes before it are output, that byte has been taken from the source, REM still
counts it, and the error is IoError. Either way CRC, COUNT and WIN follow the bytes output, SLEN and SNLEN hold the
fields, IPOS counts the bytes taken, STATE is ERROR, and nothing else changes but what the header and the alignment
write. (R195, R196, R356, R357, R358) -/
def Obligations.StoredBlockTruncated : Prop :=
    (∀ (s : State) f b0 b1 b2 b3 (data : List Byte) tail, s.src = bytesSrc (b0 :: b1 :: b2 :: b3 :: data) ++ tail →
      SourceEnds tail → joinBytes b0 b1 = ~~~ joinBytes b2 b3 → data.length < (joinBytes b0 b1).toNat →
      RoomIn s (4 + data.length) → RoomOut s data.length →
      ∃ u, exec (.blkStored f) s = .next (takeError (srcEnd tail) u) ∧ StoredPart s u f b0 b1 b2 b3 data ∧
        u.src = tail ∧ u.ipos = s.ipos + 4 + data.length) ∧
    (∀ (s : State) f b0 b1 b2 b3 (data : List Byte) b rest,
      s.src = bytesSrc (b0 :: b1 :: b2 :: b3 :: data) ++ .byte b :: rest →
      joinBytes b0 b1 = ~~~ joinBytes b2 b3 → data.length < (joinBytes b0 b1).toNat →
      RoomIn s (5 + data.length) → RoomOut s data.length → s.snkFailAt = some (s.count + data.length) →
      ∃ u, exec (.blkStored f) s = .next (takeError .ioError u) ∧ StoredPart s u f b0 b1 b2 b3 data ∧
        u.src = rest ∧ u.ipos = s.ipos + 5 + data.length)

/-- O32. BLK.STORED from two states that differ only in BB and BC has the same outcome. (R49, R112, R134) -/
def Obligations.PaddingIsIgnored : Prop :=
    ∀ s f bb bc, exec (.blkStored f) { s with bb := bb, bc := bc } = exec (.blkStored f) s

/-- O33. In every state: the outcome is the error UnsupportedBlockType, with BFINAL and BTYPE holding the header and
nothing else changed; in particular the bit reader and the source stay. (R199, R106, R351) -/
def Obligations.ReservedBlockTypeRaises : Prop :=
    ∀ s f, exec (.blkRsvd f) s = .next { s with
      bfinal := f, btype := 3, err := if s.err = 0 then 5 else s.err, st := .error }

/-- O34. In every state: after BLK.FIXED the lengths in force are the fixed ones (288 and 30 entries), both tables
build, STATE is DECODE_SYMBOLS awaiting a literal/length code, BFINAL and BTYPE hold the header, D_LENS[30] and
D_LENS[31] keep their values, and nothing else changes. (R201, R99, R100) -/
def Obligations.FixedBlockInstallsTables : Prop :=
    ∀ s f, ∃ t, exec (.blkFixed f) s = .next t ∧ llInForce t = fixedLLLens ∧ dInForce t = fixedDLens ∧
    (huffBuild (llInForce t)).isSome = true ∧ (huffBuild (dInForce t)).isSome = true ∧
    t.dLens[30] = s.dLens[30] ∧ t.dLens[31] = s.dLens[31] ∧
    t = { s with bfinal := f, btype := 1, llN := 288, llLens := t.llLens, dN := 30, dLens := t.dLens
                 st := .decodeSymbols, awaitDist := false }

/-- O35. With the three count fields and HCLEN 3-bit lengths ahead, a sound bit reader and room for 10 bytes in IPOS:
HLIT, HDIST, HCLEN hold the offset counts, CL_LENS the lengths in the order of CL_ORDER with 0 for the symbols not
sent, exactly those bits are consumed; if the lengths build, IDX is 0 and STATE is DYNAMIC; if they are
over-subscribed the step ends in ERROR with InvalidHuffmanTree. Nothing is output and nothing else changes. If fewer
bits are ahead than the counts and the lengths need, the error is UnexpectedEof, or IoError where the bytes end at
an IoErr mark; every bit ahead is consumed, the counts read whole hold their values and the others keep theirs, and
CL_LENS is cleared once the counts are there and holds the lengths read whole. (That the element ends here, in STATE
DYNAMIC, with the code-length sequence as elements of their own, is the model's cut of R203's Dynamic(), log 2.)
(R203, R204, R93, R94, R357, R358, log 2) -/
def Obligations.DynamicHeaderReadsItsFields : Prop :=
    (∀ (s : State) f hl hd hc (ls : List Nat) rest, BitReaderOk s → RoomIn s 10 → hl < 32 → hd < 32 → hc < 16 → ls.length = hc + 4 →
    (∀ l ∈ ls, l < 8) →
    bitsAhead s = numBits 5 hl ++ numBits 5 hd ++ numBits 4 hc ++ ls.flatMap (numBits 3) ++ rest →
    ∃ t, bitsAhead t = rest ∧ BitReaderOk t ∧ t.hlit.toNat = hl + 257 ∧ t.hdist.toNat = hd + 1 ∧
      t.hclen.toNat = hc + 4 ∧ clInForce t = treeLens ls ∧
      t = { s with bfinal := f, btype := 2, st := .dynamic, hlit := t.hlit, hdist := t.hdist, hclen := t.hclen
                   clLens := t.clLens, bb := t.bb, bc := t.bc, ipos := t.ipos, src := t.src } ∧
      ((huffBuild (treeLens ls)).isSome = true → exec (.blkDynamic f) s = .next { t with idx := 0 }) ∧
      (huffBuild (treeLens ls) = none → exec (.blkDynamic f) s = .next (takeError .invalidHuffmanTree t))) ∧
    (∀ s f, BitReaderOk s → RoomIn s 10 → (bitsAhead s).length < dynamicNeeds (bitsAhead s) →
      ∃ u, exec (.blkDynamic f) s = .next (takeError (srcEnd s.src) u) ∧ bitsAhead u = [] ∧ u.bc = 0 ∧
      (if 5 ≤ (bitsAhead s).length then u.hlit.toNat = numOfBits ((bitsAhead s).take 5) + 257 else u.hlit = s.hlit) ∧
      (if 10 ≤ (bitsAhead s).length then u.hdist.toNat = numOfBits (((bitsAhead s).drop 5).take 5) + 1
       else u.hdist = s.hdist) ∧
      (if 14 ≤ (bitsAhead s).length then u.hclen.toNat = numOfBits (((bitsAhead s).drop 10).take 4) + 4 ∧
         clInForce u = treeLens (lensAhead (bitsAhead s))
       else u.hclen = s.hclen ∧ u.clLens = s.clLens) ∧
      u = { s with bfinal := f, btype := 2, st := .dynamic, hlit := u.hlit, hdist := u.hdist, hclen := u.hclen
                   clLens := u.clLens, bb := u.bb, bc := u.bc, ipos := u.ipos, src := u.src })

/-- O36. Wherever the sequence has room (and, for CREP16, a previous length exists): CLEN n appends n once, CREP16 x
appends 3 + x copies of the previous length, CZERO17 x appends 3 + x zeros, CZERO18 x appends 11 + x zeros; IDX
advances by the count; every other entry of SCR and every other register is unchanged. (R206, R207, R208, R209) -/
def Obligations.CodeLengthElementsAppend : Prop :=
    (∀ n, AppendsLens (.clen n) (fun _ => True) (fun _ => n) 1) ∧
    (∀ x, AppendsLens (.crep16 x) (fun s => 0 < s.idx.toNat) (fun s => s.scr.toList.getD (s.idx.toNat - 1) 0) (3 + x.toNat)) ∧
    (∀ x, AppendsLens (.czero17 x) (fun _ => True) (fun _ => 0) (3 + x.toNat)) ∧
    (∀ x, AppendsLens (.czero18 x) (fun _ => True) (fun _ => 0) (11 + x.toNat))

/-- O37. In every state: CREP16 with IDX = 0 raises InvalidHuffmanTree; a CREP16, CZERO17 or CZERO18 whose count would
carry IDX past HLIT + HDIST raises it too; ERR and STATE apart nothing changes. (R207, R210, R110, R353) -/
def Obligations.CodeLengthElementsReject : Prop :=
    ∀ s, (∀ x, s.idx = 0 → exec (.crep16 x) s = .next (takeError .invalidHuffmanTree s)) ∧
    (∀ x, lensWanted s < s.idx.toNat + (3 + x.toNat) → exec (.crep16 x) s = .next (takeError .invalidHuffmanTree s)) ∧
    (∀ x, lensWanted s < s.idx.toNat + (3 + x.toNat) → exec (.czero17 x) s = .next (takeError .invalidHuffmanTree s)) ∧
    (∀ x, lensWanted s < s.idx.toNat + (11 + x.toNat) → exec (.czero18 x) s = .next (takeError .invalidHuffmanTree s))

/-- O38. Where CORE takes the steps (bare, or under a waiting gzip host), in STATE DYNAMIC with IDX = 0: if the code
ahead is that of symbol 16, the step takes the error InvalidHuffmanTree with exactly the code consumed, the bits
after it still ahead, and nothing else changed but what a decode writes. (One element a step: log 2.) (R207, R363,
log 2) -/
def Obligations.Repeat16IsTestedBeforeItsExtraBits : Prop :=
    ∀ s rest, CoreRuns s → s.st = .dynamic → s.idx = 0 → wantsLens s = true → BitReaderOk s →
    RoomIn s 8 → decodeSymbol (clInForce s) (bitsAhead s) = .ok (16, rest) →
    ∃ u, step s = .next (takeError .invalidHuffmanTree u) ∧ bitsAhead u = rest ∧ BitReaderOk u ∧ DecodeOnly s u

/-- O39. Where CORE takes the steps (bare, or under a waiting gzip host), in STATE DYNAMIC with the sequence complete
and counts within 288 and 32: the lengths in force become the first HLIT and the next HDIST entries of SCR, both
with all later entries absent; if both build, STATE is DECODE_SYMBOLS awaiting a literal/length code; if either is
over-subscribed the step ends in ERROR with InvalidHuffmanTree. Nothing else changes and no bit is consumed. (That
the split and build is a step of its own is the model's choice, log 2; awaiting a literal/length code is the model's
field awaitDist, log 1.) (R211, R205, R37, R38, log 1, log 2) -/
def Obligations.SplitInstallsBothTables : Prop :=
    ∀ s, CoreRuns s → s.st = .dynamic → lensWanted s ≤ s.idx.toNat → s.hlit.toNat ≤ 288 → s.hdist.toNat ≤ 32 →
    ∃ t, llInForce t = (s.scr.toList.take s.hlit.toNat).map BitVec.toNat ∧
      dInForce t = ((s.scr.toList.drop s.hlit.toNat).take s.hdist.toNat).map BitVec.toNat ∧
      t = { s with llN := s.hlit, llLens := t.llLens, dN := s.hdist, dLens := t.dLens } ∧
      ((huffBuild (llInForce t)).isSome = true → (huffBuild (dInForce t)).isSome = true →
        step s = .next { t with st := .decodeSymbols, awaitDist := false }) ∧
      (huffBuild (llInForce t) = none ∨ huffBuild (dInForce t) = none →
        step s = .next (takeError .invalidHuffmanTree t))

/-- O40. Where the sink takes the byte, LIT b has the four effects of WriteByte(b) and nothing else; where it refuses
it, IoError. EOB changes STATE only. (R231, R232, R151) -/
def Obligations.LiteralAndEndOfBlock : Prop :=
    (∀ s b, RoomOut s 1 → exec (.lit b) s = .next { s with
        snk := s.snk ++ [b], crc := crcStep s.crc b
        win := Memory.write s.win (s.count % 32768) b, count := s.count + 1 }) ∧
    (∀ s b, s.snkFailAt = some s.count → exec (.lit b) s = .next (takeError .ioError s)) ∧
    (∀ s, exec .eob s = .next { s with st := .blockEnd })

/-- O41. Each of the 29 length elements, in every state and for every extra field, sets MLEN to its base plus the extra
field, makes the next code a distance code (awaitDist, the model's field, log 1), and changes nothing else: no
output, no bit consumed beyond the field. (44_symbols.md section 3 (R233 to R261), R97, R102) -/
def Obligations.LengthElementsSetTheLength : Prop :=
    SetsLength .len257 3 ∧
    SetsLength .len258 4 ∧
    SetsLength .len259 5 ∧
    SetsLength .len260 6 ∧
    SetsLength .len261 7 ∧
    SetsLength .len262 8 ∧
    SetsLength .len263 9 ∧
    SetsLength .len264 10 ∧
    (∀ x, SetsLength (.len265 x) (11 + x.toNat)) ∧
    (∀ x, SetsLength (.len266 x) (13 + x.toNat)) ∧
    (∀ x, SetsLength (.len267 x) (15 + x.toNat)) ∧
    (∀ x, SetsLength (.len268 x) (17 + x.toNat)) ∧
    (∀ x, SetsLength (.len269 x) (19 + x.toNat)) ∧
    (∀ x, SetsLength (.len270 x) (23 + x.toNat)) ∧
    (∀ x, SetsLength (.len271 x) (27 + x.toNat)) ∧
    (∀ x, SetsLength (.len272 x) (31 + x.toNat)) ∧
    (∀ x, SetsLength (.len273 x) (35 + x.toNat)) ∧
    (∀ x, SetsLength (.len274 x) (43 + x.toNat)) ∧
    (∀ x, SetsLength (.len275 x) (51 + x.toNat)) ∧
    (∀ x, SetsLength (.len276 x) (59 + x.toNat)) ∧
    (∀ x, SetsLength (.len277 x) (67 + x.toNat)) ∧
    (∀ x, SetsLength (.len278 x) (83 + x.toNat)) ∧
    (∀ x, SetsLength (.len279 x) (99 + x.toNat)) ∧
    (∀ x, SetsLength (.len280 x) (115 + x.toNat)) ∧
    (∀ x, SetsLength (.len281 x) (131 + x.toNat)) ∧
    (∀ x, SetsLength (.len282 x) (163 + x.toNat)) ∧
    (∀ x, SetsLength (.len283 x) (195 + x.toNat)) ∧
    (∀ x, SetsLength (.len284 x) (227 + x.toNat)) ∧
    SetsLength .len285 258

/-- O42. In every state each of the four reserved symbols ends in ERROR with InvalidHuffmanCode; ERR and STATE apart
nothing changes, MLEN among it. (R262, R263, R294, R295, R354) -/
def Obligations.ReservedSymbolsRaise : Prop :=
    ∀ s, exec .ll286 s = .next (takeError .invalidHuffmanCode s) ∧ exec .ll287 s = .next (takeError .invalidHuffmanCode s) ∧
    exec .dist30 s = .next (takeError .invalidHuffmanCode s) ∧ exec .dist31 s = .next (takeError .invalidHuffmanCode s)

/-- O43. Each of the 30 distance elements, for every extra field: with the history there (R150), at least that many
bytes output since reset and room in the sink, MDIST becomes base plus extra, MLEN bytes are appended by overlapping
copy, CRC, COUNT and WIN follow, no other window index changes, and nothing else changes but that a literal/length
code is awaited again (awaitDist, the model's field, log 1). (44_symbols.md section 4 (R264 to R293), R98, R296,
R157, R298) -/
def Obligations.DistanceElementsCopy : Prop :=
    CopiesFrom .dist0 1 ∧
    CopiesFrom .dist1 2 ∧
    CopiesFrom .dist2 3 ∧
    CopiesFrom .dist3 4 ∧
    (∀ y, CopiesFrom (.dist4 y) (5 + y.toNat)) ∧
    (∀ y, CopiesFrom (.dist5 y) (7 + y.toNat)) ∧
    (∀ y, CopiesFrom (.dist6 y) (9 + y.toNat)) ∧
    (∀ y, CopiesFrom (.dist7 y) (13 + y.toNat)) ∧
    (∀ y, CopiesFrom (.dist8 y) (17 + y.toNat)) ∧
    (∀ y, CopiesFrom (.dist9 y) (25 + y.toNat)) ∧
    (∀ y, CopiesFrom (.dist10 y) (33 + y.toNat)) ∧
    (∀ y, CopiesFrom (.dist11 y) (49 + y.toNat)) ∧
    (∀ y, CopiesFrom (.dist12 y) (65 + y.toNat)) ∧
    (∀ y, CopiesFrom (.dist13 y) (97 + y.toNat)) ∧
    (∀ y, CopiesFrom (.dist14 y) (129 + y.toNat)) ∧
    (∀ y, CopiesFrom (.dist15 y) (193 + y.toNat)) ∧
    (∀ y, CopiesFrom (.dist16 y) (257 + y.toNat)) ∧
    (∀ y, CopiesFrom (.dist17 y) (385 + y.toNat)) ∧
    (∀ y, CopiesFrom (.dist18 y) (513 + y.toNat)) ∧
    (∀ y, CopiesFrom (.dist19 y) (769 + y.toNat)) ∧
    (∀ y, CopiesFrom (.dist20 y) (1025 + y.toNat)) ∧
    (∀ y, CopiesFrom (.dist21 y) (1537 + y.toNat)) ∧
    (∀ y, CopiesFrom (.dist22 y) (2049 + y.toNat)) ∧
    (∀ y, CopiesFrom (.dist23 y) (3073 + y.toNat)) ∧
    (∀ y, CopiesFrom (.dist24 y) (4097 + y.toNat)) ∧
    (∀ y, CopiesFrom (.dist25 y) (6145 + y.toNat)) ∧
    (∀ y, CopiesFrom (.dist26 y) (8193 + y.toNat)) ∧
    (∀ y, CopiesFrom (.dist27 y) (12289 + y.toNat)) ∧
    (∀ y, CopiesFrom (.dist28 y) (16385 + y.toNat)) ∧
    (∀ y, CopiesFrom (.dist29 y) (24577 + y.toNat))

/-- O44. Each of the 30 distance elements, for every extra field and in every state with fewer bytes output than its
distance: InvalidDistance, MDIST holds the distance, MLEN and COUNT stay, nothing is output. (44_symbols.md section
4 (R264 to R293), R296, R355) -/
def Obligations.DistanceElementsRejectFar : Prop :=
    RejectsFar .dist0 1 ∧
    RejectsFar .dist1 2 ∧
    RejectsFar .dist2 3 ∧
    RejectsFar .dist3 4 ∧
    (∀ y, RejectsFar (.dist4 y) (5 + y.toNat)) ∧
    (∀ y, RejectsFar (.dist5 y) (7 + y.toNat)) ∧
    (∀ y, RejectsFar (.dist6 y) (9 + y.toNat)) ∧
    (∀ y, RejectsFar (.dist7 y) (13 + y.toNat)) ∧
    (∀ y, RejectsFar (.dist8 y) (17 + y.toNat)) ∧
    (∀ y, RejectsFar (.dist9 y) (25 + y.toNat)) ∧
    (∀ y, RejectsFar (.dist10 y) (33 + y.toNat)) ∧
    (∀ y, RejectsFar (.dist11 y) (49 + y.toNat)) ∧
    (∀ y, RejectsFar (.dist12 y) (65 + y.toNat)) ∧
    (∀ y, RejectsFar (.dist13 y) (97 + y.toNat)) ∧
    (∀ y, RejectsFar (.dist14 y) (129 + y.toNat)) ∧
    (∀ y, RejectsFar (.dist15 y) (193 + y.toNat)) ∧
    (∀ y, RejectsFar (.dist16 y) (257 + y.toNat)) ∧
    (∀ y, RejectsFar (.dist17 y) (385 + y.toNat)) ∧
    (∀ y, RejectsFar (.dist18 y) (513 + y.toNat)) ∧
    (∀ y, RejectsFar (.dist19 y) (769 + y.toNat)) ∧
    (∀ y, RejectsFar (.dist20 y) (1025 + y.toNat)) ∧
    (∀ y, RejectsFar (.dist21 y) (1537 + y.toNat)) ∧
    (∀ y, RejectsFar (.dist22 y) (2049 + y.toNat)) ∧
    (∀ y, RejectsFar (.dist23 y) (3073 + y.toNat)) ∧
    (∀ y, RejectsFar (.dist24 y) (4097 + y.toNat)) ∧
    (∀ y, RejectsFar (.dist25 y) (6145 + y.toNat)) ∧
    (∀ y, RejectsFar (.dist26 y) (8193 + y.toNat)) ∧
    (∀ y, RejectsFar (.dist27 y) (12289 + y.toNat)) ∧
    (∀ y, RejectsFar (.dist28 y) (16385 + y.toNat)) ∧
    (∀ y, RejectsFar (.dist29 y) (24577 + y.toNat))

/-- O45. With the history there and a legal distance, if the sink refuses output byte k of the copy, WritePrevious
raises IoError with COUNT = k, the first k - COUNT bytes of the repetition appended and the history consistent. Each
of the 30 distance elements, for every extra field, takes that error: MDIST holds the distance, those bytes are
output, and ERR and STATE apart nothing else changes. (44_symbols.md section 4 (R264 to R293), R358, R296, R365,
R356) -/
def Obligations.MatchStopsWhereTheSinkFails : Prop :=
    (∀ len dist s k, OutputOk s → 1 ≤ dist → dist ≤ min 32768 s.count → s.snkFailAt = some k → s.count ≤ k →
      k < s.count + len → k < Config.countLimit →
      ∃ t, writePrevious len dist s = .raised (takeError .ioError t) ∧ CopiedBack s t (k - s.count) dist ∧ OutputOnly s t) ∧
    StopsAtSink .dist0 1 ∧
    StopsAtSink .dist1 2 ∧
    StopsAtSink .dist2 3 ∧
    StopsAtSink .dist3 4 ∧
    (∀ y, StopsAtSink (.dist4 y) (5 + y.toNat)) ∧
    (∀ y, StopsAtSink (.dist5 y) (7 + y.toNat)) ∧
    (∀ y, StopsAtSink (.dist6 y) (9 + y.toNat)) ∧
    (∀ y, StopsAtSink (.dist7 y) (13 + y.toNat)) ∧
    (∀ y, StopsAtSink (.dist8 y) (17 + y.toNat)) ∧
    (∀ y, StopsAtSink (.dist9 y) (25 + y.toNat)) ∧
    (∀ y, StopsAtSink (.dist10 y) (33 + y.toNat)) ∧
    (∀ y, StopsAtSink (.dist11 y) (49 + y.toNat)) ∧
    (∀ y, StopsAtSink (.dist12 y) (65 + y.toNat)) ∧
    (∀ y, StopsAtSink (.dist13 y) (97 + y.toNat)) ∧
    (∀ y, StopsAtSink (.dist14 y) (129 + y.toNat)) ∧
    (∀ y, StopsAtSink (.dist15 y) (193 + y.toNat)) ∧
    (∀ y, StopsAtSink (.dist16 y) (257 + y.toNat)) ∧
    (∀ y, StopsAtSink (.dist17 y) (385 + y.toNat)) ∧
    (∀ y, StopsAtSink (.dist18 y) (513 + y.toNat)) ∧
    (∀ y, StopsAtSink (.dist19 y) (769 + y.toNat)) ∧
    (∀ y, StopsAtSink (.dist20 y) (1025 + y.toNat)) ∧
    (∀ y, StopsAtSink (.dist21 y) (1537 + y.toNat)) ∧
    (∀ y, StopsAtSink (.dist22 y) (2049 + y.toNat)) ∧
    (∀ y, StopsAtSink (.dist23 y) (3073 + y.toNat)) ∧
    (∀ y, StopsAtSink (.dist24 y) (4097 + y.toNat)) ∧
    (∀ y, StopsAtSink (.dist25 y) (6145 + y.toNat)) ∧
    (∀ y, StopsAtSink (.dist26 y) (8193 + y.toNat)) ∧
    (∀ y, StopsAtSink (.dist27 y) (12289 + y.toNat)) ∧
    (∀ y, StopsAtSink (.dist28 y) (16385 + y.toNat)) ∧
    (∀ y, StopsAtSink (.dist29 y) (24577 + y.toNat))

/-- O46. The values of R380: all counters, lengths and working registers 0, CRC 0xFFFFFFFF, STATE START, ERR and DONE 0,
cursor 0, crc32() and byte_count() 0. WIN and SCR, which the spec leaves unspecified, are not stated (log 3, log 4).
(R380, R381) -/
def Obligations.ResetState : Prop :=
    State.reset.bb = 0 ∧ State.reset.bc = 0 ∧ State.reset.ipos = 0 ∧ State.reset.crc = 0xFFFFFFFF ∧ State.reset.count = 0 ∧
    State.reset.clLens = Vector.replicate 19 0 ∧ State.reset.llLens = Vector.replicate 288 0 ∧
    State.reset.dLens = Vector.replicate 32 0 ∧ State.reset.llN = 0 ∧ State.reset.dN = 0 ∧
    State.reset.acc = 0 ∧ State.reset.accn = 0 ∧ State.reset.st = .start ∧ stateCode State.reset.st = 0 ∧
    State.reset.bfinal = 0 ∧ State.reset.btype = 0 ∧ State.reset.hlit = 0 ∧ State.reset.hdist = 0 ∧
    State.reset.hclen = 0 ∧ State.reset.idx = 0 ∧ State.reset.slen = 0 ∧ State.reset.snlen = 0 ∧
    State.reset.rem = 0 ∧ State.reset.sym = 0 ∧ State.reset.dsym = 0 ∧ State.reset.mlen = 0 ∧
    State.reset.mdist = 0 ∧ State.reset.err = 0 ∧ State.reset.done = 0 ∧
    cursor State.reset = 0 ∧ crc32 State.reset = 0 ∧ byteCount State.reset = 0

/-- O47. Bit reader, output history, window form, status and control invariants hold at State.reset. (R380, R22, R150,
R34) -/
def Obligations.ResetSatisfiesTheInvariant : Prop :=
    Sound State.reset

/-- O48. For every state in which it holds, whatever else the state is, it holds after a step. (R22, R139) -/
def Obligations.StepKeepsTheBitReader : Prop :=
    ∀ s t, BitReaderOk s → step s = .next t → BitReaderOk t

/-- O49. For every state in which OUT is what was output since reset, the sink having held PRE before (COUNT is the
length of OUT, CRC its CRC-32 register, and WIN holds its last min(32768, COUNT) bytes, byte number k at index k mod
32768): after a step, elements, errors and host moves included, OUT and some more bytes are what was output since
reset, with the same PRE. The one exception is the host's step that starts CORE, which resets it (that it is reset
at this moment is deduced, log 11): from there nothing has been output, and PRE is the whole sink. At reset nothing
has been output. (R150, R380, R382, log 11) -/
def Obligations.StepKeepsTheHistory : Prop :=
    OutputIs State.reset [] [] ∧ ∀ s t pre out, OutputIs s pre out → step s = .next t →
    if s.gz.phase ≠ .core ∧ t.gz.phase = .core then OutputIs t s.snk [] else ∃ more, OutputIs t pre (out ++ more)

/-- O50. For every state whose window cells have strictly rising indices below 32768, they have after a step. (R60, R76) -/
def Obligations.StepKeepsTheWindowForm : Prop :=
    ∀ s t, WindowOk s → step s = .next t → WindowOk t

/-- O51. For every state in which it holds, whatever else the state is, it holds after a step; so DONE and ERR are never
both set. (R42, R43, R350, R356) -/
def Obligations.StepKeepsTheStatus : Prop :=
    ∀ s t, StatusOk s → step s = .next t → StatusOk t

/-- O52. For every state in which it holds, it holds after a step: no step ends inside a stored or fixed block (the
model's choice of step, log 2), counts are in range and T_CL builds in DYNAMIC, both tables build in DECODE_SYMBOLS
and a pending match has a length in 3..258. (R44, R46, R211, R82) -/
def Obligations.StepKeepsTheControl : Prop :=
    ∀ s t, ControlOk s → step s = .next t → ControlOk t

/-- O53. From every state that satisfies the invariant, a step goes on, or refuses an input or output of 2^64 bytes; in
particular the window is never read where nothing was written (that such a read would fault is the model's choice,
log 3). (R34, R158, R213, R31, R33) -/
def Obligations.StepIsSafe : Prop :=
    ∀ s, Sound s → SafeOutcome (step s)

/-- O54. For every state: after a step the old sink is a prefix of the new one, and the new source is a suffix of the
old one. (R60, R64, R65, R30) -/
def Obligations.SinkOnlyGrows : Prop :=
    ∀ s t, step s = .next t → s.snk <+: t.snk ∧ t.src <:+ s.src

/-- O55. For every state of CORE, alone or under a gzip host that has started it, with a consistent status: if a step
does not end in UnexpectedEof, then with any further items behind the source it does the same and leaves the further
items behind its own source. (R23, R392, R325, R193) -/
def Obligations.NoReadAhead : Prop :=
    ∀ s t more, s.gz.phase = .bare ∨ s.gz.phase = .core → StatusOk s → step s = .next t → t.err ≠ errCode .unexpectedEof →
    step (withMoreSource s more) = .next (withMoreSource t more)

/-- O56. From every state of CORE, alone or under a gzip host that has started it, that satisfies the invariant, after
at most twice the bits left plus two steps (a step is an element or a move between elements, the model's choice, log
2) CORE is in DONE or ERROR, or has refused an input or output of 2^64 bytes. (R213, R9, R31, R33, log 2) -/
def Obligations.CoreAlwaysEnds : Prop :=
    ∀ s, s.gz.phase = .bare ∨ s.gz.phase = .core → Sound s → ∃ k, k ≤ 2 * bitsLeft s + 2 ∧
    ((∃ t, Host.Core.run Sys2Proof.core k s = .next t ∧ Ended t) ∨ (∃ r, Host.Core.run Sys2Proof.core k s = .refused r ∧ (r = .inputTooLong ∨ r = .outputTooLong)))

/-- O57. In every header phase with a byte at the head of the source (the host takes one byte a step, the model's
choice, log 9): the byte is taken and goes into HCRC, the sink stays, and until CORE starts nothing of CORE changes.
The second ID byte leads on exactly if the pair is 1F 8B, else WrongIdValues; the method byte exactly if it is 8,
else UnsupportedCompressionMethod; FLG is kept, six bytes follow it unread. Then the optional fields FLG announces,
in the order FEXTRA, FNAME, FCOMMENT, FHCRC, and after them the DEFLATE stream: FEXTRA has a little-endian length
and that many bytes, none for 0; FNAME and FCOMMENT end at their first 0. (R328, R329, R330, R331, R332, log 9) -/
def Obligations.HostChecksTheHeader : Prop :=
    ∀ (s : State) b rest, s.src = .byte b :: rest → s.gz.phase ∈ headerPhases → ∃ t, step s = .next t ∧
    t.src = rest ∧ t.snk = s.snk ∧ t.gz.hcrc = crcStep s.gz.hcrc b ∧
    (t.gz.phase ≠ .core → t = { s with src := rest, gz := t.gz }) ∧
    (s.gz.phase ≠ .flg → t.gz.flg = s.gz.flg) ∧
    (s.gz.phase = .ids → s.gz.buf = [] → t.gz.phase = .ids ∧ t.gz.buf = [b]) ∧
    (∀ b1, s.gz.phase = .ids → s.gz.buf = [b1] →
      if b1 = 0x1F ∧ b = 0x8B then Entered t .cm else t.gz.phase = .failed ∧ t.gz.err = some .wrongIdValues) ∧
    (s.gz.phase = .cm →
      if b = 8 then Entered t .flg else t.gz.phase = .failed ∧ t.gz.err = some .unsupportedCompressionMethod) ∧
    (s.gz.phase = .flg → t.gz.phase = .fixedRest ∧ t.gz.flg = b ∧ t.gz.left = 6) ∧
    (s.gz.phase = .fixedRest →
      if 1 < s.gz.left then t.gz.phase = .fixedRest ∧ t.gz.left = s.gz.left - 1 else Entered t (nextField s.gz.flg 0)) ∧
    (s.gz.phase = .xlen → s.gz.buf = [] → t.gz.phase = .xlen ∧ t.gz.buf = [b]) ∧
    (∀ b0, s.gz.phase = .xlen → s.gz.buf = [b0] →
      if b0.toNat + 256 * b.toNat = 0 then Entered t (nextField s.gz.flg 1)
      else t.gz.phase = .extra ∧ t.gz.left = b0.toNat + 256 * b.toNat) ∧
    (s.gz.phase = .extra →
      if 1 < s.gz.left then t.gz.phase = .extra ∧ t.gz.left = s.gz.left - 1 else Entered t (nextField s.gz.flg 1)) ∧
    (s.gz.phase = .name → if b = 0 then Entered t (nextField s.gz.flg 2) else t.gz = { s.gz with hcrc := t.gz.hcrc }) ∧
    (s.gz.phase = .comment → if b = 0 then Entered t (nextField s.gz.flg 3) else t.gz = { s.gz with hcrc := t.gz.hcrc })

/-- O58. Whatever step of the host starts CORE takes the last header byte from the source, leaves the source right
behind it and the sink as it was, and puts every register of CORE at its reset value (that it is reset at this
moment is deduced, log 11). HCRC is the CRC register of the header bytes read so far: at the start of a file (none),
and after every step in a header phase if before it. With the FHCRC field next, two steps read its two bytes, and
CORE starts exactly if they are, little-endian, the low half of the CRC-32 of the header before the field, else
HeaderCrc16Mismatch (one byte a step: log 9). (R326, R331, R333, R382, log 9, log 11) -/
def Obligations.HostStartsAFreshCore : Prop :=
    (∀ s t, step s = .next t → s.gz.phase ≠ .core → t.gz.phase = .core → (∃ b, s.src = .byte b :: t.src) ∧
      t = { State.reset with src := t.src, snk := s.snk, snkFailAt := s.snkFailAt, gz := t.gz }) ∧
    (∀ src, HeaderRead src [] (gzStart src) ∧ (gzStart src).gz.phase = .ids) ∧
    (∀ all hdr s t, HeaderRead all hdr s → s.gz.phase ∈ headerPhases → step s = .next t →
      HeaderRead all hdr t ∧ t.gz.phase = .failed ∨ ∃ b, s.src = .byte b :: t.src ∧ HeaderRead all (hdr ++ [b]) t) ∧
    (∀ all hdr s c0 c1 rest, HeaderRead all hdr s → s.gz.phase = .hcrc → s.gz.buf = [] →
      s.src = .byte c0 :: .byte c1 :: rest → ∃ u t, step s = .next u ∧ step u = .next t ∧
      u = { s with src := .byte c1 :: rest, gz := u.gz } ∧ u.gz.phase = .hcrc ∧ t.src = rest ∧ t.snk = s.snk ∧
      (if c0.toNat + 256 * c1.toNat = (crcAfter hdr ^^^ 0xFFFFFFFF).toNat % 2 ^ 16 then t.gz.phase = .core
       else t.gz.phase = .failed ∧ t.gz.err = some .headerCrc16Mismatch))

/-- O59. Under the host, once CORE has ended (one byte a step, log 9): if it ended with an error the run fails with it;
if it is DONE the trailer is entered with no byte of it read; either way the source is left alone. Each of the first
seven trailer bytes is taken and kept behind those before it. With the eighth at the head of the source:
LengthMismatch if ISIZE is not COUNT mod 2^32, else Crc32Mismatch if the stored CRC is not crc32(), else success,
all little-endian. Nothing but the source and the host's registers changes. (R334, R335, R336, R321, log 9) -/
def Obligations.HostChecksTheTrailer : Prop :=
    (∀ s, s.gz.phase = .core → s.err ≠ 0 →
      ∃ t, step s = .next t ∧ t = { s with gz := t.gz } ∧ t.gz.phase = .failed ∧ t.gz.err = errKind s.err) ∧
    (∀ s, s.gz.phase = .core → s.err = 0 → s.done = 1 →
      ∃ t, step s = .next t ∧ t = { s with gz := t.gz } ∧ Entered t .trailer) ∧
    (∀ (s : State) b rest, s.src = .byte b :: rest → s.gz.phase = .trailer → s.gz.buf.length < 7 →
      step s = .next { s with src := rest, gz := { s.gz with buf := s.gz.buf ++ [b] } }) ∧
    (∀ (s : State) c0 c1 c2 c3 l0 l1 l2 l3 rest, s.src = .byte l3 :: rest → s.gz.phase = .trailer →
      s.gz.buf = [c0, c1, c2, c3, l0, l1, l2] → ∃ t, step s = .next t ∧ t = { s with src := rest, gz := t.gz } ∧
      (if l0.toNat + 256 * (l1.toNat + 256 * (l2.toNat + 256 * l3.toNat)) ≠ s.count % 2 ^ 32
       then t.gz.phase = .failed ∧ t.gz.err = some .lengthMismatch
       else if c0.toNat + 256 * (c1.toNat + 256 * (c2.toNat + 256 * c3.toNat)) ≠ (s.crc ^^^ 0xFFFFFFFF).toNat
       then t.gz.phase = .failed ∧ t.gz.err = some .crc32Mismatch
       else t.gz.phase = .success))

/-- O60. In every phase in which the host reads a byte (one a step, log 9): at the end of the source the run fails with
UnexpectedEof, at an IoErr mark with IoError. In every phase but bare and core a step leaves the sink alone. A run
that has succeeded or failed stays as it is (log 16). (R320, R327, R332, R334) -/
def Obligations.HostEndOfInputAndIdle : Prop :=
    ∀ s, (s.gz.phase ∉ [.bare, .core, .success, .failed] →
      (s.src = [] → step s = .next { s with gz := { s.gz with phase := .failed, err := some .unexpectedEof } }) ∧
      (∀ rest, s.src = .ioErr :: rest → step s = .next { s with gz := { s.gz with phase := .failed, err := some .ioError } })) ∧
    (s.gz.phase ∉ [.bare, .core] → ∀ t, step s = .next t → t.snk = s.snk) ∧
    (s.gz.phase ∈ [.success, .failed] → step s = .next s)
end

