-- ==== Sys2Proof/Laws/State.lean ====
section
/-! SUPPORT. One equation per field for every named update of the state, true by unfolding and in the simp set, so that no
proof unfolds a record update. -/

namespace Sys2Proof.Machine

@[simp] theorem takeError_fields (k : ErrKind) (s : State) :
    (takeError k s).bb = s.bb ∧ (takeError k s).bc = s.bc ∧ (takeError k s).ipos = s.ipos ∧
    (takeError k s).win = s.win ∧ (takeError k s).crc = s.crc ∧ (takeError k s).count = s.count ∧
    (takeError k s).clLens = s.clLens ∧ (takeError k s).llLens = s.llLens ∧ (takeError k s).llN = s.llN ∧
    (takeError k s).dLens = s.dLens ∧ (takeError k s).dN = s.dN ∧ (takeError k s).scr = s.scr ∧
    (takeError k s).acc = s.acc ∧ (takeError k s).accn = s.accn ∧ (takeError k s).st = .error ∧
    (takeError k s).bfinal = s.bfinal ∧ (takeError k s).btype = s.btype ∧ (takeError k s).hlit = s.hlit ∧
    (takeError k s).hdist = s.hdist ∧ (takeError k s).hclen = s.hclen ∧ (takeError k s).idx = s.idx ∧
    (takeError k s).slen = s.slen ∧ (takeError k s).snlen = s.snlen ∧ (takeError k s).rem = s.rem ∧
    (takeError k s).sym = s.sym ∧ (takeError k s).dsym = s.dsym ∧ (takeError k s).mlen = s.mlen ∧
    (takeError k s).mdist = s.mdist ∧ (takeError k s).err = (if s.err = 0 then errCode k else s.err) ∧
    (takeError k s).done = s.done ∧ (takeError k s).awaitDist = s.awaitDist ∧ (takeError k s).src = s.src ∧
    (takeError k s).snk = s.snk ∧ (takeError k s).snkFailAt = s.snkFailAt ∧ (takeError k s).gz = s.gz :=
  ⟨rfl, rfl, rfl, rfl, rfl, rfl, rfl, rfl, rfl, rfl, rfl, rfl, rfl, rfl, rfl, rfl, rfl, rfl, rfl, rfl, rfl, rfl, rfl, rfl, rfl, rfl, rfl, rfl, rfl, rfl, rfl, rfl, rfl, rfl, rfl⟩

@[simp] theorem loadByte_fields (b : Byte) (s : State) :
    (loadByte b s).bb = b ∧ (loadByte b s).bc = 8 ∧ (loadByte b s).ipos = s.ipos ∧ (loadByte b s).win = s.win ∧
    (loadByte b s).crc = s.crc ∧ (loadByte b s).count = s.count ∧ (loadByte b s).clLens = s.clLens ∧
    (loadByte b s).llLens = s.llLens ∧ (loadByte b s).llN = s.llN ∧ (loadByte b s).dLens = s.dLens ∧
    (loadByte b s).dN = s.dN ∧ (loadByte b s).scr = s.scr ∧ (loadByte b s).acc = s.acc ∧
    (loadByte b s).accn = s.accn ∧ (loadByte b s).st = s.st ∧ (loadByte b s).bfinal = s.bfinal ∧
    (loadByte b s).btype = s.btype ∧ (loadByte b s).hlit = s.hlit ∧ (loadByte b s).hdist = s.hdist ∧
    (loadByte b s).hclen = s.hclen ∧ (loadByte b s).idx = s.idx ∧ (loadByte b s).slen = s.slen ∧
    (loadByte b s).snlen = s.snlen ∧ (loadByte b s).rem = s.rem ∧ (loadByte b s).sym = s.sym ∧
    (loadByte b s).dsym = s.dsym ∧ (loadByte b s).mlen = s.mlen ∧ (loadByte b s).mdist = s.mdist ∧
    (loadByte b s).err = s.err ∧ (loadByte b s).done = s.done ∧ (loadByte b s).awaitDist = s.awaitDist ∧
    (loadByte b s).src = s.src ∧ (loadByte b s).snk = s.snk ∧ (loadByte b s).snkFailAt = s.snkFailAt ∧
    (loadByte b s).gz = s.gz :=
  ⟨rfl, rfl, rfl, rfl, rfl, rfl, rfl, rfl, rfl, rfl, rfl, rfl, rfl, rfl, rfl, rfl, rfl, rfl, rfl, rfl, rfl, rfl, rfl, rfl, rfl, rfl, rfl, rfl, rfl, rfl, rfl, rfl, rfl, rfl, rfl⟩

@[simp] theorem shiftBit_fields (s : State) :
    (shiftBit s).bb = s.bb >>> 1 ∧ (shiftBit s).bc = s.bc - 1 ∧ (shiftBit s).ipos = s.ipos ∧
    (shiftBit s).win = s.win ∧ (shiftBit s).crc = s.crc ∧ (shiftBit s).count = s.count ∧
    (shiftBit s).clLens = s.clLens ∧ (shiftBit s).llLens = s.llLens ∧ (shiftBit s).llN = s.llN ∧
    (shiftBit s).dLens = s.dLens ∧ (shiftBit s).dN = s.dN ∧ (shiftBit s).scr = s.scr ∧ (shiftBit s).acc = s.acc ∧
    (shiftBit s).accn = s.accn ∧ (shiftBit s).st = s.st ∧ (shiftBit s).bfinal = s.bfinal ∧
    (shiftBit s).btype = s.btype ∧ (shiftBit s).hlit = s.hlit ∧ (shiftBit s).hdist = s.hdist ∧
    (shiftBit s).hclen = s.hclen ∧ (shiftBit s).idx = s.idx ∧ (shiftBit s).slen = s.slen ∧
    (shiftBit s).snlen = s.snlen ∧ (shiftBit s).rem = s.rem ∧ (shiftBit s).sym = s.sym ∧
    (shiftBit s).dsym = s.dsym ∧ (shiftBit s).mlen = s.mlen ∧ (shiftBit s).mdist = s.mdist ∧
    (shiftBit s).err = s.err ∧ (shiftBit s).done = s.done ∧ (shiftBit s).awaitDist = s.awaitDist ∧
    (shiftBit s).src = s.src ∧ (shiftBit s).snk = s.snk ∧ (shiftBit s).snkFailAt = s.snkFailAt ∧
    (shiftBit s).gz = s.gz :=
  ⟨rfl, rfl, rfl, rfl, rfl, rfl, rfl, rfl, rfl, rfl, rfl, rfl, rfl, rfl, rfl, rfl, rfl, rfl, rfl, rfl, rfl, rfl, rfl, rfl, rfl, rfl, rfl, rfl, rfl, rfl, rfl, rfl, rfl, rfl, rfl⟩

@[simp] theorem alignToByte_fields (s : State) :
    (alignToByte s).bb = 0 ∧ (alignToByte s).bc = 0 ∧ (alignToByte s).ipos = s.ipos ∧
    (alignToByte s).win = s.win ∧ (alignToByte s).crc = s.crc ∧ (alignToByte s).count = s.count ∧
    (alignToByte s).clLens = s.clLens ∧ (alignToByte s).llLens = s.llLens ∧ (alignToByte s).llN = s.llN ∧
    (alignToByte s).dLens = s.dLens ∧ (alignToByte s).dN = s.dN ∧ (alignToByte s).scr = s.scr ∧
    (alignToByte s).acc = s.acc ∧ (alignToByte s).accn = s.accn ∧ (alignToByte s).st = s.st ∧
    (alignToByte s).bfinal = s.bfinal ∧ (alignToByte s).btype = s.btype ∧ (alignToByte s).hlit = s.hlit ∧
    (alignToByte s).hdist = s.hdist ∧ (alignToByte s).hclen = s.hclen ∧ (alignToByte s).idx = s.idx ∧
    (alignToByte s).slen = s.slen ∧ (alignToByte s).snlen = s.snlen ∧ (alignToByte s).rem = s.rem ∧
    (alignToByte s).sym = s.sym ∧ (alignToByte s).dsym = s.dsym ∧ (alignToByte s).mlen = s.mlen ∧
    (alignToByte s).mdist = s.mdist ∧ (alignToByte s).err = s.err ∧ (alignToByte s).done = s.done ∧
    (alignToByte s).awaitDist = s.awaitDist ∧ (alignToByte s).src = s.src ∧ (alignToByte s).snk = s.snk ∧
    (alignToByte s).snkFailAt = s.snkFailAt ∧ (alignToByte s).gz = s.gz :=
  ⟨rfl, rfl, rfl, rfl, rfl, rfl, rfl, rfl, rfl, rfl, rfl, rfl, rfl, rfl, rfl, rfl, rfl, rfl, rfl, rfl, rfl, rfl, rfl, rfl, rfl, rfl, rfl, rfl, rfl, rfl, rfl, rfl, rfl, rfl, rfl⟩

@[simp] theorem putByte_fields (b : Byte) (s : State) :
    (putByte b s).bb = s.bb ∧ (putByte b s).bc = s.bc ∧ (putByte b s).ipos = s.ipos ∧
    (putByte b s).win = Memory.write s.win (s.count % Config.wsize) b ∧ (putByte b s).crc = crcStep s.crc b ∧
    (putByte b s).count = s.count + 1 ∧ (putByte b s).clLens = s.clLens ∧ (putByte b s).llLens = s.llLens ∧
    (putByte b s).llN = s.llN ∧ (putByte b s).dLens = s.dLens ∧ (putByte b s).dN = s.dN ∧
    (putByte b s).scr = s.scr ∧ (putByte b s).acc = s.acc ∧ (putByte b s).accn = s.accn ∧
    (putByte b s).st = s.st ∧ (putByte b s).bfinal = s.bfinal ∧ (putByte b s).btype = s.btype ∧
    (putByte b s).hlit = s.hlit ∧ (putByte b s).hdist = s.hdist ∧ (putByte b s).hclen = s.hclen ∧
    (putByte b s).idx = s.idx ∧ (putByte b s).slen = s.slen ∧ (putByte b s).snlen = s.snlen ∧
    (putByte b s).rem = s.rem ∧ (putByte b s).sym = s.sym ∧ (putByte b s).dsym = s.dsym ∧
    (putByte b s).mlen = s.mlen ∧ (putByte b s).mdist = s.mdist ∧ (putByte b s).err = s.err ∧
    (putByte b s).done = s.done ∧ (putByte b s).awaitDist = s.awaitDist ∧ (putByte b s).src = s.src ∧
    (putByte b s).snk = s.snk ++ [b] ∧ (putByte b s).snkFailAt = s.snkFailAt ∧ (putByte b s).gz = s.gz :=
  ⟨rfl, rfl, rfl, rfl, rfl, rfl, rfl, rfl, rfl, rfl, rfl, rfl, rfl, rfl, rfl, rfl, rfl, rfl, rfl, rfl, rfl, rfl, rfl, rfl, rfl, rfl, rfl, rfl, rfl, rfl, rfl, rfl, rfl, rfl, rfl⟩

@[simp] theorem pushLen_fields (v : BitVec 4) (s : State) :
    (pushLen v s).bb = s.bb ∧ (pushLen v s).bc = s.bc ∧ (pushLen v s).ipos = s.ipos ∧ (pushLen v s).win = s.win ∧
    (pushLen v s).crc = s.crc ∧ (pushLen v s).count = s.count ∧ (pushLen v s).clLens = s.clLens ∧
    (pushLen v s).llLens = s.llLens ∧ (pushLen v s).llN = s.llN ∧ (pushLen v s).dLens = s.dLens ∧
    (pushLen v s).dN = s.dN ∧ (pushLen v s).scr = s.scr.setIfInBounds s.idx.toNat v ∧ (pushLen v s).acc = s.acc ∧
    (pushLen v s).accn = s.accn ∧ (pushLen v s).st = s.st ∧ (pushLen v s).bfinal = s.bfinal ∧
    (pushLen v s).btype = s.btype ∧ (pushLen v s).hlit = s.hlit ∧ (pushLen v s).hdist = s.hdist ∧
    (pushLen v s).hclen = s.hclen ∧ (pushLen v s).idx = s.idx + 1 ∧ (pushLen v s).slen = s.slen ∧
    (pushLen v s).snlen = s.snlen ∧ (pushLen v s).rem = s.rem ∧ (pushLen v s).sym = s.sym ∧
    (pushLen v s).dsym = s.dsym ∧ (pushLen v s).mlen = s.mlen ∧ (pushLen v s).mdist = s.mdist ∧
    (pushLen v s).err = s.err ∧ (pushLen v s).done = s.done ∧ (pushLen v s).awaitDist = s.awaitDist ∧
    (pushLen v s).src = s.src ∧ (pushLen v s).snk = s.snk ∧ (pushLen v s).snkFailAt = s.snkFailAt ∧
    (pushLen v s).gz = s.gz :=
  ⟨rfl, rfl, rfl, rfl, rfl, rfl, rfl, rfl, rfl, rfl, rfl, rfl, rfl, rfl, rfl, rfl, rfl, rfl, rfl, rfl, rfl, rfl, rfl, rfl, rfl, rfl, rfl, rfl, rfl, rfl, rfl, rfl, rfl, rfl, rfl⟩

@[simp] theorem setHeader_fields (f : BitVec 1) (t : BitVec 2) (s : State) :
    (setHeader f t s).bb = s.bb ∧ (setHeader f t s).bc = s.bc ∧ (setHeader f t s).ipos = s.ipos ∧
    (setHeader f t s).win = s.win ∧ (setHeader f t s).crc = s.crc ∧ (setHeader f t s).count = s.count ∧
    (setHeader f t s).clLens = s.clLens ∧ (setHeader f t s).llLens = s.llLens ∧ (setHeader f t s).llN = s.llN ∧
    (setHeader f t s).dLens = s.dLens ∧ (setHeader f t s).dN = s.dN ∧ (setHeader f t s).scr = s.scr ∧
    (setHeader f t s).acc = s.acc ∧ (setHeader f t s).accn = s.accn ∧ (setHeader f t s).st = s.st ∧
    (setHeader f t s).bfinal = f ∧ (setHeader f t s).btype = t ∧ (setHeader f t s).hlit = s.hlit ∧
    (setHeader f t s).hdist = s.hdist ∧ (setHeader f t s).hclen = s.hclen ∧ (setHeader f t s).idx = s.idx ∧
    (setHeader f t s).slen = s.slen ∧ (setHeader f t s).snlen = s.snlen ∧ (setHeader f t s).rem = s.rem ∧
    (setHeader f t s).sym = s.sym ∧ (setHeader f t s).dsym = s.dsym ∧ (setHeader f t s).mlen = s.mlen ∧
    (setHeader f t s).mdist = s.mdist ∧ (setHeader f t s).err = s.err ∧ (setHeader f t s).done = s.done ∧
    (setHeader f t s).awaitDist = s.awaitDist ∧ (setHeader f t s).src = s.src ∧ (setHeader f t s).snk = s.snk ∧
    (setHeader f t s).snkFailAt = s.snkFailAt ∧ (setHeader f t s).gz = s.gz :=
  ⟨rfl, rfl, rfl, rfl, rfl, rfl, rfl, rfl, rfl, rfl, rfl, rfl, rfl, rfl, rfl, rfl, rfl, rfl, rfl, rfl, rfl, rfl, rfl, rfl, rfl, rfl, rfl, rfl, rfl, rfl, rfl, rfl, rfl, rfl, rfl⟩

@[simp] theorem setState_fields (b : BlkState) (s : State) :
    (setState b s).bb = s.bb ∧ (setState b s).bc = s.bc ∧ (setState b s).ipos = s.ipos ∧
    (setState b s).win = s.win ∧ (setState b s).crc = s.crc ∧ (setState b s).count = s.count ∧
    (setState b s).clLens = s.clLens ∧ (setState b s).llLens = s.llLens ∧ (setState b s).llN = s.llN ∧
    (setState b s).dLens = s.dLens ∧ (setState b s).dN = s.dN ∧ (setState b s).scr = s.scr ∧
    (setState b s).acc = s.acc ∧ (setState b s).accn = s.accn ∧ (setState b s).st = b ∧
    (setState b s).bfinal = s.bfinal ∧ (setState b s).btype = s.btype ∧ (setState b s).hlit = s.hlit ∧
    (setState b s).hdist = s.hdist ∧ (setState b s).hclen = s.hclen ∧ (setState b s).idx = s.idx ∧
    (setState b s).slen = s.slen ∧ (setState b s).snlen = s.snlen ∧ (setState b s).rem = s.rem ∧
    (setState b s).sym = s.sym ∧ (setState b s).dsym = s.dsym ∧ (setState b s).mlen = s.mlen ∧
    (setState b s).mdist = s.mdist ∧ (setState b s).err = s.err ∧ (setState b s).done = s.done ∧
    (setState b s).awaitDist = s.awaitDist ∧ (setState b s).src = s.src ∧ (setState b s).snk = s.snk ∧
    (setState b s).snkFailAt = s.snkFailAt ∧ (setState b s).gz = s.gz :=
  ⟨rfl, rfl, rfl, rfl, rfl, rfl, rfl, rfl, rfl, rfl, rfl, rfl, rfl, rfl, rfl, rfl, rfl, rfl, rfl, rfl, rfl, rfl, rfl, rfl, rfl, rfl, rfl, rfl, rfl, rfl, rfl, rfl, rfl, rfl, rfl⟩

@[simp] theorem shiftIn_fields (b : Bool) (s : State) :
    (shiftIn b s).bb = s.bb ∧ (shiftIn b s).bc = s.bc ∧ (shiftIn b s).ipos = s.ipos ∧ (shiftIn b s).win = s.win ∧
    (shiftIn b s).crc = s.crc ∧ (shiftIn b s).count = s.count ∧ (shiftIn b s).clLens = s.clLens ∧
    (shiftIn b s).llLens = s.llLens ∧ (shiftIn b s).llN = s.llN ∧ (shiftIn b s).dLens = s.dLens ∧
    (shiftIn b s).dN = s.dN ∧ (shiftIn b s).scr = s.scr ∧
    (shiftIn b s).acc = (s.acc <<< 1) ||| (BitVec.ofBool b).setWidth 15 ∧ (shiftIn b s).accn = s.accn + 1 ∧
    (shiftIn b s).st = s.st ∧ (shiftIn b s).bfinal = s.bfinal ∧ (shiftIn b s).btype = s.btype ∧
    (shiftIn b s).hlit = s.hlit ∧ (shiftIn b s).hdist = s.hdist ∧ (shiftIn b s).hclen = s.hclen ∧
    (shiftIn b s).idx = s.idx ∧ (shiftIn b s).slen = s.slen ∧ (shiftIn b s).snlen = s.snlen ∧
    (shiftIn b s).rem = s.rem ∧ (shiftIn b s).sym = s.sym ∧ (shiftIn b s).dsym = s.dsym ∧
    (shiftIn b s).mlen = s.mlen ∧ (shiftIn b s).mdist = s.mdist ∧ (shiftIn b s).err = s.err ∧
    (shiftIn b s).done = s.done ∧ (shiftIn b s).awaitDist = s.awaitDist ∧ (shiftIn b s).src = s.src ∧
    (shiftIn b s).snk = s.snk ∧ (shiftIn b s).snkFailAt = s.snkFailAt ∧ (shiftIn b s).gz = s.gz :=
  ⟨rfl, rfl, rfl, rfl, rfl, rfl, rfl, rfl, rfl, rfl, rfl, rfl, rfl, rfl, rfl, rfl, rfl, rfl, rfl, rfl, rfl, rfl, rfl, rfl, rfl, rfl, rfl, rfl, rfl, rfl, rfl, rfl, rfl, rfl, rfl⟩

@[simp] theorem clearAcc_fields (s : State) :
    (clearAcc s).bb = s.bb ∧ (clearAcc s).bc = s.bc ∧ (clearAcc s).ipos = s.ipos ∧ (clearAcc s).win = s.win ∧
    (clearAcc s).crc = s.crc ∧ (clearAcc s).count = s.count ∧ (clearAcc s).clLens = s.clLens ∧
    (clearAcc s).llLens = s.llLens ∧ (clearAcc s).llN = s.llN ∧ (clearAcc s).dLens = s.dLens ∧
    (clearAcc s).dN = s.dN ∧ (clearAcc s).scr = s.scr ∧ (clearAcc s).acc = 0 ∧ (clearAcc s).accn = 0 ∧
    (clearAcc s).st = s.st ∧ (clearAcc s).bfinal = s.bfinal ∧ (clearAcc s).btype = s.btype ∧
    (clearAcc s).hlit = s.hlit ∧ (clearAcc s).hdist = s.hdist ∧ (clearAcc s).hclen = s.hclen ∧
    (clearAcc s).idx = s.idx ∧ (clearAcc s).slen = s.slen ∧ (clearAcc s).snlen = s.snlen ∧
    (clearAcc s).rem = s.rem ∧ (clearAcc s).sym = s.sym ∧ (clearAcc s).dsym = s.dsym ∧
    (clearAcc s).mlen = s.mlen ∧ (clearAcc s).mdist = s.mdist ∧ (clearAcc s).err = s.err ∧
    (clearAcc s).done = s.done ∧ (clearAcc s).awaitDist = s.awaitDist ∧ (clearAcc s).src = s.src ∧
    (clearAcc s).snk = s.snk ∧ (clearAcc s).snkFailAt = s.snkFailAt ∧ (clearAcc s).gz = s.gz :=
  ⟨rfl, rfl, rfl, rfl, rfl, rfl, rfl, rfl, rfl, rfl, rfl, rfl, rfl, rfl, rfl, rfl, rfl, rfl, rfl, rfl, rfl, rfl, rfl, rfl, rfl, rfl, rfl, rfl, rfl, rfl, rfl, rfl, rfl, rfl, rfl⟩

@[simp] theorem installFixed_fields (s : State) :
    (installFixed s).bb = s.bb ∧ (installFixed s).bc = s.bc ∧ (installFixed s).ipos = s.ipos ∧
    (installFixed s).win = s.win ∧ (installFixed s).crc = s.crc ∧ (installFixed s).count = s.count ∧
    (installFixed s).clLens = s.clLens ∧
    (installFixed s).llLens = writeRun s.llLens (fixedLLLens.map (BitVec.ofNat 4)) ∧ (installFixed s).llN = 288 ∧
    (installFixed s).dLens = writeRun s.dLens (fixedDLens.map (BitVec.ofNat 4)) ∧ (installFixed s).dN = 30 ∧
    (installFixed s).scr = s.scr ∧ (installFixed s).acc = s.acc ∧ (installFixed s).accn = s.accn ∧
    (installFixed s).st = .decodeSymbols ∧ (installFixed s).bfinal = s.bfinal ∧ (installFixed s).btype = s.btype ∧
    (installFixed s).hlit = s.hlit ∧ (installFixed s).hdist = s.hdist ∧ (installFixed s).hclen = s.hclen ∧
    (installFixed s).idx = s.idx ∧ (installFixed s).slen = s.slen ∧ (installFixed s).snlen = s.snlen ∧
    (installFixed s).rem = s.rem ∧ (installFixed s).sym = s.sym ∧ (installFixed s).dsym = s.dsym ∧
    (installFixed s).mlen = s.mlen ∧ (installFixed s).mdist = s.mdist ∧ (installFixed s).err = s.err ∧
    (installFixed s).done = s.done ∧ (installFixed s).awaitDist = false ∧ (installFixed s).src = s.src ∧
    (installFixed s).snk = s.snk ∧ (installFixed s).snkFailAt = s.snkFailAt ∧ (installFixed s).gz = s.gz :=
  ⟨rfl, rfl, rfl, rfl, rfl, rfl, rfl, rfl, rfl, rfl, rfl, rfl, rfl, rfl, rfl, rfl, rfl, rfl, rfl, rfl, rfl, rfl, rfl, rfl, rfl, rfl, rfl, rfl, rfl, rfl, rfl, rfl, rfl, rfl, rfl⟩

@[simp] theorem splitLens_fields (s : State) :
    (splitLens s).bb = s.bb ∧ (splitLens s).bc = s.bc ∧ (splitLens s).ipos = s.ipos ∧ (splitLens s).win = s.win ∧
    (splitLens s).crc = s.crc ∧ (splitLens s).count = s.count ∧ (splitLens s).clLens = s.clLens ∧
    (splitLens s).llLens = writeRun s.llLens (s.scr.toList.take s.hlit.toNat) ∧ (splitLens s).llN = s.hlit ∧
    (splitLens s).dLens = writeRun s.dLens ((s.scr.toList.drop s.hlit.toNat).take s.hdist.toNat) ∧
    (splitLens s).dN = s.hdist ∧ (splitLens s).scr = s.scr ∧ (splitLens s).acc = s.acc ∧
    (splitLens s).accn = s.accn ∧ (splitLens s).st = s.st ∧ (splitLens s).bfinal = s.bfinal ∧
    (splitLens s).btype = s.btype ∧ (splitLens s).hlit = s.hlit ∧ (splitLens s).hdist = s.hdist ∧
    (splitLens s).hclen = s.hclen ∧ (splitLens s).idx = s.idx ∧ (splitLens s).slen = s.slen ∧
    (splitLens s).snlen = s.snlen ∧ (splitLens s).rem = s.rem ∧ (splitLens s).sym = s.sym ∧
    (splitLens s).dsym = s.dsym ∧ (splitLens s).mlen = s.mlen ∧ (splitLens s).mdist = s.mdist ∧
    (splitLens s).err = s.err ∧ (splitLens s).done = s.done ∧ (splitLens s).awaitDist = s.awaitDist ∧
    (splitLens s).src = s.src ∧ (splitLens s).snk = s.snk ∧ (splitLens s).snkFailAt = s.snkFailAt ∧
    (splitLens s).gz = s.gz :=
  ⟨rfl, rfl, rfl, rfl, rfl, rfl, rfl, rfl, rfl, rfl, rfl, rfl, rfl, rfl, rfl, rfl, rfl, rfl, rfl, rfl, rfl, rfl, rfl, rfl, rfl, rfl, rfl, rfl, rfl, rfl, rfl, rfl, rfl, rfl, rfl⟩

@[simp] theorem setGz_fields (g : GzHost) (s : State) :
    (setGz g s).bb = s.bb ∧ (setGz g s).bc = s.bc ∧ (setGz g s).ipos = s.ipos ∧ (setGz g s).win = s.win ∧
    (setGz g s).crc = s.crc ∧ (setGz g s).count = s.count ∧ (setGz g s).clLens = s.clLens ∧
    (setGz g s).llLens = s.llLens ∧ (setGz g s).llN = s.llN ∧ (setGz g s).dLens = s.dLens ∧
    (setGz g s).dN = s.dN ∧ (setGz g s).scr = s.scr ∧ (setGz g s).acc = s.acc ∧ (setGz g s).accn = s.accn ∧
    (setGz g s).st = s.st ∧ (setGz g s).bfinal = s.bfinal ∧ (setGz g s).btype = s.btype ∧
    (setGz g s).hlit = s.hlit ∧ (setGz g s).hdist = s.hdist ∧ (setGz g s).hclen = s.hclen ∧
    (setGz g s).idx = s.idx ∧ (setGz g s).slen = s.slen ∧ (setGz g s).snlen = s.snlen ∧ (setGz g s).rem = s.rem ∧
    (setGz g s).sym = s.sym ∧ (setGz g s).dsym = s.dsym ∧ (setGz g s).mlen = s.mlen ∧
    (setGz g s).mdist = s.mdist ∧ (setGz g s).err = s.err ∧ (setGz g s).done = s.done ∧
    (setGz g s).awaitDist = s.awaitDist ∧ (setGz g s).src = s.src ∧ (setGz g s).snk = s.snk ∧
    (setGz g s).snkFailAt = s.snkFailAt ∧ (setGz g s).gz = g :=
  ⟨rfl, rfl, rfl, rfl, rfl, rfl, rfl, rfl, rfl, rfl, rfl, rfl, rfl, rfl, rfl, rfl, rfl, rfl, rfl, rfl, rfl, rfl, rfl, rfl, rfl, rfl, rfl, rfl, rfl, rfl, rfl, rfl, rfl, rfl, rfl⟩

/-- BLOCK_END before the last block changes STATE only. -/
theorem endBlock_of_not_final (s : State) (h : isFinal s = false) : endBlock s = setState .readBlockHeader s := by
  simp [endBlock, h]

/-- BLOCK_END of the last block. -/
theorem endBlock_of_final (s : State) (h : isFinal s = true) :
    endBlock s = { s with bb := 0, bc := 0, done := 1, st := .done } := by
  simp [endBlock, h, alignToByte]

@[simp] theorem resetCore_kept (s : State) :
    (resetCore s).src = s.src ∧ (resetCore s).snk = s.snk ∧ (resetCore s).snkFailAt = s.snkFailAt ∧
    (resetCore s).gz = s.gz ∧ (resetCore s).st = .start ∧ (resetCore s).err = 0 ∧ (resetCore s).done = 0 ∧
    (resetCore s).count = 0 ∧ (resetCore s).crc = Config.crcInit ∧ (resetCore s).win = [] ∧
    (resetCore s).bb = 0 ∧ (resetCore s).bc = 0 ∧ (resetCore s).ipos = 0 ∧ (resetCore s).awaitDist = false :=
  ⟨rfl, rfl, rfl, rfl, rfl, rfl, rfl, rfl, rfl, rfl, rfl, rfl, rfl, rfl⟩

end Sys2Proof.Machine
end

