-- ==== Sys2Proof/Laws/Ops.lean ====
section
/-! SUPPORT. How operations compose: the inversion of a sequence, the outcome of an element, and a calculus of what an
operation relates (`Relates`): a relation between the state before and after is proved of each basic operation once and
follows for every sequence. -/

namespace Sys2Proof.Machine

variable {α β : Type}

/-! ## Results of a sequence -/

@[simp] theorem pure_apply (a : α) (s : State) : Op.pure a s = .ok a s := rfl

@[simp] theorem modify_apply (g : State → State) (s : State) : Op.modify g s = .ok () (g s) := rfl

@[simp] theorem raise_apply (k : ErrKind) (s : State) : (raise k : Op α) s = .raised (takeError k s) := rfl

theorem bind_of_ok {x : Op α} {f : α → Op β} {s t : State} {a : α} (h : x s = .ok a t) : x.bind f s = f a t := by
  simp only [Op.bind, h]

theorem bind_of_raised {x : Op α} {f : α → Op β} {s t : State} (h : x s = .raised t) : x.bind f s = .raised t := by
  simp only [Op.bind, h]

theorem bind_of_fault {x : Op α} {f : α → Op β} {s : State} {e : Fault} (h : x s = .fault e) :
    x.bind f s = .fault e := by
  simp only [Op.bind, h]

theorem bind_of_refused {x : Op α} {f : α → Op β} {s : State} {r : Refusal} (h : x s = .refused r) :
    x.bind f s = .refused r := by
  simp only [Op.bind, h]

theorem andThen_of_ok {x : Op Unit} {y : Op β} {s t : State} (h : x s = .ok () t) : x.andThen y s = y t :=
  bind_of_ok h

@[simp] theorem modify_andThen (g : State → State) (y : Op β) (s : State) : (Op.modify g).andThen y s = y (g s) := rfl

/-- A sequence succeeds exactly when both parts do. -/
theorem bind_ok_iff {x : Op α} {f : α → Op β} {s u : State} {b : β} :
    x.bind f s = .ok b u ↔ ∃ a t, x s = .ok a t ∧ f a t = .ok b u := by
  simp only [Op.bind]
  cases h : x s <;> simp

/-- A sequence raises when its first part does, or its second after the first has succeeded. -/
theorem bind_raised_iff {x : Op α} {f : α → Op β} {s u : State} :
    x.bind f s = .raised u ↔ x s = .raised u ∨ ∃ a t, x s = .ok a t ∧ f a t = .raised u := by
  simp only [Op.bind]
  cases h : x s <;> simp

theorem bind_fault_iff {x : Op α} {f : α → Op β} {s : State} {e : Fault} :
    x.bind f s = .fault e ↔ x s = .fault e ∨ ∃ a t, x s = .ok a t ∧ f a t = .fault e := by
  simp only [Op.bind]
  cases h : x s <;> simp

theorem bind_refused_iff {x : Op α} {f : α → Op β} {s : State} {r : Refusal} :
    x.bind f s = .refused r ↔ x s = .refused r ∨ ∃ a t, x s = .ok a t ∧ f a t = .refused r := by
  simp only [Op.bind]
  cases h : x s <;> simp

/-- Sequencing is associative. -/
theorem bind_assoc {γ : Type} (x : Op α) (f : α → Op β) (g : β → Op γ) :
    (x.bind f).bind g = x.bind fun a => (f a).bind g := by
  funext s
  simp only [Op.bind]
  cases x s <;> rfl

theorem pure_bind (a : α) (f : α → Op β) : (Op.pure a).bind f = f a := rfl

theorem bind_pure (x : Op α) : (x.bind fun a => Op.pure a) = x := by
  funext s
  simp only [Op.bind, Op.pure]
  cases x s <;> rfl

/-! ## The outcome of an element -/

theorem run_next_iff {x : Op Unit} {s t : State} : Op.run x s = .next t ↔ x s = .ok () t ∨ x s = .raised t := by
  simp only [Op.run]
  cases h : x s <;> simp

theorem run_fault_iff {x : Op Unit} {s : State} {e : Fault} : Op.run x s = .fault e ↔ x s = .fault e := by
  simp only [Op.run]
  cases h : x s <;> simp

theorem run_refused_iff {x : Op Unit} {s : State} {r : Refusal} : Op.run x s = .refused r ↔ x s = .refused r := by
  simp only [Op.run]
  cases h : x s <;> simp

theorem run_of_ok {x : Op Unit} {s t : State} (h : x s = .ok () t) : Op.run x s = .next t :=
  run_next_iff.2 (.inl h)

theorem run_of_raised {x : Op Unit} {s t : State} (h : x s = .raised t) : Op.run x s = .next t :=
  run_next_iff.2 (.inr h)

@[simp] theorem run_modify (g : State → State) (s : State) : Op.run (Op.modify g) s = .next (g s) := rfl

@[simp] theorem run_raise (k : ErrKind) (s : State) : Op.run (raise k) s = .next (takeError k s) := rfl

/-! ## Relations between the state before and after -/

/-- `Q` holds between the state before `x` and the state after it where it succeeds, `E` where it raises. -/
def Relates (Q E : State → State → Prop) (x : Op α) : Prop :=
  ∀ s, (∀ a t, x s = .ok a t → Q s t) ∧ (∀ t, x s = .raised t → E s t)

/-- The kinds CORE raises (60_exceptions.md R350). -/
abbrev CoreKind (k : ErrKind) : Prop := errCode k ∈ ([5, 7, 8, 9, 10, 11, 12] : List (BitVec 4))

/-- What lets a pair of relations be followed through a sequence: `Q` holds of doing nothing and of two changes in a row,
`E` of a change and then a raise, and of a raise by CORE. -/
structure Closed (Q E : State → State → Prop) : Prop where
  refl : ∀ s, Q s s
  trans : ∀ s t u, Q s t → Q t u → Q s u
  fail : ∀ s t u, Q s t → E t u → E s u
  error : ∀ k s, CoreKind k → E s (takeError k s)

variable {Q E : State → State → Prop}

theorem Relates.pure (c : Closed Q E) (a : α) : Relates Q E (Op.pure a) := fun s =>
  ⟨fun _ _ h => (by cases h; exact c.refl s), fun _ h => (by cases h)⟩

theorem Relates.bind (c : Closed Q E) {x : Op α} {f : α → Op β} (hx : Relates Q E x)
    (hf : ∀ a, Relates Q E (f a)) : Relates Q E (x.bind f) := fun s => by
  refine ⟨fun b u h => ?_, fun u h => ?_⟩
  · obtain ⟨a, t, h1, h2⟩ := bind_ok_iff.1 h
    exact c.trans _ _ _ ((hx s).1 a t h1) ((hf a t).1 b u h2)
  · rcases bind_raised_iff.1 h with h | ⟨a, t, h1, h2⟩
    · exact (hx s).2 u h
    · exact c.fail _ _ _ ((hx s).1 a t h1) ((hf a t).2 u h2)

theorem Relates.andThen (c : Closed Q E) {x : Op Unit} {y : Op β} (hx : Relates Q E x) (hy : Relates Q E y) :
    Relates Q E (x.andThen y) :=
  Relates.bind c hx fun _ => hy

theorem Relates.modify {g : State → State} (h : ∀ s, Q s (g s)) : Relates Q E (Op.modify g) := fun s =>
  ⟨fun _ _ e => (by cases e; exact h s), fun _ e => (by cases e)⟩

theorem Relates.raise (c : Closed Q E) (k : ErrKind) (hk : CoreKind k) : Relates Q E (Machine.raise k : Op α) :=
  fun s => ⟨fun _ _ e => (by cases e), fun _ e => (by cases e; exact c.error k s hk)⟩

/-- An operation that looks at the state first. -/
theorem Relates.ofState {x : State → Op α} (h : ∀ s, Relates Q E (x s)) : Relates Q E fun s => x s s :=
  fun s => h s s

/-- What `x` relates holds between a state and the next one. -/
theorem Relates.run {x : Op Unit} (h : Relates Q E x) {s t : State} (e : Op.run x s = .next t) : Q s t ∨ E s t :=
  (run_next_iff.1 e).imp ((h s).1 _ t) ((h s).2 t)

/-- A property kept, as a relation. -/
def Kept (P : State → Prop) (s t : State) : Prop := P s → P t

/-! ## Taking an error -/

theorem errCode_ne_zero (k : ErrKind) : errCode k ≠ 0 := by cases k <;> decide

/-- After a raise there is an error. -/
theorem takeError_err_ne_zero (k : ErrKind) (s : State) : (takeError k s).err ≠ 0 := by
  rw [show (takeError k s).err = if s.err = 0 then errCode k else s.err from rfl]
  split
  · exact errCode_ne_zero k
  · assumption

/-- A second error does not change the state: `ERR` keeps the first (10_state.md R42). -/
theorem takeError_takeError (k l : ErrKind) (s : State) : takeError l (takeError k s) = takeError k s := by
  have h := takeError_err_ne_zero k s
  rw [takeError, if_neg h]
  rfl

/-- The code of every kind names it again (60_exceptions.md R350). -/
theorem errKind_errCode (k : ErrKind) : errKind (errCode k) = some k := by cases k <;> decide

end Sys2Proof.Machine
end

