-- ==== Sys2Proof/Laws/Input.lean ====
section
/-! SUPPORT. The byte source and the bit reader: everything one read can do, in terms of the bits ahead. -/

namespace Sys2Proof.Machine

/-! ## Fields as bits -/

@[simp] theorem length_numBits (w v : Nat) : (numBits w v).length = w := by
  induction w generalizing v with
  | zero => rfl
  | succ w ih => simp [numBits, ih]

@[simp] theorem length_codeBits (w v : Nat) : (codeBits w v).length = w := by simp [codeBits]

/-- Reading a field back (20_memory.md R67). -/
theorem numOfBits_numBits (w v : Nat) : numOfBits (numBits w v) = v % 2 ^ w := by
  induction w generalizing v with
  | zero => simp [numBits, numOfBits, Nat.mod_one]
  | succ w ih =>
    rw [numBits, numOfBits, ih, pow_succ, mul_comm (2 ^ w) 2, Nat.mod_mul]
    congr 1
    rcases Nat.mod_two_eq_zero_or_one v with h | h <;> simp [h]

/-- A field holds any bits. -/
theorem numBits_numOfBits (l : List Bool) : numBits l.length (numOfBits l) = l := by
  induction l with
  | nil => rfl
  | cons b l ih =>
    have h1 : (b.toNat + 2 * numOfBits l) / 2 = numOfBits l := by
      have : b.toNat ≤ 1 := by cases b <;> simp
      omega
    have h2 : ((b.toNat + 2 * numOfBits l) % 2 == 1) = b := by cases b <;> simp [Nat.add_mod]
    rw [List.length_cons, numOfBits, numBits, h1, h2, ih]

theorem numOfBits_lt (l : List Bool) : numOfBits l < 2 ^ l.length := by
  induction l with
  | nil => simp [numOfBits]
  | cons b l ih =>
    have : b.toNat ≤ 1 := by cases b <;> simp
    rw [numOfBits, List.length_cons, pow_succ]
    omega

/-! ## The source -/

/-- The two kinds a read can raise. -/
theorem srcEnd_cases (l : List SrcItem) : srcEnd l = .unexpectedEof ∨ srcEnd l = .ioError := by
  induction l with
  | nil => exact .inl rfl
  | cons d l ih =>
    cases d with
    | byte b => exact ih
    | ioErr => exact .inr rfl

theorem srcEnd_coreKind (l : List SrcItem) : CoreKind (srcEnd l) := by
  rcases srcEnd_cases l with h | h <;> rw [h] <;> decide

/-- Everything `SrcNext` can do. -/
theorem srcNext_cases (s : State) :
    (∃ b rest, s.src = .byte b :: rest ∧ s.ipos + 1 < Config.countLimit ∧
      srcNext s = .ok b { s with src := rest, ipos := s.ipos + 1 }) ∨
    (∃ b rest, s.src = .byte b :: rest ∧ ¬ s.ipos + 1 < Config.countLimit ∧ srcNext s = .refused .inputTooLong) ∨
    (s.src = [] ∧ srcNext s = .raised (takeError .unexpectedEof s)) ∨
    (∃ rest, s.src = .ioErr :: rest ∧ srcNext s = .raised (takeError .ioError s)) := by
  cases h : s.src with
  | nil => exact .inr (.inr (.inl ⟨rfl, by simp [srcNext, h]⟩))
  | cons d rest =>
    cases d with
    | byte b =>
      by_cases hr : s.ipos + 1 < Config.countLimit
      · exact .inl ⟨b, rest, rfl, hr, by simp [srcNext, h, hr]⟩
      · exact .inr (.inl ⟨b, rest, rfl, hr, by simp [srcNext, h, hr]⟩)
    | ioErr => exact .inr (.inr (.inr ⟨rest, rfl, by simp [srcNext, h]⟩))

/-- Where `SrcNext` succeeds. -/
theorem srcNext_ok {s t : State} {b : Byte} (h : srcNext s = .ok b t) :
    s.src = .byte b :: t.src ∧ t.ipos = s.ipos + 1 ∧ t = { s with src := t.src, ipos := t.ipos } := by
  rcases srcNext_cases s with ⟨c, rest, h1, -, h2⟩ | ⟨c, rest, -, -, h2⟩ | ⟨-, h2⟩ | ⟨rest, -, h2⟩ <;>
    rw [h2] at h <;> cases h
  exact ⟨h1, rfl, rfl⟩

/-- Where `SrcNext` raises, the state is the old one with the error. -/
theorem srcNext_raised {s t : State} (h : srcNext s = .raised t) :
    t = takeError (srcEnd s.src) s ∧ srcBits s.src = [] := by
  rcases srcNext_cases s with ⟨c, rest, h1, -, h2⟩ | ⟨c, rest, -, -, h2⟩ | ⟨h1, h2⟩ | ⟨rest, h1, h2⟩ <;>
    rw [h2] at h <;> cases h <;> rw [h1] <;> exact ⟨rfl, rfl⟩

theorem srcNext_fault (s : State) (e : Fault) : srcNext s ≠ .fault e := by
  rcases srcNext_cases s with ⟨c, rest, -, -, h2⟩ | ⟨c, rest, -, -, h2⟩ | ⟨-, h2⟩ | ⟨rest, -, h2⟩ <;> simp [h2]

theorem srcNext_refused {s : State} {r : Refusal} (h : srcNext s = .refused r) : r = .inputTooLong := by
  rcases srcNext_cases s with ⟨c, rest, -, -, h2⟩ | ⟨c, rest, -, -, h2⟩ | ⟨-, h2⟩ | ⟨rest, -, h2⟩ <;>
    rw [h2] at h <;> cases h
  rfl

/-! ## One bit -/

/-- With a bit in the buffer. -/
theorem readBit_of_buffer {s : State} (h : s.bc ≠ 0) : readBit s = .ok (s.bb.getLsbD 0) (shiftBit s) := by
  rw [readBit, if_neg h, takeBit]

/-- With the buffer empty, one byte is taken first. -/
theorem readBit_of_empty {s : State} (h : s.bc = 0) :
    readBit s = (srcNext.bind fun b => (Op.modify (loadByte b)).andThen takeBit) s := by
  rw [readBit, if_pos h]

/-- Everything `ReadBit` can do where it succeeds: shift the buffer, or take a byte into the empty buffer and shift. -/
theorem readBit_ok {s t : State} {b : Bool} (h : readBit s = .ok b t) :
    (s.bc ≠ 0 ∧ b = s.bb.getLsbD 0 ∧ t = shiftBit s) ∨
    (s.bc = 0 ∧ ∃ c rest, s.src = .byte c :: rest ∧ s.ipos + 1 < Config.countLimit ∧ b = c.getLsbD 0 ∧
      t = shiftBit (loadByte c { s with src := rest, ipos := s.ipos + 1 })) := by
  by_cases hc : s.bc = 0
  · right
    rw [readBit_of_empty hc] at h
    rcases srcNext_cases s with ⟨c, rest, h1, hr, h2⟩ | ⟨c, rest, -, -, h2⟩ | ⟨-, h2⟩ | ⟨rest, -, h2⟩
    · rw [bind_of_ok h2] at h
      cases h
      exact ⟨hc, c, rest, h1, hr, rfl, rfl⟩
    · rw [bind_of_refused h2] at h
      cases h
    · rw [bind_of_raised h2] at h
      cases h
    · rw [bind_of_raised h2] at h
      cases h
  · rw [readBit_of_buffer hc] at h
    cases h
    exact .inl ⟨hc, rfl, rfl⟩

/-- Where `ReadBit` raises, nothing was taken and no bit was ahead in the source. -/
theorem readBit_raised {s t : State} (h : readBit s = .raised t) :
    s.bc = 0 ∧ t = takeError (srcEnd s.src) s ∧ srcBits s.src = [] := by
  by_cases hc : s.bc = 0
  · rw [readBit_of_empty hc] at h
    rcases bind_raised_iff.1 h with h | ⟨a, u, -, h⟩
    · exact ⟨hc, srcNext_raised h⟩
    · cases h
  · rw [readBit_of_buffer hc] at h
    cases h

theorem readBit_fault (s : State) (e : Fault) : readBit s ≠ .fault e := by
  intro h
  by_cases hc : s.bc = 0
  · rw [readBit_of_empty hc] at h
    rcases bind_fault_iff.1 h with h | ⟨a, u, -, h⟩
    · exact srcNext_fault s e h
    · cases h
  · rw [readBit_of_buffer hc] at h
    cases h

theorem readBit_refused {s : State} {r : Refusal} (h : readBit s = .refused r) : r = .inputTooLong := by
  by_cases hc : s.bc = 0
  · rw [readBit_of_empty hc] at h
    rcases bind_refused_iff.1 h with h | ⟨a, u, -, h⟩
    · exact srcNext_refused h
    · cases h
  · rw [readBit_of_buffer hc] at h
    cases h

/-- Shifting a buffer that holds `n + 1` bits. -/
theorem shiftBit_ok {s : State} (n : Nat) (hc : s.bc.toNat = n + 1) (hn : n ≤ 7) (hb : s.bb.toNat < 2 ^ (n + 1)) :
    BitReaderOk (shiftBit s) ∧
    numBits (n + 1) s.bb.toNat = s.bb.getLsbD 0 :: numBits (shiftBit s).bc.toNat (shiftBit s).bb.toNat := by
  have e1 : (shiftBit s).bc.toNat = n := by
    simp only [shiftBit_fields, BitVec.toNat_sub, hc]
    simp
    omega
  have e2 : (shiftBit s).bb.toNat = s.bb.toNat / 2 := by
    simp [BitVec.toNat_ushiftRight, Nat.shiftRight_eq_div_pow]
  have e3 : (s.bb.toNat % 2 == 1) = s.bb.getLsbD 0 := by
    rw [BitVec.getLsbD, Nat.testBit_zero]
    rcases Nat.mod_two_eq_zero_or_one s.bb.toNat with h | h <;> simp [h]
  refine ⟨⟨by omega, ?_⟩, ?_⟩
  · rw [e1, e2]
    rw [pow_succ] at hb
    omega
  · rw [e1, e2, numBits, e3]

/-- `ReadBit` in terms of the bits ahead: the first of them, the rest stays ahead. -/
theorem readBit_of_bits {s : State} {b : Bool} {bits : List Bool} (hs : BitReaderOk s) (hr : RoomIn s 1)
    (h : bitsAhead s = b :: bits) :
    ∃ t, readBit s = .ok b t ∧ bitsAhead t = bits ∧ BitReaderOk t ∧ InputOnly s t ∧
      8 * t.ipos + s.bc.toNat = 8 * s.ipos + 1 + t.bc.toNat ∧ t.ipos ≤ s.ipos + 1 ∧
      t.ipos + t.src.length = s.ipos + s.src.length := by
  obtain ⟨h7, hb⟩ := hs
  by_cases hc : s.bc = 0
  · have hz : s.bc.toNat = 0 := by simp [hc]
    rw [bitsAhead, hz, numBits, List.nil_append] at h
    rcases srcNext_cases s with ⟨c, rest, h1, hr, h2⟩ | ⟨c, rest, -, h2, -⟩ | ⟨h2, -⟩ | ⟨rest, h2, -⟩
    · rw [h1, srcBits, byteBits] at h
      obtain ⟨ho, hn⟩ := shiftBit_ok (s := loadByte c { s with src := rest, ipos := s.ipos + 1 }) 7
        (by simp) (le_refl 7) (by simpa using c.isLt)
      have hn' : numBits 8 c.toNat = c.getLsbD 0 :: _ := hn
      rw [hn', List.cons_append, List.cons.injEq] at h
      refine ⟨_, by rw [readBit_of_empty hc, bind_of_ok h2]; exact congrArg (Res.ok · _) h.1, h.2, ho, ?_, ?_, ?_, ?_⟩
      · rfl
      · simp [hz]
        omega
      · simp
      · simp [h1]
        omega
    · exact absurd hr h2
    · simp [h2, srcBits] at h
    · simp [h2, srcBits] at h
  · obtain ⟨n, hn⟩ : ∃ n, s.bc.toNat = n + 1 := ⟨s.bc.toNat - 1, by
      have : s.bc.toNat ≠ 0 := fun e => hc (BitVec.eq_of_toNat_eq (by simpa using e))
      omega⟩
    rw [hn] at hb
    obtain ⟨ho, hb'⟩ := shiftBit_ok n hn (by omega) hb
    rw [bitsAhead, hn, hb', List.cons_append, List.cons.injEq] at h
    refine ⟨shiftBit s, by rw [readBit_of_buffer hc, h.1], h.2, ho, rfl, ?_, by simp, by simp⟩
    have : (shiftBit s).bc.toNat = n := by
      simp only [shiftBit_fields, BitVec.toNat_sub, hn]
      simp
      omega
    simp only [shiftBit_fields] at this ⊢
    omega

/-- `ReadBit` with no bits ahead: the buffer is empty and it raises. -/
theorem readBit_of_none {s : State} (h : bitsAhead s = []) :
    s.bc = 0 ∧ readBit s = .raised (takeError (srcEnd s.src) s) := by
  have hl := congrArg List.length h
  simp only [bitsAhead, List.length_append, length_numBits, List.length_nil, Nat.add_eq_zero_iff] at hl
  have hc : s.bc = 0 := BitVec.eq_of_toNat_eq (by simpa using hl.1)
  refine ⟨hc, ?_⟩
  rw [readBit_of_empty hc]
  rcases srcNext_cases s with ⟨c, rest, h1, -, -⟩ | ⟨c, rest, h1, -, -⟩ | ⟨h1, h2⟩ | ⟨rest, h1, h2⟩
  · simp [h1, srcBits, byteBits] at hl
  · simp [h1, srcBits, byteBits] at hl
  · rw [bind_of_raised h2, h1]
    rfl
  · rw [bind_of_raised h2, h1]
    rfl

/-- A read keeps the bit reader sound, whatever the state was. -/
theorem readBit_keeps_ok {s t : State} {b : Bool} (hs : BitReaderOk s) (h : readBit s = .ok b t) : BitReaderOk t := by
  rcases readBit_ok h with ⟨hc, -, rfl⟩ | ⟨hc, c, rest, -, -, -, rfl⟩
  · obtain ⟨n, hn⟩ : ∃ n, s.bc.toNat = n + 1 := ⟨s.bc.toNat - 1, by
      have : s.bc.toNat ≠ 0 := fun e => hc (BitVec.eq_of_toNat_eq (by simpa using e))
      omega⟩
    have := hs.1
    exact (shiftBit_ok n hn (by omega) (hn ▸ hs.2)).1
  · exact (shiftBit_ok (s := loadByte c _) 7 (by simp) (le_refl 7) (by simpa using c.isLt)).1

/-! ## Fields -/

/-- The value of a field has as many bits as were read. -/
theorem readBitsFrom_lt {k i v r : Nat} {s t : State} (hv : v < 2 ^ i) (h : readBitsFrom k i v s = .ok r t) :
    r < 2 ^ (i + k) := by
  induction k generalizing i v s with
  | zero =>
    cases h
    simpa using hv
  | succ k ih =>
    obtain ⟨b, u, -, h⟩ := bind_ok_iff.1 h
    have := ih (i := i + 1) (v := v ||| (b.toNat <<< i)) (s := u) ?_ h
    · rwa [show i + (k + 1) = i + 1 + k by omega]
    · refine Nat.or_lt_two_pow (lt_trans hv (by simp [pow_succ])) ?_
      have : b.toNat ≤ 1 := by cases b <;> simp
      rw [Nat.shiftLeft_eq, pow_succ, mul_comm]
      exact lt_of_le_of_lt (Nat.mul_le_mul_left _ this) (by have := Nat.two_pow_pos i; omega)

theorem readBits_lt {n r : Nat} {s t : State} (h : readBits n s = .ok r t) : r < 2 ^ n := by
  rw [readBits] at h
  split at h
  · simpa using readBitsFrom_lt (by simp) h
  · cases h

theorem readBits_of_le {n : Nat} (h : n ≤ 32) (s : State) : readBits n s = readBitsFrom n 0 0 s := by
  rw [readBits, if_pos (by simpa [Config.maxRead] using h)]

/-- What every bit read relates, every field read relates. -/
theorem Relates.readBitsFrom {Q E : State → State → Prop} (c : Closed Q E) (h : Relates Q E readBit) (k i v : Nat) :
    Relates Q E (readBitsFrom k i v) := by
  induction k generalizing i v with
  | zero => exact Relates.pure c v
  | succ k ih => exact Relates.bind c h fun b => ih _ _

theorem Relates.readBits {Q E : State → State → Prop} (c : Closed Q E) (h : Relates Q E readBit) (n : Nat) :
    Relates Q E (readBits n) := by
  intro s
  rw [Machine.readBits]
  split
  · exact Relates.readBitsFrom c h n 0 0 s
  · exact ⟨fun _ _ e => (by cases e), fun _ e => (by cases e)⟩

end Sys2Proof.Machine
end

