-- ==== Sys2Proof/Laws/Huffman.lean ====
section
/-! SUPPORT. The canonical construction, entry by entry, and the decode loop. -/

namespace Sys2Proof

/-! ## The construction -/

theorem huffBuild_some {lens : List Nat} {T : List CodeEntry} (h : huffBuild lens = some T) :
    (∀ L ∈ lens, L ≤ 15) ∧ overSubscribed lens = false ∧
    T = assignCodes 0 lens ((List.range (Config.maxBits + 1)).map (firstCode lens)) := by
  rw [huffBuild] at h
  split at h
  · cases h
  · rename_i h1
    split at h
    · cases h
    · rename_i h2
      refine ⟨fun L hL => ?_, by simpa using h2, by simpa using h.symm⟩
      simp only [List.any_eq_true, decide_eq_true_eq, not_exists, not_and] at h1
      have := h1 L hL
      simp only [Config.maxBits] at this
      omega

theorem huffBuild_isSome_iff (lens : List Nat) :
    (huffBuild lens).isSome = true ↔ (∀ L ∈ lens, L ≤ 15) ∧ overSubscribed lens = false := by
  constructor
  · intro h
    obtain ⟨T, hT⟩ := Option.isSome_iff_exists.1 h
    exact ⟨(huffBuild_some hT).1, (huffBuild_some hT).2.1⟩
  · rintro ⟨h1, h2⟩
    have : lens.any (fun L => decide (Config.maxBits < L)) = false := by
      simp only [List.any_eq_false, decide_eq_true_eq, not_lt]
      exact h1
    rw [huffBuild, if_neg (by simp [this]), if_neg (by simp [h2])]
    rfl

/-- `first[L]` of 42_huffman.md R170, in closed form. -/
theorem firstCode_succ (lens : List Nat) (L : Nat) :
    firstCode lens (L + 1) = 2 * (firstCode lens L + lenCount lens L) := by
  rw [firstCode, Nat.shiftLeft_eq]
  omega

/-- No length is over budget (R172). -/
theorem code_fits {lens : List Nat} (h : overSubscribed lens = false) {L : Nat} (h1 : 1 ≤ L) (h2 : L ≤ 15) :
    firstCode lens L + lenCount lens L ≤ 2 ^ L := by
  simp only [overSubscribed, List.any_eq_false, decide_eq_true_eq, not_lt] at h
  exact h L (by simp only [List.mem_range'_1, Config.maxBits]; omega)

/-- Every entry the assignment makes: its symbol, its length, and its place among the codes of that length
(R170, R174). -/
theorem mem_assignCodes {lens : List Nat} {s : Nat} {next : List Nat} (hn : ∀ L ∈ lens, L < next.length)
    {e : CodeEntry} :
    e ∈ assignCodes s lens next ↔ ∃ n, e.sym = s + n ∧ lens[n]? = some e.len ∧ e.len ≠ 0 ∧
      e.code = next.getD e.len 0 + (lens.take n).count e.len := by
  induction lens generalizing s next with
  | nil => simp [assignCodes]
  | cons L lens ih =>
    have hL : L < next.length := hn L (by simp)
    have hr : ∀ M ∈ lens, M < next.length := fun M hM => hn M (by simp [hM])
    -- the entries after the first symbol, with `next'` the counters at that point
    have key : ∀ next' : List Nat, next'.length = next.length →
        (∀ M, M ≠ 0 → next'.getD M 0 = next.getD M 0 + if L = M then 1 else 0) →
        (e ∈ assignCodes (s + 1) lens next' ↔ ∃ n, e.sym = s + (n + 1) ∧ (L :: lens)[n + 1]? = some e.len ∧
          e.len ≠ 0 ∧ e.code = next.getD e.len 0 + ((L :: lens).take (n + 1)).count e.len) := by
      intro next' hl hg
      rw [ih (by simpa [hl] using hr)]
      refine exists_congr fun n => ?_
      rw [show s + (n + 1) = s + 1 + n by omega, List.getElem?_cons_succ, List.take_succ_cons, List.count_cons]
      refine and_congr_right fun _ => and_congr_right fun _ => and_congr_right fun h0 => ?_
      rw [hg _ h0]
      simp only [beq_iff_eq]
      constructor <;> intro h <;> omega
    rw [assignCodes]
    split
    · rename_i h0
      subst h0
      rw [key next rfl (fun M hM => by simp [Ne.symm hM])]
      constructor
      · rintro ⟨n, h⟩
        exact ⟨n + 1, h⟩
      · rintro ⟨n, h1, h2, h3, h4⟩
        cases n with
        | zero => exact absurd (by simpa using h2.symm) h3
        | succ n => exact ⟨n, h1, h2, h3, h4⟩
    · rename_i h0
      rw [List.mem_cons, key (next.set L (next.getD L 0 + 1)) (by simp) (fun M _ => by
        simp only [List.getD_eq_getElem?_getD, List.getElem?_set]
        by_cases hM : L = M
        · subst hM
          simp [hL]
        · simp [hM])]
      constructor
      · rintro (rfl | ⟨n, h⟩)
        · exact ⟨0, by simp, by simp, h0, by simp⟩
        · exact ⟨n + 1, h⟩
      · rintro ⟨n, h1, h2, h3, h4⟩
        cases n with
        | zero =>
          left
          have hl : e.len = L := by simpa using h2.symm
          cases e
          simp only at hl h1 h4
          subst hl h1 h4
          simp
        | succ n => exact .inr ⟨n, h1, h2, h3, h4⟩

/-- The entries of a built table (R170, R174). -/
theorem mem_huffBuild {lens : List Nat} {T : List CodeEntry} (h : huffBuild lens = some T) {e : CodeEntry} :
    e ∈ T ↔ lens[e.sym]? = some e.len ∧ e.len ≠ 0 ∧
      e.code = firstCode lens e.len + (lens.take e.sym).count e.len := by
  obtain ⟨h15, -, rfl⟩ := huffBuild_some h
  rw [mem_assignCodes (by
    intro L hL
    have := h15 L hL
    simp [Config.maxBits]
    omega)]
  have hg : ∀ n : Nat, lens[n]? = some e.len →
      ((List.range (Config.maxBits + 1)).map (firstCode lens)).getD e.len 0 = firstCode lens e.len := by
    intro n hn
    have := h15 _ (List.mem_of_getElem? hn)
    rw [List.getD_eq_getElem?_getD, List.getElem?_map, List.getElem?_range (by simp [Config.maxBits]; omega)]
    rfl
  constructor
  · rintro ⟨n, h1, h2, h3, h4⟩
    rw [Nat.zero_add] at h1
    rw [h1]
    exact ⟨h2, h3, by rw [h4, hg n h2]⟩
  · rintro ⟨h2, h3, h4⟩
    exact ⟨e.sym, by simp, h2, h3, by rw [h4, hg _ h2]⟩

/-- What a lookup finds is an entry (R170). -/
theorem lookupCode_some {T : List CodeEntry} {len code n : Nat} (h : lookupCode T len code = some n) :
    ⟨len, code, n⟩ ∈ T := by
  simp only [lookupCode, Option.map_eq_some_iff] at h
  obtain ⟨e, he, rfl⟩ := h
  have h1 := List.find?_some he
  simp only [Bool.and_eq_true, beq_iff_eq] at h1
  obtain ⟨rfl, rfl⟩ := h1
  exact List.mem_of_find?_eq_some he

end Sys2Proof

namespace Sys2Proof.Machine

/-! ## The decode -/

/-- `HuffDecode` finds only symbols of the table (42_huffman.md R175). -/
theorem huffLoop_mem {T : List CodeEntry} {k n : Nat} {s t : State} (h : huffLoop T k s = .ok n t) :
    ∃ len code, (⟨len, code, n⟩ : CodeEntry) ∈ T := by
  induction k generalizing s with
  | zero => cases h
  | succ k ih =>
    obtain ⟨b, u, -, h⟩ := bind_ok_iff.1 h
    rw [modify_andThen] at h
    split at h
    · rename_i m hm
      cases h
      exact ⟨_, _, lookupCode_some hm⟩
    · exact ih h

/-- A decoded symbol number is below the number of code lengths. -/
theorem huffDecode_lt {lens : List Nat} {n : Nat} {s t : State} (h : huffDecode lens s = .ok n t) :
    n < lens.length := by
  rw [huffDecode] at h
  split at h
  · cases h
  · rename_i T hT
    obtain ⟨len, code, hm⟩ := huffLoop_mem h
    exact (List.getElem?_eq_some_iff.1 ((mem_huffBuild hT).1 hm).1).1

/-- Everything `HuffBuild` used for its fault can do. -/
theorem buildTable_cases (lens : List Nat) (s : State) :
    ((huffBuild lens).isSome = true ∧ buildTable lens s = .ok () s) ∨
    (huffBuild lens = none ∧ buildTable lens s = .raised (takeError .invalidHuffmanTree s)) := by
  cases h : huffBuild lens with
  | none => exact .inr ⟨rfl, by simp [buildTable, h]⟩
  | some T => exact .inl ⟨rfl, by simp [buildTable, h]⟩

/-- What every bit read and every write of ACC and ACCN relates, a decode relates. -/
theorem Relates.huffLoop {Q E : State → State → Prop} (c : Closed Q E) (hb : Relates Q E readBit)
    (ha : ∀ b s, Q s (shiftIn b s)) (T : List CodeEntry) (k : Nat) : Relates Q E (huffLoop T k) := by
  induction k with
  | zero => exact Relates.raise c _ (by decide)
  | succ k ih =>
    refine Relates.bind c hb fun b => Relates.andThen c (Relates.modify (ha b)) fun s => ?_
    split
    · exact Relates.pure c _ s
    · exact ih s

theorem Relates.huffDecode {Q E : State → State → Prop} (c : Closed Q E) (hb : Relates Q E readBit)
    (ha : ∀ b s, Q s (shiftIn b s)) (hc : ∀ s, Q s (clearAcc s)) (lens : List Nat) :
    Relates Q E (huffDecode lens) := by
  intro s
  rw [Machine.huffDecode]
  split
  · exact Relates.raise c _ (by decide) s
  · rename_i T hT
    exact Relates.andThen c (Relates.modify hc) (Relates.huffLoop c hb ha T Config.maxBits) s

end Sys2Proof.Machine
end

