-- ==== Sys2Proof/Laws/Output.lean ====
section
/-! SUPPORT. The tracking writer: everything one written byte, a copy and a match can do. -/

namespace Sys2Proof.Machine

/-! ## One byte -/

/-- Everything `WriteByte` can do. -/
theorem writeByte_cases (b : Byte) (s : State) :
    (s.snkFailAt = some s.count ∧ writeByte b s = .raised (takeError .ioError s)) ∨
    (s.snkFailAt ≠ some s.count ∧ s.count + 1 < Config.countLimit ∧ writeByte b s = .ok () (putByte b s)) ∨
    (s.snkFailAt ≠ some s.count ∧ ¬ s.count + 1 < Config.countLimit ∧ writeByte b s = .refused .outputTooLong) := by
  by_cases h : s.snkFailAt = some s.count
  · exact .inl ⟨h, by simp [writeByte, h]⟩
  · by_cases hc : s.count + 1 < Config.countLimit
    · exact .inr (.inl ⟨h, hc, by simp [writeByte, h, hc]⟩)
    · exact .inr (.inr ⟨h, hc, by simp [writeByte, h, hc]⟩)

theorem writeByte_ok {b : Byte} {s t : State} (h : writeByte b s = .ok () t) :
    t = putByte b s ∧ s.snkFailAt ≠ some s.count ∧ s.count + 1 < Config.countLimit := by
  rcases writeByte_cases b s with ⟨-, h2⟩ | ⟨h1, hc, h2⟩ | ⟨-, -, h2⟩ <;> rw [h2] at h <;> cases h
  exact ⟨rfl, h1, hc⟩

theorem writeByte_raised {b : Byte} {s t : State} (h : writeByte b s = .raised t) :
    t = takeError .ioError s ∧ s.snkFailAt = some s.count := by
  rcases writeByte_cases b s with ⟨h1, h2⟩ | ⟨-, -, h2⟩ | ⟨-, -, h2⟩ <;> rw [h2] at h <;> cases h
  exact ⟨rfl, h1⟩

theorem writeByte_fault (b : Byte) (s : State) (e : Fault) : writeByte b s ≠ .fault e := by
  rcases writeByte_cases b s with ⟨-, h⟩ | ⟨-, -, h⟩ | ⟨-, -, h⟩ <;> simp [h]

theorem writeByte_refused {b : Byte} {s : State} {r : Refusal} (h : writeByte b s = .refused r) :
    r = .outputTooLong := by
  rcases writeByte_cases b s with ⟨-, h2⟩ | ⟨-, -, h2⟩ | ⟨-, -, h2⟩ <;> rw [h2] at h <;> cases h
  rfl

/-- With room in the sink and in COUNT the byte is written. -/
theorem writeByte_of_room {b : Byte} {s : State} {n : Nat} (h : RoomOut s (n + 1)) :
    writeByte b s = .ok () (putByte b s) ∧ RoomOut (putByte b s) n := by
  obtain ⟨hc, hf⟩ := h
  rcases writeByte_cases b s with ⟨h1, -⟩ | ⟨-, -, h2⟩ | ⟨-, h1, -⟩
  · exact absurd (hf _ h1) (by omega)
  · refine ⟨h2, by simp only [putByte_fields]; omega, fun k hk => ?_⟩
    have := hf k hk
    simp only [putByte_fields]
    rcases this with h | h
    · left; omega
    · right; omega
  · exact absurd hc (by omega)

/-- One byte keeps the history: it is appended, CRC, COUNT and WIN follow (41_tracking_writer.md R150, R151). -/
theorem putByte_outputIs {s : State} {pre out : List Byte} (b : Byte) (h : OutputIs s pre out) :
    OutputIs (putByte b s) pre (out ++ [b]) := by
  obtain ⟨h1, h2, h3, h4⟩ := h
  refine ⟨by simp [h1], by simp [h2], by simp [h3, crcAfter, List.foldl_append], fun k hk hw => ?_⟩
  simp only [putByte_fields] at hk hw ⊢
  rw [Memory.read_write]
  have hpos : 0 < Config.wsize := by decide
  by_cases hkc : k = s.count
  · rw [if_pos (by rw [hkc]), hkc, h2, List.getElem?_append_right (le_refl _)]
    simp
  · rw [if_neg, h4 k (by omega) (by omega), List.getElem?_append_left (by omega)]
    intro e
    have h5 := Nat.sub_mod_eq_zero_of_mod_eq e.symm
    have h6 : s.count - k < Config.wsize := by omega
    rw [Nat.mod_eq_of_lt h6] at h5
    omega

theorem putByte_outputOk {s : State} (b : Byte) (h : OutputOk s) : OutputOk (putByte b s) := by
  obtain ⟨pre, out, h⟩ := h
  exact ⟨pre, out ++ [b], putByte_outputIs b h⟩

/-- With a consistent history, the window read of a legal distance gives the output byte that far back. -/
theorem window_read {s : State} {pre out : List Byte} {dist : Nat} (h : OutputIs s pre out) (h1 : 1 ≤ dist)
    (h2 : dist ≤ min Config.wsize s.count) :
    ∃ b, Memory.read s.win ((s.count - dist) % Config.wsize) = some b ∧ out[s.count - dist]? = some b := by
  obtain ⟨-, hc, -, hw⟩ := h
  have hl : s.count - dist < out.length := by omega
  refine ⟨out[s.count - dist], ?_, List.getElem?_eq_getElem hl⟩
  rw [hw _ (by omega) (by omega), List.getElem?_eq_getElem hl]

/-! ## Copies -/

/-- One iteration of the copy loop, where the window has the byte and the sink takes it. -/
theorem copyBack_step {s : State} {k dist : Nat} {b : Byte}
    (h : Memory.read s.win ((s.count - dist) % Config.wsize) = some b)
    (hw : writeByte b s = .ok () (putByte b s)) : copyBack (k + 1) dist s = copyBack k dist (putByte b s) := by
  simp only [copyBack, h]
  exact andThen_of_ok hw

/-- Everything `WritePrevious` can do. -/
theorem writePrevious_cases (len dist : Nat) (s : State) :
    (dist = 0 ∧ writePrevious len dist s = .refused .zeroDistance) ∨
    (dist ≠ 0 ∧ min Config.wsize s.count < dist ∧
      writePrevious len dist s = .raised (takeError .invalidDistance s)) ∨
    (dist ≠ 0 ∧ dist ≤ min Config.wsize s.count ∧ writePrevious len dist s = copyBack len dist s) := by
  by_cases h : dist = 0
  · exact .inl ⟨h, by rw [writePrevious, if_pos h]⟩
  · by_cases h2 : min Config.wsize s.count < dist
    · exact .inr (.inl ⟨h, h2, by rw [writePrevious, if_neg h, if_pos h2]; rfl⟩)
    · exact .inr (.inr ⟨h, by omega, by rw [writePrevious, if_neg h, if_neg h2]⟩)

/-- What every written byte relates, every run of bytes relates. -/
theorem Relates.writeBytes {Q E : State → State → Prop} (c : Closed Q E) (h : ∀ b, Relates Q E (writeByte b))
    (bs : List Byte) : Relates Q E (writeBytes bs) := by
  induction bs with
  | nil => exact Relates.pure c ()
  | cons b bs ih => exact Relates.andThen c (h b) ih

theorem Relates.copyBack {Q E : State → State → Prop} (c : Closed Q E) (h : ∀ b, Relates Q E (writeByte b))
    (k dist : Nat) : Relates Q E (copyBack k dist) := by
  induction k with
  | zero => exact Relates.pure c ()
  | succ k ih =>
    intro s
    simp only [Machine.copyBack]
    split
    · exact ⟨fun _ _ e => (by cases e), fun _ e => (by cases e)⟩
    · exact Relates.andThen c (h _) ih s

theorem Relates.writePrevious {Q E : State → State → Prop} (c : Closed Q E) (h : ∀ b, Relates Q E (writeByte b))
    (len dist : Nat) : Relates Q E (writePrevious len dist) := by
  intro s
  rcases writePrevious_cases len dist s with ⟨-, h2⟩ | ⟨-, -, h2⟩ | ⟨-, -, h2⟩ <;> rw [h2]
  · exact ⟨fun _ _ e => (by cases e), fun _ e => (by cases e)⟩
  · exact ⟨fun _ _ e => (by cases e), fun _ e => (by cases e; exact c.error _ s (by decide))⟩
  · exact Relates.copyBack c h len dist s

end Sys2Proof.Machine
end

