-- ==== Sys2Proof/Laws/Blocks.lean ====
section
/-! SUPPORT. The operations of block headers and of the code-length sequence: runs of lengths, the tests, the split. -/

namespace Sys2Proof.Machine

/-! ## Runs over an array -/

theorem overwrite_eq {α : Type} (xs as : List α) (h : xs.length ≤ as.length) :
    overwrite xs as = xs ++ as.drop xs.length := by
  induction xs generalizing as with
  | nil => rfl
  | cons x xs ih =>
    cases as with
    | nil => simp at h
    | cons a as =>
      rw [overwrite, ih as (by simpa using h)]
      rfl

/-- A run that fits is written from index 0, the entries above it are kept. -/
theorem writeRun_toList {w n : Nat} (A : Vector (BitVec w) n) (xs : List (BitVec w)) (h : xs.length ≤ n) :
    (writeRun A xs).toList = xs ++ A.toList.drop xs.length := by
  show (overwrite xs A.toList).toArray.toList = _
  rw [List.toList_toArray, overwrite_eq _ _ (by simpa using h)]

/-- The entries in force after a run of exactly that many has been written. -/
theorem writeRun_take {w n : Nat} (A : Vector (BitVec w) n) (xs : List (BitVec w)) (h : xs.length ≤ n) :
    (writeRun A xs).toList.take xs.length = xs := by
  rw [writeRun_toList A xs h, List.take_append_of_le_length (le_refl _), List.take_length]

/-! ## The code-length sequence -/

/-- Setting entry `i` and then a run of `r` after it is setting a run of `r + 1` at `i`. -/
theorem run_after_set {α : Type} {i : Nat} (l : List α) (v : α) (r : Nat) (h : i < l.length) :
    (l.set i v).take (i + 1) ++ List.replicate r v ++ (l.set i v).drop (i + 1 + r) =
    l.take i ++ List.replicate (r + 1) v ++ l.drop (i + (r + 1)) := by
  have h1 : (l.set i v).take (i + 1) = l.take i ++ [v] := by
    rw [List.take_add_one, List.take_set_of_le (le_refl i), List.getElem?_set_self h]
    rfl
  rw [h1, List.drop_set_of_lt (by omega), List.replicate_succ, show i + 1 + r = i + (r + 1) by omega]
  simp

theorem pushLens_succ (v : BitVec 4) (r : Nat) (s : State) : pushLens v (r + 1) s = pushLens v r (pushLen v s) := rfl

/-- `r` lengths appended: IDX, every entry of SCR, and nothing else (43_blocks.md R206 to R209). -/
theorem pushLens_effect (v : BitVec 4) (r : Nat) (s : State) (h : s.idx.toNat + r ≤ 320) :
    (pushLens v r s).idx.toNat = s.idx.toNat + r ∧
    (pushLens v r s).scr.toList =
      s.scr.toList.take s.idx.toNat ++ List.replicate r v ++ s.scr.toList.drop (s.idx.toNat + r) ∧
    pushLens v r s = { s with scr := (pushLens v r s).scr, idx := (pushLens v r s).idx } := by
  induction r generalizing s with
  | zero => simp [pushLens]
  | succ r ih =>
    have hi : (pushLen v s).idx.toNat = s.idx.toNat + 1 := by
      simp only [pushLen_fields, BitVec.toNat_add]
      simp
      omega
    obtain ⟨h1, h2, h3⟩ := ih (pushLen v s) (by omega)
    rw [pushLens_succ]
    refine ⟨by omega, ?_, ?_⟩
    · rw [h2, hi]
      simp only [pushLen_fields, Vector.toList_setIfInBounds]
      exact run_after_set s.scr.toList v r (by rw [Vector.length_toList]; omega)
    · rw [h3]
      rfl

/-- Everything `Repeat` can do (43_blocks.md R210). -/
theorem repeatLen_cases (v : BitVec 4) (r : Nat) (s : State) :
    (lensWanted s < s.idx.toNat + r ∧ repeatLen v r s = .raised (takeError .invalidHuffmanTree s)) ∨
    (s.idx.toNat + r ≤ lensWanted s ∧ repeatLen v r s = .ok () (pushLens v r s)) := by
  by_cases h : lensWanted s < s.idx.toNat + r
  · exact .inl ⟨h, by rw [repeatLen, if_pos h]; rfl⟩
  · exact .inr ⟨by omega, by rw [repeatLen, if_neg h]⟩

/-- Everything the test before symbol 16 can do (43_blocks.md R207). -/
theorem needPrevLen_cases (s : State) :
    (hasPrevLen s = true ∧ needPrevLen s = .ok () s) ∨
    (hasPrevLen s = false ∧ needPrevLen s = .raised (takeError .invalidHuffmanTree s)) := by
  cases h : hasPrevLen s
  · exact .inr ⟨rfl, by simp [needPrevLen, h]⟩
  · exact .inl ⟨rfl, by simp [needPrevLen, h]⟩

/-! ## Stored blocks -/

/-- Everything the LEN test can do (43_blocks.md R195, R197). -/
theorem checkNlen_cases (s : State) :
    (s.slen = ~~~s.snlen ∧ checkNlen s = .ok () s) ∨
    (s.slen ≠ ~~~s.snlen ∧ checkNlen s = .raised (takeError .nlenMismatch s)) := by
  by_cases h : s.slen = ~~~s.snlen
  · exact .inl ⟨h, by rw [checkNlen, if_pos h]⟩
  · exact .inr ⟨h, by rw [checkNlen, if_neg h]; rfl⟩

/-- The two bytes joined, as a number (20_memory.md R69). -/
theorem joinBytes_toNat (lo hi : Byte) : (joinBytes lo hi).toNat = lo.toNat + 256 * hi.toNat := by
  have h1 := lo.isLt
  have h2 := hi.isLt
  have hd : lo.toNat ||| (hi.toNat <<< 8) = lo.toNat + 256 * hi.toNat := by
    rw [Nat.or_comm, ← Nat.shiftLeft_add_eq_or_of_lt h1 hi.toNat, Nat.shiftLeft_eq]
    omega
  have e1 : (BitVec.setWidth 16 lo).toNat = lo.toNat := by
    rw [BitVec.toNat_setWidth]
    omega
  have e2 : (BitVec.setWidth 16 hi <<< 8).toNat = hi.toNat <<< 8 := by
    rw [BitVec.toNat_shiftLeft, BitVec.toNat_setWidth, Nat.mod_eq_of_lt (by omega : hi.toNat < 2 ^ 16),
      Nat.mod_eq_of_lt (by rw [Nat.shiftLeft_eq]; omega)]
  rw [joinBytes, BitVec.toNat_or, e1, e2, hd]

/-! ## Dynamic blocks -/

/-- Everything the end of a dynamic header can do (43_blocks.md R211). -/
theorem splitAndBuild_cases (s : State) :
    ((huffBuild (llInForce (splitLens s))).isSome = true ∧ (huffBuild (dInForce (splitLens s))).isSome = true ∧
      splitAndBuild s = .ok () { splitLens s with st := .decodeSymbols, awaitDist := false }) ∨
    ((huffBuild (llInForce (splitLens s)) = none ∨ huffBuild (dInForce (splitLens s)) = none) ∧
      splitAndBuild s = .raised (takeError .invalidHuffmanTree (splitLens s))) := by
  have e : splitAndBuild s = ((buildTable (llInForce (splitLens s))).andThen <|
      (buildTable (dInForce (splitLens s))).andThen <|
      Op.modify fun t => { t with st := .decodeSymbols, awaitDist := false }) (splitLens s) := rfl
  rw [e]
  rcases buildTable_cases (llInForce (splitLens s)) (splitLens s) with ⟨h1, h2⟩ | ⟨h1, h2⟩
  · rw [andThen_of_ok h2]
    rcases buildTable_cases (dInForce (splitLens s)) (splitLens s) with ⟨h3, h4⟩ | ⟨h3, h4⟩
    · rw [andThen_of_ok h4]
      exact .inl ⟨h1, h3, rfl⟩
    · exact .inr ⟨.inr h3, bind_of_raised h4⟩
  · exact .inr ⟨.inl h1, bind_of_raised h2⟩

end Sys2Proof.Machine
end

