-- ==== Sys2Proof/Laws/Elements.lean ====
section
/-! SUPPORT. What every element and every step relates, from what the primitive operations relate: a claim about all
elements is proved of one bit, one byte, one written byte, one register write. -/

namespace Sys2Proof.Machine

variable {Q E : State → State → Prop}

/-- What a step does with what its fetch found. -/
def follow : Fetched → Host.Outcome State Fault Refusal
  | .element i t => exec i t
  | .move o => o

theorem step_eq (s : State) : step s = follow (fetch s) := by
  unfold step
  cases fetch s <;> rfl

/-- `t` is `s` but for the working registers: bit reader, source, tracking writer, sink, ERR, DONE, STATE and the host
are the same. -/
structure WorkOnly (s t : State) : Prop where
  bb : t.bb = s.bb
  bc : t.bc = s.bc
  ipos : t.ipos = s.ipos
  src : t.src = s.src
  snk : t.snk = s.snk
  crc : t.crc = s.crc
  win : t.win = s.win
  count : t.count = s.count
  err : t.err = s.err
  done : t.done = s.done
  st : t.st = s.st
  snkFailAt : t.snkFailAt = s.snkFailAt
  gz : t.gz = s.gz

/-- What a pair of relations must hold of: each primitive operation of CORE. -/
structure Primitives (Q E : State → State → Prop) : Prop extends Closed Q E where
  bit : Relates Q E readBit
  byte : Relates Q E srcNext
  write : ∀ b, Relates Q E (writeByte b)
  align : ∀ s, Q s (alignToByte s)
  work : ∀ s t, WorkOnly s t → Q s t
  state : ∀ b s, b ≠ .done → b ≠ .error → Q s (setState b s)

namespace Primitives

variable (p : Primitives Q E)
include p

/-- A write of working registers. -/
theorem mod {g : State → State} (h : ∀ s, WorkOnly s (g s)) : Relates Q E (Op.modify g) :=
  Relates.modify fun s => p.work s (g s) (h s)

theorem goto {b : BlkState} (h1 : b ≠ .done) (h2 : b ≠ .error) : Relates Q E (Op.modify (setState b)) :=
  Relates.modify fun s => p.state b s h1 h2

theorem bits (n : Nat) : Relates Q E (readBits n) := Relates.readBits p.toClosed p.bit n

theorem huff (lens : List Nat) : Relates Q E (huffDecode lens) :=
  Relates.huffDecode p.toClosed p.bit (fun _ _ => p.work _ _ ⟨rfl, rfl, rfl, rfl, rfl, rfl, rfl, rfl, rfl, rfl, rfl, rfl, rfl⟩)
    (fun _ => p.work _ _ ⟨rfl, rfl, rfl, rfl, rfl, rfl, rfl, rfl, rfl, rfl, rfl, rfl, rfl⟩) lens

theorem build (lens : List Nat) : Relates Q E (buildTable lens) := fun s => by
  rcases buildTable_cases lens s with ⟨-, h⟩ | ⟨-, h⟩ <;> rw [h]
  · exact Relates.pure p.toClosed () s
  · exact Relates.raise p.toClosed _ (by decide) s

/-! ### Stored blocks -/

theorem copyStored (k : Nat) : Relates Q E (copyStored k) := by
  induction k with
  | zero => exact Relates.pure p.toClosed ()
  | succ k ih =>
    exact Relates.bind p.toClosed p.byte fun b => Relates.andThen p.toClosed (p.write b) <|
      Relates.andThen p.toClosed (p.mod fun _ => ⟨rfl, rfl, rfl, rfl, rfl, rfl, rfl, rfl, rfl, rfl, rfl, rfl, rfl⟩) ih

theorem storedRest : Relates Q E storedRest := fun s =>
  Relates.andThen p.toClosed (p.copyStored s.rem.toNat)
    (Relates.andThen p.toClosed (Relates.pure p.toClosed ()) (p.goto (by decide) (by decide))) s

theorem checkNlen : Relates Q E checkNlen := fun s => by
  rcases checkNlen_cases s with ⟨-, h⟩ | ⟨-, h⟩ <;> rw [h]
  · exact Relates.pure p.toClosed () s
  · exact Relates.raise p.toClosed _ (by decide) s

theorem storedLengths : Relates Q E storedLengths :=
  Relates.bind p.toClosed p.byte fun _ => Relates.bind p.toClosed p.byte fun _ =>
  Relates.andThen p.toClosed (p.mod fun _ => ⟨rfl, rfl, rfl, rfl, rfl, rfl, rfl, rfl, rfl, rfl, rfl, rfl, rfl⟩) <|
  Relates.bind p.toClosed p.byte fun _ => Relates.bind p.toClosed p.byte fun _ =>
  Relates.andThen p.toClosed (p.mod fun _ => ⟨rfl, rfl, rfl, rfl, rfl, rfl, rfl, rfl, rfl, rfl, rfl, rfl, rfl⟩)
    p.checkNlen

theorem storedBlock : Relates Q E storedBlock :=
  Relates.andThen p.toClosed (p.goto (by decide) (by decide)) <|
  Relates.andThen p.toClosed (Relates.modify p.align) <|
  Relates.andThen p.toClosed p.storedLengths <|
  Relates.andThen p.toClosed (p.mod fun _ => ⟨rfl, rfl, rfl, rfl, rfl, rfl, rfl, rfl, rfl, rfl, rfl, rfl, rfl⟩)
    p.storedRest

/-! ### Fixed and dynamic blocks -/

/-- A write of working registers together with STATE. -/
theorem workState {s t : State} {b : BlkState} (h : WorkOnly (setState b s) t) (h1 : b ≠ .done) (h2 : b ≠ .error) :
    Q s t :=
  p.trans _ _ _ (p.state b s h1 h2) (p.work _ _ h)

theorem installFixed (s : State) : Q s (installFixed s) :=
  p.workState (b := .decodeSymbols) ⟨rfl, rfl, rfl, rfl, rfl, rfl, rfl, rfl, rfl, rfl, rfl, rfl, rfl⟩ (by decide)
    (by decide)

theorem readClLens (ns : List Nat) : Relates Q E (readClLens ns) := by
  induction ns with
  | nil => exact Relates.pure p.toClosed ()
  | cons n ns ih =>
    exact Relates.bind p.toClosed (p.bits 3) fun v => Relates.andThen p.toClosed
      (p.mod fun _ => ⟨rfl, rfl, rfl, rfl, rfl, rfl, rfl, rfl, rfl, rfl, rfl, rfl, rfl⟩) ih

theorem readCounts : Relates Q E readCounts :=
  Relates.bind p.toClosed (p.bits 5) fun _ =>
  Relates.andThen p.toClosed (p.mod fun _ => ⟨rfl, rfl, rfl, rfl, rfl, rfl, rfl, rfl, rfl, rfl, rfl, rfl, rfl⟩) <|
  Relates.bind p.toClosed (p.bits 5) fun _ =>
  Relates.andThen p.toClosed (p.mod fun _ => ⟨rfl, rfl, rfl, rfl, rfl, rfl, rfl, rfl, rfl, rfl, rfl, rfl, rfl⟩) <|
  Relates.bind p.toClosed (p.bits 4) fun _ =>
  p.mod fun _ => ⟨rfl, rfl, rfl, rfl, rfl, rfl, rfl, rfl, rfl, rfl, rfl, rfl, rfl⟩

theorem readTreeCode : Relates Q E readTreeCode :=
  Relates.andThen p.toClosed (p.mod fun _ => ⟨rfl, rfl, rfl, rfl, rfl, rfl, rfl, rfl, rfl, rfl, rfl, rfl, rfl⟩) fun s =>
    Relates.andThen p.toClosed (p.readClLens _) (fun t => p.build (clInForce t) t) s

theorem dynamicHeader : Relates Q E dynamicHeader :=
  Relates.andThen p.toClosed (p.goto (by decide) (by decide)) <|
  Relates.andThen p.toClosed p.readCounts <|
  Relates.andThen p.toClosed p.readTreeCode <|
  p.mod fun _ => ⟨rfl, rfl, rfl, rfl, rfl, rfl, rfl, rfl, rfl, rfl, rfl, rfl, rfl⟩

theorem splitAndBuild : Relates Q E splitAndBuild :=
  Relates.andThen p.toClosed (p.mod fun _ => ⟨rfl, rfl, rfl, rfl, rfl, rfl, rfl, rfl, rfl, rfl, rfl, rfl, rfl⟩) fun s =>
    Relates.andThen p.toClosed (p.build (llInForce s)) (Relates.andThen p.toClosed (p.build (dInForce s))
      (Relates.modify (g := fun t => { t with st := .decodeSymbols, awaitDist := false }) fun t =>
        p.workState (b := .decodeSymbols) ⟨rfl, rfl, rfl, rfl, rfl, rfl, rfl, rfl, rfl, rfl, rfl, rfl, rfl⟩
          (by decide) (by decide))) s

theorem setHeader (f : BitVec 1) (t : BitVec 2) : Relates Q E (Op.modify (setHeader f t)) :=
  p.mod fun _ => ⟨rfl, rfl, rfl, rfl, rfl, rfl, rfl, rfl, rfl, rfl, rfl, rfl, rfl⟩

/-! ### The code-length sequence -/

theorem pushLens (v : BitVec 4) (r : Nat) (s : State) : Q s (pushLens v r s) := by
  induction r generalizing s with
  | zero => exact p.refl s
  | succ r ih =>
    exact p.trans _ _ _ (p.work s (pushLen v s) ⟨rfl, rfl, rfl, rfl, rfl, rfl, rfl, rfl, rfl, rfl, rfl, rfl, rfl⟩)
      (ih (pushLen v s))

theorem repeatLen (v : BitVec 4) (r : Nat) : Relates Q E (repeatLen v r) := fun s => by
  rcases repeatLen_cases v r s with ⟨-, h⟩ | ⟨-, h⟩ <;> rw [h]
  · exact Relates.raise p.toClosed _ (by decide) s
  · exact ⟨fun _ _ e => (by cases e; exact p.pushLens v r s), fun _ e => (by cases e)⟩

theorem needPrevLen : Relates Q E needPrevLen := fun s => by
  rcases needPrevLen_cases s with ⟨-, h⟩ | ⟨-, h⟩ <;> rw [h]
  · exact Relates.pure p.toClosed () s
  · exact Relates.raise p.toClosed _ (by decide) s

/-! ### Matches -/

theorem lengthElement (S x : Nat) : Relates Q E (lengthElement S x) :=
  p.mod fun _ => ⟨rfl, rfl, rfl, rfl, rfl, rfl, rfl, rfl, rfl, rfl, rfl, rfl, rfl⟩

theorem distElement (D y : Nat) : Relates Q E (distElement D y) :=
  Relates.andThen p.toClosed (p.mod fun _ => ⟨rfl, rfl, rfl, rfl, rfl, rfl, rfl, rfl, rfl, rfl, rfl, rfl, rfl⟩) <|
  Relates.andThen p.toClosed (fun s => Relates.writePrevious p.toClosed p.write s.mlen.toNat s.mdist.toNat s)
    (p.mod fun _ => ⟨rfl, rfl, rfl, rfl, rfl, rfl, rfl, rfl, rfl, rfl, rfl, rfl, rfl⟩)

/-! ### Every element -/

/-- A next state of any element is related to the state before. -/
theorem exec (i : Instr) {s t : State} (h : exec i s = .next t) : Q s t ∨ E s t := by
  cases i with
  | blkStored f => exact Relates.run (Relates.andThen p.toClosed (p.setHeader f 0) p.storedBlock) h
  | blkFixed f => exact Relates.run (Relates.andThen p.toClosed (p.setHeader f 1) <|
    Relates.andThen p.toClosed (p.goto (by decide) (by decide)) (Relates.modify p.installFixed)) h
  | blkDynamic f => exact Relates.run (Relates.andThen p.toClosed (p.setHeader f 2) p.dynamicHeader) h
  | blkRsvd f => exact Relates.run (Relates.andThen p.toClosed (p.setHeader f 3)
    (Relates.raise p.toClosed _ (by decide))) h
  | clen n => exact Relates.run (Relates.modify fun s => p.pushLens n 1 s) h
  | crep16 x => exact Relates.run (Relates.andThen p.toClosed p.needPrevLen
    fun s => p.repeatLen (prevLen s) (repeatCount 16 x.toNat) s) h
  | czero17 x => exact Relates.run (p.repeatLen 0 (repeatCount 17 x.toNat)) h
  | czero18 x => exact Relates.run (p.repeatLen 0 (repeatCount 18 x.toNat)) h
  | lit b => exact Relates.run (p.write b) h
  | eob => exact Relates.run (p.goto (by decide) (by decide)) h
  | len257 => exact Relates.run (p.lengthElement _ _) h
  | len258 => exact Relates.run (p.lengthElement _ _) h
  | len259 => exact Relates.run (p.lengthElement _ _) h
  | len260 => exact Relates.run (p.lengthElement _ _) h
  | len261 => exact Relates.run (p.lengthElement _ _) h
  | len262 => exact Relates.run (p.lengthElement _ _) h
  | len263 => exact Relates.run (p.lengthElement _ _) h
  | len264 => exact Relates.run (p.lengthElement _ _) h
  | len265 x => exact Relates.run (p.lengthElement _ _) h
  | len266 x => exact Relates.run (p.lengthElement _ _) h
  | len267 x => exact Relates.run (p.lengthElement _ _) h
  | len268 x => exact Relates.run (p.lengthElement _ _) h
  | len269 x => exact Relates.run (p.lengthElement _ _) h
  | len270 x => exact Relates.run (p.lengthElement _ _) h
  | len271 x => exact Relates.run (p.lengthElement _ _) h
  | len272 x => exact Relates.run (p.lengthElement _ _) h
  | len273 x => exact Relates.run (p.lengthElement _ _) h
  | len274 x => exact Relates.run (p.lengthElement _ _) h
  | len275 x => exact Relates.run (p.lengthElement _ _) h
  | len276 x => exact Relates.run (p.lengthElement _ _) h
  | len277 x => exact Relates.run (p.lengthElement _ _) h
  | len278 x => exact Relates.run (p.lengthElement _ _) h
  | len279 x => exact Relates.run (p.lengthElement _ _) h
  | len280 x => exact Relates.run (p.lengthElement _ _) h
  | len281 x => exact Relates.run (p.lengthElement _ _) h
  | len282 x => exact Relates.run (p.lengthElement _ _) h
  | len283 x => exact Relates.run (p.lengthElement _ _) h
  | len284 x => exact Relates.run (p.lengthElement _ _) h
  | len285 => exact Relates.run (p.lengthElement _ _) h
  | ll286 => exact Relates.run (Relates.raise p.toClosed _ (by decide)) h
  | ll287 => exact Relates.run (Relates.raise p.toClosed _ (by decide)) h
  | dist0 => exact Relates.run (p.distElement _ _) h
  | dist1 => exact Relates.run (p.distElement _ _) h
  | dist2 => exact Relates.run (p.distElement _ _) h
  | dist3 => exact Relates.run (p.distElement _ _) h
  | dist4 y => exact Relates.run (p.distElement _ _) h
  | dist5 y => exact Relates.run (p.distElement _ _) h
  | dist6 y => exact Relates.run (p.distElement _ _) h
  | dist7 y => exact Relates.run (p.distElement _ _) h
  | dist8 y => exact Relates.run (p.distElement _ _) h
  | dist9 y => exact Relates.run (p.distElement _ _) h
  | dist10 y => exact Relates.run (p.distElement _ _) h
  | dist11 y => exact Relates.run (p.distElement _ _) h
  | dist12 y => exact Relates.run (p.distElement _ _) h
  | dist13 y => exact Relates.run (p.distElement _ _) h
  | dist14 y => exact Relates.run (p.distElement _ _) h
  | dist15 y => exact Relates.run (p.distElement _ _) h
  | dist16 y => exact Relates.run (p.distElement _ _) h
  | dist17 y => exact Relates.run (p.distElement _ _) h
  | dist18 y => exact Relates.run (p.distElement _ _) h
  | dist19 y => exact Relates.run (p.distElement _ _) h
  | dist20 y => exact Relates.run (p.distElement _ _) h
  | dist21 y => exact Relates.run (p.distElement _ _) h
  | dist22 y => exact Relates.run (p.distElement _ _) h
  | dist23 y => exact Relates.run (p.distElement _ _) h
  | dist24 y => exact Relates.run (p.distElement _ _) h
  | dist25 y => exact Relates.run (p.distElement _ _) h
  | dist26 y => exact Relates.run (p.distElement _ _) h
  | dist27 y => exact Relates.run (p.distElement _ _) h
  | dist28 y => exact Relates.run (p.distElement _ _) h
  | dist29 y => exact Relates.run (p.distElement _ _) h
  | dist30 => exact Relates.run (Relates.raise p.toClosed _ (by decide)) h
  | dist31 => exact Relates.run (Relates.raise p.toClosed _ (by decide)) h

/-! ### Every decode and every step -/

theorem fetchElement (a : Alphabet) (n : Nat) : Relates Q E (fetchElement a n) :=
  Relates.bind p.toClosed (p.bits _) fun x s => by
    split
    · exact Relates.pure p.toClosed _ s
    · exact ⟨fun _ _ e => (by cases e), fun _ e => (by cases e)⟩

theorem fetchHeader : Relates Q E fetchHeader :=
  Relates.bind p.toClosed (p.bits 1) fun _ =>
  Relates.andThen p.toClosed (p.mod fun _ => ⟨rfl, rfl, rfl, rfl, rfl, rfl, rfl, rfl, rfl, rfl, rfl, rfl, rfl⟩) <|
  Relates.bind p.toClosed (p.bits 2) fun _ =>
  Relates.andThen p.toClosed (p.mod fun _ => ⟨rfl, rfl, rfl, rfl, rfl, rfl, rfl, rfl, rfl, rfl, rfl, rfl, rfl⟩) <|
  p.fetchElement _ _

theorem checkRepeat (n : Nat) : Relates Q E (checkRepeat n) := fun s => by
  rw [Machine.checkRepeat]
  split
  · exact Relates.raise p.toClosed _ (by decide) s
  · exact Relates.pure p.toClosed () s

theorem fetchTree : Relates Q E fetchTree := fun s =>
  Relates.bind p.toClosed (p.huff _) (fun n => Relates.andThen p.toClosed (p.checkRepeat n) (p.fetchElement _ n)) s

theorem fetchLitLen : Relates Q E fetchLitLen := fun s =>
  Relates.bind p.toClosed (p.huff (llInForce s)) (fun n => Relates.andThen p.toClosed
    (p.mod (g := fun t => { t with sym := BitVec.ofNat 9 n }) fun _ =>
      ⟨rfl, rfl, rfl, rfl, rfl, rfl, rfl, rfl, rfl, rfl, rfl, rfl, rfl⟩) (p.fetchElement .litLen n)) s

theorem fetchDist : Relates Q E fetchDist := fun s =>
  Relates.bind p.toClosed (p.huff (dInForce s)) (fun n => Relates.andThen p.toClosed
    (p.mod (g := fun t => { t with dsym := BitVec.ofNat 5 n }) fun _ =>
      ⟨rfl, rfl, rfl, rfl, rfl, rfl, rfl, rfl, rfl, rfl, rfl, rfl, rfl⟩) (p.fetchElement .dist n)) s

/-- What follows the end of a decode. -/
theorem follow_ofRes {x : Op Instr} (h : Relates Q E x) {s t : State} (e : follow (Fetched.ofRes (x s)) = .next t) :
    Q s t ∨ E s t := by
  cases hx : x s <;> rw [hx] at e
  · rename_i i u
    exact (p.exec i e).imp (p.trans _ _ _ ((h s).1 i u hx)) (p.fail _ _ _ ((h s).1 i u hx))
  · cases e
    exact .inr ((h s).2 _ hx)
  · cases e
  · cases e

/-- Everything a step of CORE can do: what the primitives relate, or the end of a block, or nothing after the end. -/
theorem core {s t : State} (h : follow (coreFetch s) = .next t) :
    (¬ Ended s ∧ (Q s t ∨ E s t)) ∨ (s.st = .blockEnd ∧ t = endBlock s) ∨ (Ended s ∧ t = s) := by
  have hn : ∀ b, s.st = b → b ≠ .done → b ≠ .error → ¬ Ended s := by
    rintro b rfl h1 h2 (h | h)
    · exact h1 h
    · exact h2 h
  unfold coreFetch at h
  split at h <;> rename_i hs
  · cases h
    exact .inl ⟨hn _ hs (by decide) (by decide), .inl (p.state _ _ (by decide) (by decide))⟩
  · exact .inl ⟨hn _ hs (by decide) (by decide), p.follow_ofRes p.fetchHeader h⟩
  · exact .inl ⟨hn _ hs (by decide) (by decide), Relates.run p.storedRest h⟩
  · cases h
    exact .inl ⟨hn _ hs (by decide) (by decide), .inl (p.installFixed s)⟩
  · split at h
    · exact .inl ⟨hn _ hs (by decide) (by decide), p.follow_ofRes p.fetchTree h⟩
    · exact .inl ⟨hn _ hs (by decide) (by decide), Relates.run p.splitAndBuild h⟩
  · split at h
    · exact .inl ⟨hn _ hs (by decide) (by decide), p.follow_ofRes p.fetchDist h⟩
    · exact .inl ⟨hn _ hs (by decide) (by decide), p.follow_ofRes p.fetchLitLen h⟩
  · cases h
    exact .inr (.inl ⟨hs, rfl⟩)
  · cases h
    exact .inr (.inr ⟨.inl hs, rfl⟩)
  · cases h
    exact .inr (.inr ⟨.inr hs, rfl⟩)

/-- Everything a step can do: a step of CORE, alone or under the host; or a move of the host. -/
theorem step {s t : State} (h : step s = .next t) :
    ((¬ Ended s ∧ (Q s t ∨ E s t)) ∨ (s.st = .blockEnd ∧ t = endBlock s) ∨ (Ended s ∧ t = s)) ∧
      (s.gz.phase = .bare ∨ s.gz.phase = .core) ∨
    s.gz.phase ≠ .bare ∧ ((s.gz.phase ≠ .core ∧ t = gzMove s) ∨ t = s ∨ (s.gz.phase = .core ∧ t = gzCoreEnded s)) := by
  rw [step_eq, fetch] at h
  split at h
  · exact .inl ⟨p.core h, .inl ‹_›⟩
  · rename_i hp
    split at h
    · cases h
      exact .inr ⟨by simp [hp], .inr (.inr ⟨hp, rfl⟩)⟩
    · exact .inl ⟨p.core h, .inr hp⟩
  · rename_i hp
    cases h
    exact .inr ⟨by simp [hp], .inr (.inl rfl)⟩
  · rename_i hp
    cases h
    exact .inr ⟨by simp [hp], .inr (.inl rfl)⟩
  · rename_i hp hc _ _
    cases h
    exact .inr ⟨hp, .inl ⟨hc, rfl⟩⟩

end Primitives

end Sys2Proof.Machine
end

