-- ==== Sys2Proof/Laws/Fetch.lean ====
section
/-! SUPPORT. What a fetch that finds an element has done: the code it decoded, the extra field it read, the element they
select. And what it changes: only what a decode writes. -/

namespace Sys2Proof.Machine

/-! ## The parts of a decode -/

theorem fetchElement_ok {a : Alphabet} {n : Nat} {i : Instr} {s t : State} (h : fetchElement a n s = .ok i t) :
    ∃ x, readBits (extraWidth a n) s = .ok x t ∧ instrOf a n x = some i := by
  obtain ⟨x, u, h1, h2⟩ := bind_ok_iff.1 h
  split at h2
  · rename_i j hj
    cases h2
    exact ⟨x, h1, hj⟩
  · cases h2

theorem fetchHeader_ok {i : Instr} {s t : State} (h : fetchHeader s = .ok i t) :
    ∃ f u b v x, readBits 1 s = .ok f u ∧ readBits 2 { u with bfinal := BitVec.ofNat 1 f } = .ok b v ∧
      readBits 0 { v with btype := BitVec.ofNat 2 b } = .ok x t ∧ instrOf .header (f + 2 * b) x = some i := by
  obtain ⟨f, u, h1, h2⟩ := bind_ok_iff.1 h
  rw [modify_andThen] at h2
  obtain ⟨b, v, h3, h4⟩ := bind_ok_iff.1 h2
  rw [modify_andThen] at h4
  obtain ⟨x, h5, h6⟩ := fetchElement_ok h4
  exact ⟨f, u, b, v, x, h1, h3, h5, h6⟩

theorem checkRepeat_ok {n : Nat} {s t : State} (h : checkRepeat n s = .ok () t) :
    t = s ∧ (n = 16 → hasPrevLen s = true) := by
  rw [checkRepeat] at h
  split at h
  · cases h
  · rename_i hn
    cases h
    refine ⟨rfl, fun e => ?_⟩
    simpa [e] using hn

theorem fetchTree_ok {i : Instr} {s t : State} (h : fetchTree s = .ok i t) :
    ∃ n u x, huffDecode (clInForce s) s = .ok n u ∧ (n = 16 → hasPrevLen u = true) ∧
      readBits (extraWidth .treeCode n) u = .ok x t ∧ instrOf .treeCode n x = some i := by
  obtain ⟨n, u, h1, h2⟩ := bind_ok_iff.1 h
  obtain ⟨⟨⟩, v, h3, h4⟩ := bind_ok_iff.1 h2
  obtain ⟨rfl, h5⟩ := checkRepeat_ok h3
  obtain ⟨x, h6, h7⟩ := fetchElement_ok h4
  exact ⟨n, v, x, h1, h5, h6, h7⟩

theorem fetchLitLen_ok {i : Instr} {s t : State} (h : fetchLitLen s = .ok i t) :
    ∃ n u x, huffDecode (llInForce s) s = .ok n u ∧
      readBits (extraWidth .litLen n) { u with sym := BitVec.ofNat 9 n } = .ok x t ∧ instrOf .litLen n x = some i := by
  obtain ⟨n, u, h1, h2⟩ := bind_ok_iff.1 h
  rw [modify_andThen] at h2
  obtain ⟨x, h3, h4⟩ := fetchElement_ok h2
  exact ⟨n, u, x, h1, h3, h4⟩

theorem fetchDist_ok {i : Instr} {s t : State} (h : fetchDist s = .ok i t) :
    ∃ n u x, huffDecode (dInForce s) s = .ok n u ∧
      readBits (extraWidth .dist n) { u with dsym := BitVec.ofNat 5 n } = .ok x t ∧ instrOf .dist n x = some i := by
  obtain ⟨n, u, h1, h2⟩ := bind_ok_iff.1 h
  rw [modify_andThen] at h2
  obtain ⟨x, h3, h4⟩ := fetchElement_ok h2
  exact ⟨n, u, x, h1, h3, h4⟩

/-! ## Which decode a step made -/

/-- Where CORE's fetch finds an element, it is one of the four decodes, by STATE. -/
theorem coreFetch_element {i : Instr} {s t : State} (h : coreFetch s = .element i t) :
    (s.st = .readBlockHeader ∧ fetchHeader s = .ok i t) ∨
    (s.st = .dynamic ∧ wantsLens s = true ∧ fetchTree s = .ok i t) ∨
    (s.st = .decodeSymbols ∧ s.awaitDist = true ∧ fetchDist s = .ok i t) ∨
    (s.st = .decodeSymbols ∧ s.awaitDist = false ∧ fetchLitLen s = .ok i t) := by
  have key : ∀ r : Res Instr, Fetched.ofRes r = .element i t → r = .ok i t := by
    intro r hr
    cases r <;> cases hr
    rfl
  unfold coreFetch at h
  split at h <;> rename_i hs
  · cases h
  · exact .inl ⟨hs, key _ h⟩
  · cases h
  · cases h
  · split at h
    · exact .inr (.inl ⟨hs, ‹_›, key _ h⟩)
    · cases h
  · split at h
    · exact .inr (.inr (.inl ⟨hs, ‹_›, key _ h⟩))
    · rename_i hw
      exact .inr (.inr (.inr ⟨hs, Bool.eq_false_iff.2 hw, key _ h⟩))
  · cases h
  · cases h
  · cases h

/-- Where the machine's fetch finds an element, CORE's fetch did. -/
theorem fetch_element {i : Instr} {s t : State} (h : fetch s = .element i t) : coreFetch s = .element i t := by
  unfold fetch at h
  split at h
  · exact h
  · split at h
    · cases h
    · exact h
  · cases h
  · cases h
  · cases h

/-! ## What a read changes -/

theorem InputOnly.refl (s : State) : InputOnly s s := rfl

theorem InputOnly.trans {s t u : State} (h1 : InputOnly s t) (h2 : InputOnly t u) : InputOnly s u := by
  rw [InputOnly] at *
  rw [h2, h1]

/-- A read of a field changes the bit reader and the source only; where it raises, the error besides. -/
theorem readBits_frame (n : Nat) :
    Relates InputOnly (fun s t => ∃ k u, InputOnly s u ∧ t = takeError k u) (readBits n) := by
  have c : Closed InputOnly (fun s t => ∃ k u, InputOnly s u ∧ t = takeError k u) :=
    ⟨InputOnly.refl, fun _ _ _ => InputOnly.trans, fun _ _ _ h1 ⟨k, u, h2, h3⟩ => ⟨k, u, h1.trans h2, h3⟩,
      fun k s _ => ⟨k, s, InputOnly.refl s, rfl⟩⟩
  refine Relates.readBits c (fun s => ⟨fun b t h => ?_, fun t h => ?_⟩) n
  · rcases readBit_ok h with ⟨-, -, rfl⟩ | ⟨-, b, rest, -, -, -, rfl⟩ <;> rfl
  · exact ⟨_, s, InputOnly.refl s, (readBit_raised h).2.1⟩

end Sys2Proof.Machine
end

