-- ==== Sys2Proof/Laws/Gzip.lean ====
section
/-! SUPPORT. The gzip host's moves: each changes the host's registers and the source only, or resets CORE. -/

namespace Sys2Proof.Machine

/-- The two shapes of a host move: only the host's registers change, or CORE is put in its reset state with the
environment kept (45_host_gzip.md R320, R326). -/
def HostMove (s t : State) : Prop :=
  (t = setGz t.gz s ∧ t.gz.phase ≠ .core) ∨ (t = resetCore (setGz t.gz s) ∧ t.gz.phase = .core)

theorem hostMove_setGz {g : GzHost} (s : State) (h : g.phase ≠ .core) : HostMove s (setGz g s) :=
  .inl ⟨rfl, h⟩

theorem hostMove_fail (k : ErrKind) (s : State) : HostMove s (gzFail k s) :=
  hostMove_setGz s (by simp)

theorem hostMove_enter (p : GzPhase) (s : State) : HostMove s (gzEnter p s) := by
  by_cases h : p = .core
  · subst h
    exact .inr ⟨rfl, rfl⟩
  · rw [gzEnter, if_neg h]
    exact hostMove_setGz s h

theorem hostMove_skip (p : GzPhase) (s : State) (h : s.gz.phase ≠ .core) : HostMove s (gzSkip p s) := by
  rw [gzSkip]
  split
  · exact hostMove_enter p s
  · exact hostMove_setGz s h

theorem hostMove_keep (b : Byte) (s : State) (h : s.gz.phase ≠ .core) : HostMove s (gzKeep b s) :=
  hostMove_setGz s h

theorem hostMove_refl (s : State) (h : s.gz.phase ≠ .core) : HostMove s s := .inl ⟨rfl, h⟩

theorem hostMove_header (b : Byte) (s : State) (h : s.gz.phase ≠ .core) : HostMove s (gzHeaderByte b s) := by
  unfold gzHeaderByte
  repeat' split
  all_goals first
    | exact hostMove_enter _ s
    | exact hostMove_fail _ s
    | exact hostMove_keep b s h
    | exact hostMove_skip _ s h
    | exact hostMove_refl s h
    | exact hostMove_setGz s (by simp)

theorem hostMove_hcrc (b : Byte) (s : State) (h : s.gz.phase ≠ .core) : HostMove s (gzHcrcByte b s) := by
  unfold gzHcrcByte
  repeat' split
  · exact hostMove_keep b s h
  · exact hostMove_enter _ s
  · exact hostMove_fail _ s

theorem hostMove_trailer (b : Byte) (s : State) (h : s.gz.phase ≠ .core) : HostMove s (gzTrailerByte b s) := by
  unfold gzTrailerByte gzTrailer
  repeat' split
  · exact hostMove_keep b s h
  · exact hostMove_fail _ s
  · exact hostMove_fail _ s
  · exact hostMove_setGz s (by simp)

theorem hostMove_of_setGz {g : GzHost} {s t : State} (h : HostMove (setGz g s) t) : HostMove s t := h

theorem hostMove_byte (b : Byte) (s : State) (h : s.gz.phase ≠ .core) : HostMove s (gzByte b s) := by
  unfold gzByte
  split
  · exact hostMove_hcrc b s h
  · exact hostMove_trailer b s h
  · exact hostMove_of_setGz (g := (gzHash b s).gz) (hostMove_header b (gzHash b s) h)

/-- Everything a host move can do: it fails without taking anything, or takes one byte and changes the host's registers
or resets CORE. -/
theorem gzMove_cases (s : State) (h : s.gz.phase ≠ .core) :
    (srcBits s.src = [] ∧ gzMove s = gzFail (srcEnd s.src) s) ∨
    (∃ b rest, s.src = .byte b :: rest ∧ HostMove { s with src := rest } (gzMove s)) := by
  cases hs : s.src with
  | nil => exact .inl ⟨rfl, by simp [gzMove, hs, srcEnd]⟩
  | cons d rest =>
    cases d with
    | ioErr => exact .inl ⟨rfl, by simp [gzMove, hs, srcEnd]⟩
    | byte b =>
      refine .inr ⟨b, rest, rfl, ?_⟩
      have e : gzMove s = gzByte b { s with src := rest } := by simp [gzMove, hs]
      rw [e]
      exact hostMove_byte b { s with src := rest } h

/-- The host's move when CORE has ended. -/
theorem gzCoreEnded_cases (s : State) :
    (s.err ≠ 0 ∧ gzCoreEnded s = setGz { s.gz with phase := .failed, err := errKind s.err } s) ∨
    (s.err = 0 ∧ gzCoreEnded s = setGz { s.gz with phase := .trailer, buf := [], left := 0 } s) := by
  by_cases h : s.err = 0
  · exact .inr ⟨h, by simp [gzCoreEnded, hasError, h, gzEnter]⟩
  · exact .inl ⟨h, by rw [gzCoreEnded, if_pos (by simpa [hasError] using h)]⟩

/-- What holds of every host move follows from its two shapes. -/
theorem hostMove_rec {P : State → Prop} {s t : State} (h : HostMove s t) (h1 : ∀ g, P (setGz g s))
    (h2 : ∀ g, P (resetCore (setGz g s))) : P t := by
  rcases h with ⟨h, -⟩ | ⟨h, -⟩ <;> rw [h]
  · exact h1 _
  · exact h2 _

/-! ## The header -/

@[simp] theorem gzEnter_gz (p : GzPhase) (s : State) :
    (gzEnter p s).gz = { s.gz with phase := p, buf := [], left := 0 } := by
  by_cases h : p = .core <;> simp [gzEnter, h, setGz, resetCore]

@[simp] theorem gzEnter_src (p : GzPhase) (s : State) : (gzEnter p s).src = s.src := by
  by_cases h : p = .core <;> simp [gzEnter, h, setGz, resetCore]

@[simp] theorem gzEnter_snk (p : GzPhase) (s : State) : (gzEnter p s).snk = s.snk := by
  by_cases h : p = .core <;> simp [gzEnter, h, setGz, resetCore]

/-- Entering a phase resets CORE only where CORE is started. -/
theorem gzEnter_of_ne {p : GzPhase} (h : p ≠ .core) (s : State) :
    gzEnter p s = setGz { s.gz with phase := p, buf := [], left := 0 } s := by
  simp [gzEnter, h]

theorem afterComment_eq (f : BitVec 8) : afterComment f = nextField f 3 := by
  cases h : f.getLsbD 1 <;> simp only [afterComment, nextField, optionalFields, List.drop, List.find?, h] <;> rfl

theorem afterName_eq (f : BitVec 8) : afterName f = nextField f 2 := by
  rw [afterName, afterComment_eq]
  cases h : f.getLsbD 4 <;> simp only [nextField, optionalFields, List.drop, List.find?, h] <;> rfl

theorem afterExtra_eq (f : BitVec 8) : afterExtra f = nextField f 1 := by
  rw [afterExtra, afterName_eq]
  cases h : f.getLsbD 3 <;> simp only [nextField, optionalFields, List.drop, List.find?, h] <;> rfl

theorem afterFixed_eq (f : BitVec 8) : afterFixed f = nextField f 0 := by
  rw [afterFixed, afterExtra_eq]
  cases h : f.getLsbD 2 <;> simp only [nextField, optionalFields, List.drop, List.find?, h] <;> rfl

/-- A step in a header phase with a byte ahead: it is taken, goes into HCRC, and does what the phase says. -/
theorem step_headerByte {s : State} {b : Byte} {rest : List SrcItem} (h : s.src = .byte b :: rest)
    (hp : s.gz.phase ∈ headerPhases) : step s = .next (gzHeaderByte b (gzHash b { s with src := rest })) := by
  rw [step_eq]
  simp only [headerPhases, List.mem_cons, List.not_mem_nil, or_false] at hp
  rcases hp with e | e | e | e | e | e | e | e <;> simp [fetch, follow, gzMove, gzByte, e, h]

end Sys2Proof.Machine
end

