-- ==== Sys2Proof/Laws/Invariants.lean ====
section
/-! SUPPORT. How an invariant of every step is proved: it is shown of one bit, one source byte, one output byte, one
register write, the end of a block and the host's two shapes of move, and `step_kept` gives it for every step. -/

namespace Sys2Proof.Machine

/-- A property kept by each primitive operation, as the relation `Kept`. -/
theorem Primitives.ofKept {P : State → Prop}
    (error : ∀ k s, P s → P (takeError k s))
    (bit : ∀ s t b, P s → readBit s = .ok b t → P t)
    (byte : ∀ s t b, P s → srcNext s = .ok b t → P t)
    (write : ∀ b s, P s → P (putByte b s))
    (align : ∀ s, P s → P (alignToByte s))
    (work : ∀ s t, WorkOnly s t → P s → P t)
    (state : ∀ b s, P s → P (setState b s)) : Primitives (Kept P) (Kept P) where
  refl := fun _ h => h
  trans := fun _ _ _ a b h => b (a h)
  fail := fun _ _ _ a b h => b (a h)
  error := fun k s _ => error k s
  bit := fun s =>
    ⟨fun a t h p => bit s t a p h, fun t h p => (by rw [(readBit_raised h).2.1]; exact error _ _ p)⟩
  byte := fun s =>
    ⟨fun a t h p => byte s t a p h, fun t h p => (by rw [(srcNext_raised h).1]; exact error _ _ p)⟩
  write := fun b s =>
    ⟨fun a t h p => (by rw [(writeByte_ok h).1]; exact write b s p),
      fun t h p => (by rw [(writeByte_raised h).1]; exact error _ _ p)⟩
  align := align
  work := work
  state := fun b s _ _ => state b s

/-- The primitives of CORE leave the host's registers alone. -/
theorem gz_primitives (g : GzHost) : Primitives (Kept fun s => s.gz = g) (Kept fun s => s.gz = g) :=
  Primitives.ofKept (fun _ _ h => h)
    (fun s t b h e => by
      rcases readBit_ok e with ⟨-, -, rfl⟩ | ⟨-, -, -, -, -, -, rfl⟩ <;> exact h)
    (fun s t b h e => by
      rw [(srcNext_ok e).2.2]
      exact h)
    (fun _ _ h => h) (fun _ h => h) (fun _ _ w h => w.gz.trans h) (fun _ _ h => h)

theorem endBlock_gz (s : State) : (endBlock s).gz = s.gz := by
  unfold endBlock
  split <;> rfl

/-- Everything a step can do to a property of CORE and its environment: it is kept, and the step has not started CORE; or
the host has taken a byte, and reset and started CORE. -/
theorem step_kept_or_started {P : State → Prop} (p : Primitives (Kept P) (Kept P))
    (ends : ∀ s, P s → P (endBlock s))
    (gz : ∀ s g, P s → P (setGz g s))
    (take : ∀ s b rest, P s → s.src = .byte b :: rest → P { s with src := rest })
    {s t : State} (h : P s) (e : step s = .next t) :
    (P t ∧ (s.gz.phase ≠ .core → t.gz.phase ≠ .core)) ∨
    (s.gz.phase ≠ .core ∧ t.gz.phase = .core ∧
      ∃ b rest g, s.src = .byte b :: rest ∧ t = resetCore (setGz g { s with src := rest })) := by
  have k : s.gz.phase = .bare ∨ s.gz.phase = .core → (t.gz = s.gz ∨ s.gz.phase = .core) := fun hp => by
    rcases hp with hp | hp
    · rcases (gz_primitives s.gz).step e with ⟨⟨-, h1 | h1⟩ | ⟨-, rfl⟩ | ⟨-, rfl⟩, -⟩ | ⟨hb, -⟩
      · exact .inl (h1 rfl)
      · exact .inl (h1 rfl)
      · exact .inl (endBlock_gz s)
      · exact .inl rfl
      · exact absurd hp hb
    · exact .inr hp
  have k2 : s.gz.phase = .bare ∨ s.gz.phase = .core → s.gz.phase ≠ .core → t.gz.phase ≠ .core := fun hp hc => by
    rcases k hp with h1 | h1
    · rwa [h1]
    · exact absurd h1 hc
  rcases p.step e with ⟨⟨-, h1 | h1⟩ | ⟨-, rfl⟩ | ⟨-, rfl⟩, hp⟩ | ⟨-, ⟨hc, h1⟩ | rfl | ⟨hc, rfl⟩⟩
  · exact .inl ⟨h1 h, k2 hp⟩
  · exact .inl ⟨h1 h, k2 hp⟩
  · exact .inl ⟨ends s h, k2 hp⟩
  · exact .inl ⟨h, id⟩
  · rcases gzMove_cases s hc with ⟨-, h2⟩ | ⟨b, rest, h2, h3⟩
    · rw [h1, h2]
      exact .inl ⟨gz _ _ h, fun _ => by simp [gzFail, setGz]⟩
    · rw [h1]
      rcases h3 with ⟨h3, h4⟩ | ⟨h3, h4⟩
      · refine .inl ⟨?_, fun _ => h4⟩
        rw [h3]
        exact gz _ _ (take s b rest h h2)
      · exact .inr ⟨hc, h4, b, rest, _, h2, h3⟩
  · exact .inl ⟨h, id⟩
  · refine .inl ⟨?_, fun h => absurd hc h⟩
    rcases gzCoreEnded_cases s with ⟨-, h2⟩ | ⟨-, h2⟩ <;> rw [h2] <;> exact gz _ _ h

/-- A property kept by the primitives, the end of a block and the host's moves is kept by every step. -/
theorem step_kept {P : State → Prop} (p : Primitives (Kept P) (Kept P))
    (ends : ∀ s, P s → P (endBlock s))
    (gz : ∀ s g, P s → P (setGz g s))
    (reset : ∀ s g, P s → P (resetCore (setGz g s)))
    (take : ∀ s b rest, P s → s.src = .byte b :: rest → P { s with src := rest })
    {s t : State} (h : P s) (e : step s = .next t) : P t := by
  rcases step_kept_or_started p ends gz take h e with ⟨h1, -⟩ | ⟨-, -, b, rest, g, h1, rfl⟩
  · exact h1
  · exact reset _ g (take s b rest h h1)

end Sys2Proof.Machine
end

