-- ==== Sys2Proof/Laws/PerInstr.lean ====
section
/-! SUPPORT. The family Selection: alphabet, number and extra field of an element select that element and no other
(30_encoding.md R104, R105), and its extra field fits the width the tables give it (R95, R97, R98). -/

namespace Sys2Proof.Laws.Selection

set_option Elab.async false

/-- The element is the one its alphabet, number and extra field select, and the extra field fits. -/
def Statement (i : Instr) : Prop :=
  instrOf (alphabetOf i) (numberOf i) (extraOf i) = some i ∧ extraOf i < 2 ^ extraWidth (alphabetOf i) (numberOf i)

theorem blkStored (f : BitVec 1) : Statement (.blkStored f) := by revert f; unfold Statement; decide

theorem blkFixed (f : BitVec 1) : Statement (.blkFixed f) := by revert f; unfold Statement; decide

theorem blkDynamic (f : BitVec 1) : Statement (.blkDynamic f) := by revert f; unfold Statement; decide

theorem blkRsvd (f : BitVec 1) : Statement (.blkRsvd f) := by revert f; unfold Statement; decide

theorem clen (n : BitVec 4) : Statement (.clen n) := by revert n; unfold Statement; decide

theorem crep16 (x : BitVec 2) : Statement (.crep16 x) := by
  have := x.isLt
  simp [Statement, instrOf, alphabetOf, numberOf, extraOf, fieldsOf, extraWidth, clExtra]
  omega

theorem czero17 (x : BitVec 3) : Statement (.czero17 x) := by
  have := x.isLt
  simp [Statement, instrOf, alphabetOf, numberOf, extraOf, fieldsOf, extraWidth, clExtra]
  omega

theorem czero18 (x : BitVec 7) : Statement (.czero18 x) := by
  have := x.isLt
  simp [Statement, instrOf, alphabetOf, numberOf, extraOf, fieldsOf, extraWidth, clExtra]
  omega

theorem lit (b : BitVec 8) : Statement (.lit b) := by
  refine ⟨?_, by simp [extraOf, fieldsOf]⟩
  have h := b.isLt
  simp [instrOf, alphabetOf, numberOf, fieldsOf, show b.toNat < 256 from h]

theorem eob : Statement .eob := by
  simp [Statement, instrOf, alphabetOf, numberOf, extraOf, fieldsOf, extraWidth, lExtra]

theorem len257 : Statement .len257 := by
  simp [Statement, instrOf, alphabetOf, numberOf, extraOf, fieldsOf, extraWidth, lengthInstrs, lExtra, lExtraTable]

theorem len258 : Statement .len258 := by
  simp [Statement, instrOf, alphabetOf, numberOf, extraOf, fieldsOf, extraWidth, lengthInstrs, lExtra, lExtraTable]

theorem len259 : Statement .len259 := by
  simp [Statement, instrOf, alphabetOf, numberOf, extraOf, fieldsOf, extraWidth, lengthInstrs, lExtra, lExtraTable]

theorem len260 : Statement .len260 := by
  simp [Statement, instrOf, alphabetOf, numberOf, extraOf, fieldsOf, extraWidth, lengthInstrs, lExtra, lExtraTable]

theorem len261 : Statement .len261 := by
  simp [Statement, instrOf, alphabetOf, numberOf, extraOf, fieldsOf, extraWidth, lengthInstrs, lExtra, lExtraTable]

theorem len262 : Statement .len262 := by
  simp [Statement, instrOf, alphabetOf, numberOf, extraOf, fieldsOf, extraWidth, lengthInstrs, lExtra, lExtraTable]

theorem len263 : Statement .len263 := by
  simp [Statement, instrOf, alphabetOf, numberOf, extraOf, fieldsOf, extraWidth, lengthInstrs, lExtra, lExtraTable]

theorem len264 : Statement .len264 := by
  simp [Statement, instrOf, alphabetOf, numberOf, extraOf, fieldsOf, extraWidth, lengthInstrs, lExtra, lExtraTable]

theorem len265 (x : BitVec 1) : Statement (.len265 x) := by
  have := x.isLt
  simp [Statement, instrOf, alphabetOf, numberOf, extraOf, fieldsOf, extraWidth, lengthInstrs, lExtra, lExtraTable]
  omega

theorem len266 (x : BitVec 1) : Statement (.len266 x) := by
  have := x.isLt
  simp [Statement, instrOf, alphabetOf, numberOf, extraOf, fieldsOf, extraWidth, lengthInstrs, lExtra, lExtraTable]
  omega

theorem len267 (x : BitVec 1) : Statement (.len267 x) := by
  have := x.isLt
  simp [Statement, instrOf, alphabetOf, numberOf, extraOf, fieldsOf, extraWidth, lengthInstrs, lExtra, lExtraTable]
  omega

theorem len268 (x : BitVec 1) : Statement (.len268 x) := by
  have := x.isLt
  simp [Statement, instrOf, alphabetOf, numberOf, extraOf, fieldsOf, extraWidth, lengthInstrs, lExtra, lExtraTable]
  omega

theorem len269 (x : BitVec 2) : Statement (.len269 x) := by
  have := x.isLt
  simp [Statement, instrOf, alphabetOf, numberOf, extraOf, fieldsOf, extraWidth, lengthInstrs, lExtra, lExtraTable]
  omega

theorem len270 (x : BitVec 2) : Statement (.len270 x) := by
  have := x.isLt
  simp [Statement, instrOf, alphabetOf, numberOf, extraOf, fieldsOf, extraWidth, lengthInstrs, lExtra, lExtraTable]
  omega

theorem len271 (x : BitVec 2) : Statement (.len271 x) := by
  have := x.isLt
  simp [Statement, instrOf, alphabetOf, numberOf, extraOf, fieldsOf, extraWidth, lengthInstrs, lExtra, lExtraTable]
  omega

theorem len272 (x : BitVec 2) : Statement (.len272 x) := by
  have := x.isLt
  simp [Statement, instrOf, alphabetOf, numberOf, extraOf, fieldsOf, extraWidth, lengthInstrs, lExtra, lExtraTable]
  omega

theorem len273 (x : BitVec 3) : Statement (.len273 x) := by
  have := x.isLt
  simp [Statement, instrOf, alphabetOf, numberOf, extraOf, fieldsOf, extraWidth, lengthInstrs, lExtra, lExtraTable]
  omega

theorem len274 (x : BitVec 3) : Statement (.len274 x) := by
  have := x.isLt
  simp [Statement, instrOf, alphabetOf, numberOf, extraOf, fieldsOf, extraWidth, lengthInstrs, lExtra, lExtraTable]
  omega

theorem len275 (x : BitVec 3) : Statement (.len275 x) := by
  have := x.isLt
  simp [Statement, instrOf, alphabetOf, numberOf, extraOf, fieldsOf, extraWidth, lengthInstrs, lExtra, lExtraTable]
  omega

theorem len276 (x : BitVec 3) : Statement (.len276 x) := by
  have := x.isLt
  simp [Statement, instrOf, alphabetOf, numberOf, extraOf, fieldsOf, extraWidth, lengthInstrs, lExtra, lExtraTable]
  omega

theorem len277 (x : BitVec 4) : Statement (.len277 x) := by
  have := x.isLt
  simp [Statement, instrOf, alphabetOf, numberOf, extraOf, fieldsOf, extraWidth, lengthInstrs, lExtra, lExtraTable]
  omega

theorem len278 (x : BitVec 4) : Statement (.len278 x) := by
  have := x.isLt
  simp [Statement, instrOf, alphabetOf, numberOf, extraOf, fieldsOf, extraWidth, lengthInstrs, lExtra, lExtraTable]
  omega

theorem len279 (x : BitVec 4) : Statement (.len279 x) := by
  have := x.isLt
  simp [Statement, instrOf, alphabetOf, numberOf, extraOf, fieldsOf, extraWidth, lengthInstrs, lExtra, lExtraTable]
  omega

theorem len280 (x : BitVec 4) : Statement (.len280 x) := by
  have := x.isLt
  simp [Statement, instrOf, alphabetOf, numberOf, extraOf, fieldsOf, extraWidth, lengthInstrs, lExtra, lExtraTable]
  omega

theorem len281 (x : BitVec 5) : Statement (.len281 x) := by
  have := x.isLt
  simp [Statement, instrOf, alphabetOf, numberOf, extraOf, fieldsOf, extraWidth, lengthInstrs, lExtra, lExtraTable]
  omega

theorem len282 (x : BitVec 5) : Statement (.len282 x) := by
  have := x.isLt
  simp [Statement, instrOf, alphabetOf, numberOf, extraOf, fieldsOf, extraWidth, lengthInstrs, lExtra, lExtraTable]
  omega

theorem len283 (x : BitVec 5) : Statement (.len283 x) := by
  have := x.isLt
  simp [Statement, instrOf, alphabetOf, numberOf, extraOf, fieldsOf, extraWidth, lengthInstrs, lExtra, lExtraTable]
  omega

theorem len284 (x : BitVec 5) : Statement (.len284 x) := by
  have := x.isLt
  simp [Statement, instrOf, alphabetOf, numberOf, extraOf, fieldsOf, extraWidth, lengthInstrs, lExtra, lExtraTable]
  omega

theorem len285 : Statement .len285 := by
  simp [Statement, instrOf, alphabetOf, numberOf, extraOf, fieldsOf, extraWidth, lengthInstrs, lExtra, lExtraTable]

theorem ll286 : Statement .ll286 := by
  simp [Statement, instrOf, alphabetOf, numberOf, extraOf, fieldsOf, extraWidth, lExtra, lExtraTable]

theorem ll287 : Statement .ll287 := by
  simp [Statement, instrOf, alphabetOf, numberOf, extraOf, fieldsOf, extraWidth, lExtra, lExtraTable]

theorem dist0 : Statement .dist0 := by
  simp [Statement, instrOf, alphabetOf, numberOf, extraOf, fieldsOf, extraWidth, distInstrs, dExtra, dExtraTable]

theorem dist1 : Statement .dist1 := by
  simp [Statement, instrOf, alphabetOf, numberOf, extraOf, fieldsOf, extraWidth, distInstrs, dExtra, dExtraTable]

theorem dist2 : Statement .dist2 := by
  simp [Statement, instrOf, alphabetOf, numberOf, extraOf, fieldsOf, extraWidth, distInstrs, dExtra, dExtraTable]

theorem dist3 : Statement .dist3 := by
  simp [Statement, instrOf, alphabetOf, numberOf, extraOf, fieldsOf, extraWidth, distInstrs, dExtra, dExtraTable]

theorem dist4 (y : BitVec 1) : Statement (.dist4 y) := by
  have := y.isLt
  simp [Statement, instrOf, alphabetOf, numberOf, extraOf, fieldsOf, extraWidth, distInstrs, dExtra, dExtraTable]
  omega

theorem dist5 (y : BitVec 1) : Statement (.dist5 y) := by
  have := y.isLt
  simp [Statement, instrOf, alphabetOf, numberOf, extraOf, fieldsOf, extraWidth, distInstrs, dExtra, dExtraTable]
  omega

theorem dist6 (y : BitVec 2) : Statement (.dist6 y) := by
  have := y.isLt
  simp [Statement, instrOf, alphabetOf, numberOf, extraOf, fieldsOf, extraWidth, distInstrs, dExtra, dExtraTable]
  omega

theorem dist7 (y : BitVec 2) : Statement (.dist7 y) := by
  have := y.isLt
  simp [Statement, instrOf, alphabetOf, numberOf, extraOf, fieldsOf, extraWidth, distInstrs, dExtra, dExtraTable]
  omega

theorem dist8 (y : BitVec 3) : Statement (.dist8 y) := by
  have := y.isLt
  simp [Statement, instrOf, alphabetOf, numberOf, extraOf, fieldsOf, extraWidth, distInstrs, dExtra, dExtraTable]
  omega

theorem dist9 (y : BitVec 3) : Statement (.dist9 y) := by
  have := y.isLt
  simp [Statement, instrOf, alphabetOf, numberOf, extraOf, fieldsOf, extraWidth, distInstrs, dExtra, dExtraTable]
  omega

theorem dist10 (y : BitVec 4) : Statement (.dist10 y) := by
  have := y.isLt
  simp [Statement, instrOf, alphabetOf, numberOf, extraOf, fieldsOf, extraWidth, distInstrs, dExtra, dExtraTable]
  omega

theorem dist11 (y : BitVec 4) : Statement (.dist11 y) := by
  have := y.isLt
  simp [Statement, instrOf, alphabetOf, numberOf, extraOf, fieldsOf, extraWidth, distInstrs, dExtra, dExtraTable]
  omega

theorem dist12 (y : BitVec 5) : Statement (.dist12 y) := by
  have := y.isLt
  simp [Statement, instrOf, alphabetOf, numberOf, extraOf, fieldsOf, extraWidth, distInstrs, dExtra, dExtraTable]
  omega

theorem dist13 (y : BitVec 5) : Statement (.dist13 y) := by
  have := y.isLt
  simp [Statement, instrOf, alphabetOf, numberOf, extraOf, fieldsOf, extraWidth, distInstrs, dExtra, dExtraTable]
  omega

theorem dist14 (y : BitVec 6) : Statement (.dist14 y) := by
  have := y.isLt
  simp [Statement, instrOf, alphabetOf, numberOf, extraOf, fieldsOf, extraWidth, distInstrs, dExtra, dExtraTable]
  omega

theorem dist15 (y : BitVec 6) : Statement (.dist15 y) := by
  have := y.isLt
  simp [Statement, instrOf, alphabetOf, numberOf, extraOf, fieldsOf, extraWidth, distInstrs, dExtra, dExtraTable]
  omega

theorem dist16 (y : BitVec 7) : Statement (.dist16 y) := by
  have := y.isLt
  simp [Statement, instrOf, alphabetOf, numberOf, extraOf, fieldsOf, extraWidth, distInstrs, dExtra, dExtraTable]
  omega

theorem dist17 (y : BitVec 7) : Statement (.dist17 y) := by
  have := y.isLt
  simp [Statement, instrOf, alphabetOf, numberOf, extraOf, fieldsOf, extraWidth, distInstrs, dExtra, dExtraTable]
  omega

theorem dist18 (y : BitVec 8) : Statement (.dist18 y) := by
  have := y.isLt
  simp [Statement, instrOf, alphabetOf, numberOf, extraOf, fieldsOf, extraWidth, distInstrs, dExtra, dExtraTable]
  omega

theorem dist19 (y : BitVec 8) : Statement (.dist19 y) := by
  have := y.isLt
  simp [Statement, instrOf, alphabetOf, numberOf, extraOf, fieldsOf, extraWidth, distInstrs, dExtra, dExtraTable]
  omega

theorem dist20 (y : BitVec 9) : Statement (.dist20 y) := by
  have := y.isLt
  simp [Statement, instrOf, alphabetOf, numberOf, extraOf, fieldsOf, extraWidth, distInstrs, dExtra, dExtraTable]
  omega

theorem dist21 (y : BitVec 9) : Statement (.dist21 y) := by
  have := y.isLt
  simp [Statement, instrOf, alphabetOf, numberOf, extraOf, fieldsOf, extraWidth, distInstrs, dExtra, dExtraTable]
  omega

theorem dist22 (y : BitVec 10) : Statement (.dist22 y) := by
  have := y.isLt
  simp [Statement, instrOf, alphabetOf, numberOf, extraOf, fieldsOf, extraWidth, distInstrs, dExtra, dExtraTable]
  omega

theorem dist23 (y : BitVec 10) : Statement (.dist23 y) := by
  have := y.isLt
  simp [Statement, instrOf, alphabetOf, numberOf, extraOf, fieldsOf, extraWidth, distInstrs, dExtra, dExtraTable]
  omega

theorem dist24 (y : BitVec 11) : Statement (.dist24 y) := by
  have := y.isLt
  simp [Statement, instrOf, alphabetOf, numberOf, extraOf, fieldsOf, extraWidth, distInstrs, dExtra, dExtraTable]
  omega

theorem dist25 (y : BitVec 11) : Statement (.dist25 y) := by
  have := y.isLt
  simp [Statement, instrOf, alphabetOf, numberOf, extraOf, fieldsOf, extraWidth, distInstrs, dExtra, dExtraTable]
  omega

theorem dist26 (y : BitVec 12) : Statement (.dist26 y) := by
  have := y.isLt
  simp [Statement, instrOf, alphabetOf, numberOf, extraOf, fieldsOf, extraWidth, distInstrs, dExtra, dExtraTable]
  omega

theorem dist27 (y : BitVec 12) : Statement (.dist27 y) := by
  have := y.isLt
  simp [Statement, instrOf, alphabetOf, numberOf, extraOf, fieldsOf, extraWidth, distInstrs, dExtra, dExtraTable]
  omega

theorem dist28 (y : BitVec 13) : Statement (.dist28 y) := by
  have := y.isLt
  simp [Statement, instrOf, alphabetOf, numberOf, extraOf, fieldsOf, extraWidth, distInstrs, dExtra, dExtraTable]
  omega

theorem dist29 (y : BitVec 13) : Statement (.dist29 y) := by
  have := y.isLt
  simp [Statement, instrOf, alphabetOf, numberOf, extraOf, fieldsOf, extraWidth, distInstrs, dExtra, dExtraTable]
  omega

theorem dist30 : Statement .dist30 := by
  simp [Statement, instrOf, alphabetOf, numberOf, extraOf, fieldsOf, extraWidth, distInstrs, dExtra, dExtraTable]

theorem dist31 : Statement .dist31 := by
  simp [Statement, instrOf, alphabetOf, numberOf, extraOf, fieldsOf, extraWidth, distInstrs, dExtra, dExtraTable]

end Sys2Proof.Laws.Selection
end

