-- ==== Sys2Proof/Tests/Slice0.lean ====
section
/-! SUPPORT. The model's own tests. Every expected result is the spec's: the word of each element is written out from the
encoding its rule gives (30_encoding.md, 44_symbols.md examples, 95_test_vectors.md), each single step is one of
95_test_vectors.md's vectors, and each witness shows a state and operands that meet all hypotheses of an obligation. -/

namespace Sys2Proof.Tests

open Sys2Proof.Machine

set_option Elab.async false

/-! ## Helpers -/

/-- A word of stream bits, written as the spec writes it: 0s and 1s in stream order. -/
def w (l : List Nat) : List Bool := l.map (· == 1)

/-- The source that holds some bytes. -/
def srcOf (l : List Nat) : List SrcItem := l.map fun n => .byte (BitVec.ofNat 8 n)

/-- The outcome is a next state with some property. -/
def nextIs (o : Host.Outcome State Fault Refusal) (f : State → Bool) : Bool :=
  match o with
  | .next t => f t
  | _ => false

/-- The operation succeeds with some value in a state with some property. -/
def okIs {α : Type} [DecidableEq α] (r : Res α) (a : α) (f : State → Bool) : Bool :=
  match r with
  | .ok b t => b == a && f t
  | _ => false

/-- The operation raises a kind, in a state with some property. -/
def raisedIs {α : Type} (r : Res α) (k : ErrKind) (f : State → Bool) : Bool :=
  match r with
  | .raised t => t.err == errCode k && (t.st == .error && f t)
  | _ => false

/-- The element a fetch finds. -/
def elementOf : Fetched → Option Instr
  | .element i _ => some i
  | .move _ => none

/-- Code lengths with a few symbols present, the others absent. -/
def lensAt (n : Nat) (l : List (Nat × Nat)) : List Nat :=
  (List.range n).map fun s => ((l.find? fun p => p.1 == s).map Prod.snd).getD 0

/-- CORE about to read a block header, with some bytes ahead. -/
def sHdr (bytes : List Nat) : State := { State.reset with st := .readBlockHeader, src := srcOf bytes }

/-- CORE in a fixed block, a literal/length code next. -/
def sFix (bytes : List Nat) : State := { installFixed State.reset with src := srcOf bytes }

/-- CORE in a fixed block after the byte 0x41 and a length symbol, a distance code next. -/
def sMatch (len : Nat) (bytes : List Nat) : State :=
  { putByte 0x41 (sFix bytes) with mlen := BitVec.ofNat 9 len, awaitDist := true }

/-- CORE in the code-length sequence, with `HLIT + HDIST = 258`, IDX and the tree-code lengths given. -/
def sTree (idx : Nat) (lens : List (BitVec 3)) (bytes : List Nat) : State :=
  { State.reset with st := .dynamic, hlit := 257, hdist := 1, idx := BitVec.ofNat 9 idx
                     clLens := writeRun (Vector.replicate 19 0) lens, src := srcOf bytes }

/-- The tree-code lengths of program P5. -/
def clP5 : List Nat := [4, 4, 1, 0, 0, 0, 0, 0, 0, 0, 0, 0, 0, 0, 0, 0, 0, 3, 2]

/-- The tree-code lengths of program P6. -/
def clP6 : List Nat := [0, 0, 0, 1, 0, 0, 0, 0, 0, 0, 0, 0, 0, 0, 0, 0, 2, 0, 2]

/-- `n` zero bytes written from reset. -/
def filled : Nat → State
  | 0 => State.reset
  | n + 1 => putByte 0 (filled n)

theorem filled_spec (n : Nat) : OutputOk (filled n) ∧ (filled n).count = n ∧ (filled n).snkFailAt = none := by
  induction n with
  | zero => exact ⟨⟨[], [], rfl, rfl, rfl, fun k h => absurd h (Nat.not_lt_zero k)⟩, rfl, rfl⟩
  | succ n ih => exact ⟨putByte_outputOk 0 ih.1, by simp [filled, ih.2.1], by simp [filled, ih.2.2]⟩

/-- The host in some phase with some bytes of a field read and some bytes ahead. -/
def sGz (p : GzPhase) (buf : List Byte) (bytes : List Nat) : State :=
  { State.reset with src := srcOf bytes, gz := { GzHost.bare with phase := p, buf := buf } }

/-! ## Well-formedness: one ill-formed pair for each check, and well-formed ones -/

/-- (1) a literal is no block header. -/
theorem test_wf_alphabet : WellFormed .header (.lit 0) = false := by decide

/-- (2) a table of 257 lengths has no symbol 285. -/
theorem test_wf_number : WellFormed (.litLen (List.replicate 257 9)) .len285 = false := by decide +kernel

/-- (3) an absent symbol has no code (V4.3). -/
theorem test_wf_absent : WellFormed (.dist [0, 1]) .dist0 = false := by decide

/-- (4) a length above 15 (V4.15). -/
theorem test_wf_length : WellFormed (.dist [1, 16]) .dist0 = false := by decide

/-- (5) over-subscribed lengths (V4.11). -/
theorem test_wf_budget : WellFormed (.dist [1, 1, 1]) .dist0 = false := by decide

theorem test_wf_good : WellFormed .header (.blkStored 1) = true ∧ WellFormed (.dist [0, 1]) .dist1 = true ∧
    WellFormed (.litLen fixedLLLens) .ll287 = true := by decide +kernel

/-! ## Decoding: a word of every element, written out from the spec -/

/-- 95_test_vectors.md V6. -/
theorem test_decode_headers :
    decode .header (w [0, 0, 0]) = .ok (.blkStored 0, []) ∧ decode .header (w [1, 0, 0]) = .ok (.blkStored 1, []) ∧
    decode .header (w [0, 1, 0]) = .ok (.blkFixed 0, []) ∧ decode .header (w [1, 1, 0]) = .ok (.blkFixed 1, []) ∧
    decode .header (w [0, 0, 1]) = .ok (.blkDynamic 0, []) ∧ decode .header (w [1, 0, 1]) = .ok (.blkDynamic 1, []) ∧
    decode .header (w [0, 1, 1]) = .ok (.blkRsvd 0, []) ∧ decode .header (w [1, 1, 1]) = .ok (.blkRsvd 1, []) := by
  decide

/-- Programs P5 (bits 80, 101, 71, 108) and P6 (bit 69): CLEN 2, CLEN 0, CZERO17 3, CZERO18 97, CREP16 3. -/
theorem test_decode_tree :
    decode (.treeCode clP5) (w [0]) = .ok (.clen 2, []) ∧
    decode (.treeCode clP5) (w [1, 1, 1, 0]) = .ok (.clen 0, []) ∧
    decode (.treeCode clP5) (w [1, 1, 0, 0, 0, 0]) = .ok (.czero17 0, []) ∧
    decode (.treeCode clP5) (w [1, 0, 0, 1, 1, 0, 1, 0, 1]) = .ok (.czero18 86, []) ∧
    decode (.treeCode clP6) (w [1, 0, 0, 0]) = .ok (.crep16 0, []) ∧
    decode (.treeCode clP6) (w [1, 0, 1, 0]) = .ok (.crep16 1, []) := by
  decide +kernel

/-- 95_test_vectors.md V5 (fixed codes); R231, R232. -/
theorem test_decode_literals :
    decode (.litLen fixedLLLens) (w [0, 0, 1, 1, 0, 0, 0, 0]) = .ok (.lit 0, []) ∧
    decode (.litLen fixedLLLens) (w [0, 1, 1, 1, 0, 0, 0, 1]) = .ok (.lit 65, []) ∧
    decode (.litLen fixedLLLens) (w [1, 0, 1, 1, 1, 1, 1, 1]) = .ok (.lit 143, []) ∧
    decode (.litLen fixedLLLens) (w [1, 1, 0, 0, 1, 0, 0, 0, 0]) = .ok (.lit 144, []) ∧
    decode (.litLen fixedLLLens) (w [1, 1, 1, 1, 1, 1, 1, 1, 1]) = .ok (.lit 255, []) ∧
    decode (.litLen fixedLLLens) (w [0, 0, 0, 0, 0, 0, 0]) = .ok (.eob, []) := by
  decide +kernel

/-- 44_symbols.md, the examples of R233 to R247. -/
theorem test_decode_lengths_a :
    ∀ p ∈ ([
      ([0, 0, 0, 0, 0, 0, 1], .len257),
      ([0, 0, 0, 0, 0, 1, 0], .len258),
      ([0, 0, 0, 0, 0, 1, 1], .len259),
      ([0, 0, 0, 0, 1, 0, 0], .len260),
      ([0, 0, 0, 0, 1, 0, 1], .len261),
      ([0, 0, 0, 0, 1, 1, 0], .len262),
      ([0, 0, 0, 0, 1, 1, 1], .len263),
      ([0, 0, 0, 1, 0, 0, 0], .len264),
      ([0, 0, 0, 1, 0, 0, 1, 0], .len265 0),
      ([0, 0, 0, 1, 0, 1, 0, 0], .len266 0),
      ([0, 0, 0, 1, 0, 1, 1, 0], .len267 0),
      ([0, 0, 0, 1, 1, 0, 0, 0], .len268 0),
      ([0, 0, 0, 1, 1, 0, 1, 0, 1], .len269 2),
      ([0, 0, 0, 1, 1, 1, 0, 0, 1], .len270 2),
      ([0, 0, 0, 1, 1, 1, 1, 0, 1], .len271 2)] : List (List Nat × Instr)),
      decode (.litLen fixedLLLens) (w p.1) = .ok (p.2, []) := by
  decide +kernel

/-- 44_symbols.md, the examples of R248 to R261. -/
theorem test_decode_lengths_b :
    ∀ p ∈ ([
      ([0, 0, 1, 0, 0, 0, 0, 0, 1], .len272 2),
      ([0, 0, 1, 0, 0, 0, 1, 0, 0, 1], .len273 4),
      ([0, 0, 1, 0, 0, 1, 0, 0, 0, 1], .len274 4),
      ([0, 0, 1, 0, 0, 1, 1, 0, 0, 1], .len275 4),
      ([0, 0, 1, 0, 1, 0, 0, 0, 0, 1], .len276 4),
      ([0, 0, 1, 0, 1, 0, 1, 0, 0, 0, 1], .len277 8),
      ([0, 0, 1, 0, 1, 1, 0, 0, 0, 0, 1], .len278 8),
      ([0, 0, 1, 0, 1, 1, 1, 0, 0, 0, 1], .len279 8),
      ([1, 1, 0, 0, 0, 0, 0, 0, 0, 0, 0, 1], .len280 8),
      ([1, 1, 0, 0, 0, 0, 0, 1, 0, 0, 0, 0, 1], .len281 16),
      ([1, 1, 0, 0, 0, 0, 1, 0, 0, 0, 0, 0, 1], .len282 16),
      ([1, 1, 0, 0, 0, 0, 1, 1, 0, 0, 0, 0, 1], .len283 16),
      ([1, 1, 0, 0, 0, 1, 0, 0, 0, 0, 0, 0, 1], .len284 16),
      ([1, 1, 0, 0, 0, 1, 0, 1], .len285)] : List (List Nat × Instr)),
      decode (.litLen fixedLLLens) (w p.1) = .ok (p.2, []) := by
  decide +kernel

/-- 44_symbols.md, the examples of R264 to R278. -/
theorem test_decode_distances_a :
    ∀ p ∈ ([
      ([0, 0, 0, 0, 0], .dist0),
      ([0, 0, 0, 0, 1], .dist1),
      ([0, 0, 0, 1, 0], .dist2),
      ([0, 0, 0, 1, 1], .dist3),
      ([0, 0, 1, 0, 0, 0], .dist4 0),
      ([0, 0, 1, 0, 1, 0], .dist5 0),
      ([0, 0, 1, 1, 0, 1, 0], .dist6 1),
      ([0, 0, 1, 1, 1, 1, 0], .dist7 1),
      ([0, 1, 0, 0, 0, 1, 0, 1], .dist8 5),
      ([0, 1, 0, 0, 1, 1, 0, 1], .dist9 5),
      ([0, 1, 0, 1, 0, 1, 0, 0, 1], .dist10 9),
      ([0, 1, 0, 1, 1, 1, 0, 0, 1], .dist11 9),
      ([0, 1, 1, 0, 0, 1, 0, 0, 0, 1], .dist12 17),
      ([0, 1, 1, 0, 1, 1, 0, 0, 0, 1], .dist13 17),
      ([0, 1, 1, 1, 0, 1, 0, 0, 0, 0, 1], .dist14 33)] : List (List Nat × Instr)),
      decode (.dist fixedDLens) (w p.1) = .ok (p.2, []) := by
  decide +kernel

/-- 44_symbols.md, the examples of R279 to R293. -/
theorem test_decode_distances_b :
    ∀ p ∈ ([
      ([0, 1, 1, 1, 1, 1, 0, 0, 0, 0, 1], .dist15 33),
      ([1, 0, 0, 0, 0, 1, 0, 0, 0, 0, 0, 1], .dist16 65),
      ([1, 0, 0, 0, 1, 1, 0, 0, 0, 0, 0, 1], .dist17 65),
      ([1, 0, 0, 1, 0, 1, 0, 0, 0, 0, 0, 0, 1], .dist18 129),
      ([1, 0, 0, 1, 1, 1, 0, 0, 0, 0, 0, 0, 1], .dist19 129),
      ([1, 0, 1, 0, 0, 1, 0, 0, 0, 0, 0, 0, 0, 1], .dist20 257),
      ([1, 0, 1, 0, 1, 1, 0, 0, 0, 0, 0, 0, 0, 1], .dist21 257),
      ([1, 0, 1, 1, 0, 1, 0, 0, 0, 0, 0, 0, 0, 0, 1], .dist22 513),
      ([1, 0, 1, 1, 1, 1, 0, 0, 0, 0, 0, 0, 0, 0, 1], .dist23 513),
      ([1, 1, 0, 0, 0, 1, 0, 0, 0, 0, 0, 0, 0, 0, 0, 1], .dist24 1025),
      ([1, 1, 0, 0, 1, 1, 0, 0, 0, 0, 0, 0, 0, 0, 0, 1], .dist25 1025),
      ([1, 1, 0, 1, 0, 1, 0, 0, 0, 0, 0, 0, 0, 0, 0, 0, 1], .dist26 2049),
      ([1, 1, 0, 1, 1, 1, 0, 0, 0, 0, 0, 0, 0, 0, 0, 0, 1], .dist27 2049),
      ([1, 1, 1, 0, 0, 1, 0, 0, 0, 0, 0, 0, 0, 0, 0, 0, 0, 1], .dist28 4097),
      ([1, 1, 1, 0, 1, 1, 0, 0, 0, 0, 0, 0, 0, 0, 0, 0, 0, 1], .dist29 4097)] : List (List Nat × Instr)),
      decode (.dist fixedDLens) (w p.1) = .ok (p.2, []) := by
  decide +kernel

/-- The examples of R262, R263, R295 (a 1-bit code for symbol 31) and program E10 (DIST30 `00000`). -/
theorem test_decode_reserved :
    decode (.litLen fixedLLLens) (w [1, 1, 0, 0, 0, 1, 1, 0]) = .ok (.ll286, []) ∧
    decode (.litLen fixedLLLens) (w [1, 1, 0, 0, 0, 1, 1, 1]) = .ok (.ll287, []) ∧
    decode (.dist (lensAt 32 [(30, 5), (31, 5)])) (w [0, 0, 0, 0, 0]) = .ok (.dist30, []) ∧
    decode (.dist (lensAt 32 [(31, 1)])) (w [0]) = .ok (.dist31, []) := by
  decide +kernel

/-- Rejections: input that ends inside a code or a field (R140), 15 bits without a code (V5.3, V5.5), lengths that build
no table (V4.11). -/
theorem test_decode_rejects :
    decode .header (w [1, 0]) = .error .endOfInput ∧
    decode (.dist [0, 1]) (List.replicate 15 true) = .error .invalidCode ∧
    decode (.dist [0, 1]) (List.replicate 14 true) = .error .endOfInput ∧
    decode (.dist [0, 0, 0]) (List.replicate 16 false) = .error .invalidCode ∧
    decode (.dist [1, 1, 1]) (w [0]) = .error .invalidTree ∧
    decode (.dist fixedDLens) (w [0, 0, 1, 0, 0]) = .error .endOfInput := by
  decide +kernel

/-! ## Huffman construction -/

/-- V4.1, V4.2, V4.9, V4.10: lengths, and the code of each symbol in symbol order. -/
theorem test_huffman_codes :
    (List.range 8).map (symbolBits [3, 3, 3, 3, 3, 2, 4, 4]) =
      ([[0, 1, 0], [0, 1, 1], [1, 0, 0], [1, 0, 1], [1, 1, 0], [0, 0], [1, 1, 1, 0], [1, 1, 1, 1]].map (some <| w ·)) ∧
    (List.range 7).map (symbolBits [2, 3, 4, 3, 3, 4, 2]) =
      ([[0, 0], [1, 0, 0], [1, 1, 1, 0], [1, 0, 1], [1, 1, 0], [1, 1, 1, 1], [0, 1]].map (some <| w ·)) ∧
    (List.range 4).map (symbolBits [1, 2, 3, 3]) =
      ([[0], [1, 0], [1, 1, 0], [1, 1, 1]].map (some <| w ·)) ∧
    symbolBits [15, 15, 1] 1 = some (w [1, 0, 0, 0, 0, 0, 0, 0, 0, 0, 0, 0, 0, 0, 1]) := by
  decide +kernel

/-- V4.11 to V4.15 are rejected; V4.3, V4.6, V4.8 (incomplete, empty, the fixed distances) are accepted. -/
theorem test_huffman_validity :
    huffBuild [1, 1, 1] = none ∧ huffBuild [1, 2, 2, 2] = none ∧ huffBuild [2, 2, 2, 2, 15] = none ∧
    huffBuild [16] = none ∧ huffBuild [0, 16] = none ∧ (huffBuild [0, 1]).isSome = true ∧
    huffBuild [0, 0, 0] = some [] ∧ (huffBuild (List.replicate 30 5)).isSome = true := by
  decide +kernel

/-- V5.1: the first of its four decodes, symbol 5 after two bits. -/
theorem test_huffman_decode :
    okIs (huffDecode [3, 3, 3, 3, 3, 2, 4, 4] (sHdr [0xE8, 0x07])) 5 (fun t => t.ipos == 1 && t.bc == 6) = true ∧
    raisedIs (huffDecode [0, 1] (sHdr [0xFF, 0xFF])) .invalidHuffmanCode (fun t => cursor t == 15) = true ∧
    raisedIs (huffDecode [0, 1] (sHdr [0xFF])) .unexpectedEof (fun t => cursor t == 8) = true := by
  decide +kernel

/-! ## Bit reader, CRC and tracking writer -/

/-- V1.1, V1.2, V1.3, V1.12. -/
theorem test_read_bits :
    okIs (readBits 3 (sHdr [0xB5, 0x01])) 5 (fun t => t.bb == 0x16 && (t.bc == 5 && t.ipos == 1)) = true ∧
    okIs (((readBits 4).bind fun _ => (readBits 8).bind fun _ => readBits 12) (sHdr [0xFF, 0x00, 0xAA])) 0xAA0
      (fun t => t.ipos == 3 && t.bc == 0) = true ∧
    okIs (readBits 32 (sHdr [0x78, 0x56, 0x34, 0x12])) 0x12345678 (fun t => t.ipos == 4 && t.bc == 0) = true := by
  decide +kernel

/-- V1.4, V1.8, V1.10. -/
theorem test_read_edges :
    okIs (((readBits 3).bind fun _ => (Op.modify alignToByte).andThen readByteAligned) (sHdr [0xA5, 0x3C])) 0x3C
      (fun t => t.ipos == 2 && t.bc == 0) = true ∧
    raisedIs (readBits 9 (sHdr [0xFF])) .unexpectedEof (fun t => t.ipos == 1 && t.bc == 0) = true ∧
    raisedIs (readBit (sHdr [])) .unexpectedEof (fun t => t.ipos == 0 && t.bc == 0) = true := by
  decide +kernel

/-- V2: single steps, and the registers after "HELLO" and "HI!". -/
theorem test_crc :
    crcStep 0xFFFFFFFF 0x41 = 0x2C266174 ∧ crcStep 0xFFFFFFFF 0x00 = 0x2DFD1072 ∧ crcStep 0 0x01 = 0x77073096 ∧
    crcStep 0 0x80 = 0xEDB88320 ∧ crcStep 0 0xFF = 0x2D02EF8D ∧
    crcAfter [0x48, 0x45, 0x4C, 0x4C, 0x4F] = 0x3EBB9BC9 ∧ crcAfter [0x48, 0x49, 0x21] = 0x13E51E87 := by
  decide +kernel

/-- V3.1, V3.2, V3.6: overlapping copies. -/
theorem test_write_previous :
    okIs (((writeBytes [0x41]).andThen (writePrevious 5 1)) State.reset) ()
      (fun t => t.snk == List.replicate 6 0x41 && crc32 t == 0xAA1CDE7E) = true ∧
    okIs (((writeBytes [0x61, 0x62, 0x63]).andThen (writePrevious 7 3)) State.reset) ()
      (fun t => t.count == 10 && crc32 t == 0xFB9D0B5D) = true ∧
    okIs (((writeBytes [0x78, 0x79, 0x7A]).andThen (writePrevious 3 3)) State.reset) ()
      (fun t => t.snk == [0x78, 0x79, 0x7A, 0x78, 0x79, 0x7A]) = true := by
  decide +kernel

/-- V3.4, V3.5, and a sink that refuses the third byte of a copy (60_exceptions.md R358). -/
theorem test_write_previous_fails :
    raisedIs (writePrevious 3 1 State.reset) .invalidDistance (fun t => t.count == 0) = true ∧
    raisedIs (((writeBytes [0x78, 0x79, 0x7A]).andThen (writePrevious 3 4)) State.reset) .invalidDistance
      (fun t => t.count == 3) = true ∧
    raisedIs (((writeBytes [0x41]).andThen (writePrevious 5 1)) { State.reset with snkFailAt := some 3 }) .ioError
      (fun t => t.count == 3 && t.snk == [0x41, 0x41, 0x41]) = true := by
  decide +kernel

/-! ## Single steps of programs -/

/-- P2: the header. -/
theorem test_step_fixed_header : nextIs (step (sHdr [0x73, 0x04, 0x00])) (fun t =>
    t.ipos == 1 && (t.bc == 5 && (t.bb == 0x0E && (t.st == .decodeSymbols && (t.bfinal == 1 && t.btype == 1))))) = true := by
  decide +kernel

/-- P2: the literal, after the header. -/
theorem test_step_literal : nextIs (step { sFix [0x04, 0x00] with bb := 0x0E, bc := 5, ipos := 1 }) (fun t =>
    t.ipos == 2 && (t.bc == 5 && (t.bb == 0x00 && (t.count == 1 && (t.crc == 0x2C266174 &&
      (Memory.read t.win 0 == some 0x41 && t.sym == 65)))))) = true := by
  decide +kernel

/-- P2: the end of the block, then DONE. -/
theorem test_step_end_of_block :
    nextIs (step { sFix [0x00] with bb := 0x00, bc := 5, ipos := 2 }) (fun t =>
      t.ipos == 3 && (t.bc == 6 && (t.st == .blockEnd && t.count == 0))) = true ∧
    nextIs (step { sHdr [] with st := .blockEnd, bfinal := 1, bb := 0, bc := 6 }) (fun t =>
      t.bc == 0 && (t.done == 1 && (t.st == .done && t.err == 0))) = true := by
  decide +kernel

/-- P3: LEN261 at bit 11, then DIST0 at bit 18 with one byte written. -/
theorem test_step_match :
    nextIs (step { sFix [0x02, 0x00] with bb := 0x10, bc := 5, ipos := 2 }) (fun t =>
      t.ipos == 3 && (t.bc == 6 && (t.mlen == 7 && (t.awaitDist && t.count == 0)))) = true ∧
    nextIs (step { sMatch 7 [0x00] with bb := 0x00, bc := 6, ipos := 3 }) (fun t =>
      t.bc == 1 && (t.mdist == 1 && (t.count == 8 && (crc32 t == 0x79B71C0A && t.awaitDist == false)))) = true := by
  decide +kernel

/-- P1, S5ok's block "HELLO", and E2, E2b. -/
theorem test_step_stored :
    nextIs (step (sHdr [0x01, 0x00, 0x00, 0xFF, 0xFF])) (fun t =>
      t.st == .blockEnd && (t.ipos == 5 && (t.bc == 0 && t.snk == []))) = true ∧
    nextIs (step (sHdr [0x01, 0x05, 0x00, 0xFA, 0xFF, 0x48, 0x45, 0x4C, 0x4C, 0x4F])) (fun t =>
      t.st == .blockEnd && (t.count == 5 && (crc32 t == 0xC1446436 && t.rem == 0))) = true ∧
    nextIs (step (sHdr [0x01, 0x05, 0x00, 0xFB, 0xFF, 0x48])) (fun t =>
      t.err == 7 && (t.ipos == 5 && t.snk == [])) = true ∧
    nextIs (step (sHdr [0x01, 0x05, 0x00, 0xFA, 0xFF, 0x48, 0x45])) (fun t =>
      t.err == 11 && (t.ipos == 7 && t.snk == [0x48, 0x45])) = true := by
  decide +kernel

/-- P5: the dynamic header, and the first code-length element (bits 71 to 79: CZERO18 97). -/
theorem test_step_dynamic :
    nextIs (step (sHdr [0x25, 0xC1, 0x31, 0x11, 0x00, 0x00, 0x00, 0x40, 0xC0])) (fun t =>
      t.st == .dynamic && (t.hlit == 261 && (t.hdist == 2 && (t.hclen == 18 && (t.idx == 0 &&
        (clInForce t == clP5 && cursor t == 71)))))) = true ∧
    nextIs (step { sTree 0 (clP5.map (BitVec.ofNat 3)) [0xAC] with bb := 1, bc := 1, ipos := 9 }) (fun t =>
      t.idx == 97 && cursor t == 80) = true := by
  decide +kernel

/-- E1, E4, E5: the reserved type, an over-subscribed tree code, symbol 16 first (cursor 30, before its extra bits). -/
theorem test_step_header_errors :
    nextIs (step (sHdr [0x07])) (fun t => t.err == 5 && (t.ipos == 1 && t.bc == 5)) = true ∧
    nextIs (step (sHdr [0x05, 0x00, 0x92, 0x00])) (fun t => t.err == 8 && (t.ipos == 4 && t.bc == 3)) = true ∧
    nextIs (step { sTree 0 [1, 0, 0, 0, 0, 0, 0, 0, 0, 0, 0, 0, 0, 0, 0, 0, 1] [] with bb := 0x01, bc := 3, ipos := 4 })
      (fun t => t.err == 8 && (t.bc == 2 && t.idx == 0)) = true := by
  decide +kernel

/-- V8: repeats at the positions of the table, the overrun at IDX 175. -/
theorem test_exec_repeats :
    nextIs (exec (.crep16 0) { sTree 1 [] [] with scr := (Vector.replicate 320 0).set 0 5 }) (fun t =>
      t.idx == 4 && t.scr.toList.take 5 == [5, 5, 5, 5, 0]) = true ∧
    nextIs (exec (.czero17 7) (sTree 13 [] [])) (fun t => t.idx == 23) = true ∧
    nextIs (exec (.czero18 127) (sTree 37 [] [])) (fun t => t.idx == 175) = true ∧
    nextIs (exec (.czero18 73) (sTree 175 [] [])) (fun t => t.err == 8 && t.idx == 175) = true ∧
    nextIs (exec (.czero18 72) (sTree 175 [] [])) (fun t => t.err == 0 && t.idx == 258) = true := by
  decide +kernel

/-- E8 (LL286 after 8 bits), E3 (DIST0 with nothing written), E9 (distance bits 11110 0000000000). -/
theorem test_step_symbol_errors :
    nextIs (step (sFix [0x63])) (fun t => t.err == 9 && (t.bc == 0 && t.ipos == 1)) = true ∧
    nextIs (step { sFix [0x00] with awaitDist := true, mlen := 3 }) (fun t =>
      t.err == 10 && (t.mdist == 1 && t.count == 0)) = true ∧
    nextIs (step { sMatch 3 [0x00, 0x00] with bb := 0x0F, bc := 6, ipos := 3 }) (fun t =>
      t.err == 9 && (t.ipos == 5 && (t.bc == 7 && t.count == 1))) = true := by
  decide +kernel

/-- The host: S8 (method 7), S9 (ISIZE 0 against 1 byte), S4's CRC, S7's header CRC `DF 89` of its 16 bytes. -/
theorem test_step_host :
    nextIs (step (sGz .cm [] [0x07])) (fun t => t.gz.phase == .failed && t.gz.err == some .unsupportedCompressionMethod) = true ∧
    nextIs (step { putByte 0x41 (sGz .trailer [0x8B, 0x9E, 0xD9, 0xD3, 0, 0, 0] [0x00]) with ipos := 3 }) (fun t =>
      t.gz.err == some .lengthMismatch) = true ∧
    nextIs (step (putByte 0x41 (sGz .trailer [0x8A, 0x9E, 0xD9, 0xD3, 1, 0, 0] [0x00]))) (fun t =>
      t.gz.err == some .crc32Mismatch) = true ∧
    nextIs (step (putByte 0x41 (sGz .trailer [0x8B, 0x9E, 0xD9, 0xD3, 1, 0, 0] [0x00]))) (fun t =>
      t.gz.phase == .success) = true ∧
    nextIs (step { sGz .hcrc [0xDF] [0x89, 0x73] with gz := { GzHost.bare with
        phase := .hcrc, buf := [0xDF]
        hcrc := crcAfter [0x1F, 0x8B, 8, 0x0A, 0, 0, 0, 0, 0, 0xFF, 0x61, 0x2E, 0x74, 0x78, 0x74, 0] } }) (fun t =>
      t.gz.phase == .core && t.src == srcOf [0x73]) = true := by
  decide +kernel

/-! ## Witnesses: for every obligation with hypotheses, a state and operands that meet all of them

Where an obligation has several clauses, one instantiation for each, at a boundary value where the clause has a range. -/

/-- A state as it stands under a gzip host that has started CORE and waits for it. -/
def hosted (s : State) : State := { s with gz := { GzHost.bare with phase := .core } }

/-- O1: an element, and a move; CORE's fetch alone and under the host. -/
theorem witness_StepRunsTheFetchedElement : elementOf (fetch (sHdr [0x73])) = some (.blkFixed 1) ∧
    fetch State.reset = .move (.next (setState .readBlockHeader State.reset)) ∧
    CoreRuns (sHdr [0x73]) ∧ CoreRuns (hosted (sHdr [0x73])) :=
  ⟨by decide +kernel, rfl, .inl rfl, .inr ⟨rfl, rfl, rfl⟩⟩

/-- O2: a header, a literal, a distance, a repeat with a previous length; alone and under the host; at the largest IPOS
with room. -/
theorem witness_StepRunsTheDecodedElement :
    (CoreRuns (sHdr [0x73]) ∧ BitReaderOk (sHdr [0x73]) ∧ RoomIn (sHdr [0x73]) 8 ∧
      contextOf (sHdr [0x73]) = some .header ∧
      decode .header (bitsAhead (sHdr [0x73])) = .ok (.blkFixed 1, w [0, 1, 1, 1, 0])) ∧
    (let s := hosted (sFix [0x00])
     CoreRuns s ∧ BitReaderOk s ∧ RoomIn { s with ipos := 2 ^ 64 - 9 } 8 ∧
      contextOf s = some (.litLen (llInForce s)) ∧
      decode (.litLen (llInForce s)) (bitsAhead s) = .ok (.eob, w [0])) ∧
    (contextOf (sMatch 3 [0x00]) = some (.dist (dInForce (sMatch 3 [0x00]))) ∧
      decode (.dist (dInForce (sMatch 3 [0x00]))) (bitsAhead (sMatch 3 [0x00])) = .ok (.dist0, w [0, 0, 0])) ∧
    (let s := sTree 1 (clP6.map (BitVec.ofNat 3)) [0x01]
     contextOf s = some (.treeCode (clInForce s)) ∧
      decode (.treeCode (clInForce s)) (bitsAhead s) = .ok (.crep16 0, w [0, 0, 0, 0]) ∧ hasPrevLen s = true) := by
  unfold CoreRuns BitReaderOk RoomIn
  decide +kernel

/-- O3: the bits end, at the end and, under the host, at an `IoErr` mark; 15 bits without a code; lengths that build no
table. -/
theorem witness_StepRejectsAsTheDecoderDoes :
    (CoreRuns (sHdr []) ∧ BitReaderOk (sHdr []) ∧ RoomIn (sHdr []) 8 ∧
      contextOf (sHdr []) = some .header ∧ decode .header (bitsAhead (sHdr [])) = .error .endOfInput) ∧
    (let s := hosted { sHdr [] with src := [.ioErr] }
     CoreRuns s ∧ contextOf s = some .header ∧ decode .header (bitsAhead s) = .error .endOfInput) ∧
    (let s := { sFix [0, 0] with llLens := Vector.replicate 288 0 }
     CoreRuns s ∧ BitReaderOk s ∧ RoomIn s 8 ∧ contextOf s = some (.litLen (llInForce s)) ∧
      decode (.litLen (llInForce s)) (bitsAhead s) = .error .invalidCode) ∧
    (let s := { sFix [0, 0] with llLens := Vector.replicate 288 1 }
     contextOf s = some (.litLen (llInForce s)) ∧
      decode (.litLen (llInForce s)) (bitsAhead s) = .error .invalidTree) := by
  unfold CoreRuns BitReaderOk RoomIn
  decide +kernel

/-- O3: the first code-length element (IDX 0) whose input ends: inside CZERO18's extra field with program P5's lengths
(bits 1, 0 and six more), and with no bit at all. -/
theorem witness_StepRejectsAsTheDecoderDoes_first :
    (let s := sTree 0 (clP5.map (BitVec.ofNat 3)) [0x01]
     CoreRuns s ∧ s.idx = 0 ∧ BitReaderOk s ∧ RoomIn s 8 ∧ contextOf s = some (.treeCode (clInForce s)) ∧
      decodeSymbol (clInForce s) (bitsAhead s) = .ok (18, w [0, 0, 0, 0, 0, 0]) ∧
      decode (.treeCode (clInForce s)) (bitsAhead s) = .error .endOfInput) ∧
    (let s := sTree 0 (clP5.map (BitVec.ofNat 3)) []
     s.idx = 0 ∧ decodeSymbol (clInForce s) (bitsAhead s) = .error .endOfInput ∧
      decode (.treeCode (clInForce s)) (bitsAhead s) = .error .endOfInput) := by
  unfold CoreRuns BitReaderOk RoomIn
  decide +kernel

/-- O6 and O7. -/
theorem witness_DecodeOfEncode : encode (.litLen fixedLLLens) (.len269 2) = some (w [0, 0, 0, 1, 1, 0, 1, 0, 1]) ∧
    decode (.litLen fixedLLLens) (w [0, 0, 0, 1, 1, 0, 1, 0, 1, 1]) = .ok (.len269 2, w [1]) := by decide +kernel

/-- O10: V4.1 builds; its symbols 5 and 6 have codes of lengths 2 and 4, its symbols 6 and 7 of one length. -/
theorem witness_HuffTableIsCanonicalAndPrefixFree :
    huffBuild [3, 3, 3, 3, 3, 2, 4, 4] = some [⟨3, 2, 0⟩, ⟨3, 3, 1⟩, ⟨3, 4, 2⟩, ⟨3, 5, 3⟩, ⟨3, 6, 4⟩, ⟨2, 0, 5⟩,
      ⟨4, 14, 6⟩, ⟨4, 15, 7⟩] := by decide +kernel

/-- O11: a full code (Kraft sum exactly 1) with the code of symbol 7 ahead. -/
theorem witness_HuffmanRoundTrip : (∀ L ∈ [3, 3, 3, 3, 3, 2, 4, 4], L ≤ 15) ∧
    kraftUnits [3, 3, 3, 3, 3, 2, 4, 4] = 2 ^ 15 ∧ [3, 3, 3, 3, 3, 2, 4, 4].getD 7 0 ≠ 0 ∧
    BitReaderOk (sHdr [0x1F]) ∧ RoomIn (sHdr [0x1F]) 3 ∧
    bitsAhead (sHdr [0x1F]) = w [1, 1, 1, 1] ++ w [1, 0, 0, 0] := by
  unfold BitReaderOk RoomIn
  decide +kernel

/-- O12: one state for each outcome; the largest IPOS with room and the first without. -/
theorem witness_SourceOutcomes :
    ((sHdr [1]).src = .byte 1 :: [] ∧ RoomIn { sHdr [1] with ipos := 2 ^ 64 - 2 } 1) ∧
    ¬ RoomIn { sHdr [1] with ipos := 2 ^ 64 - 1 } 1 ∧ (sHdr []).src = [] ∧
    { sHdr [] with src := [SrcItem.ioErr] }.src = .ioErr :: [] := by
  unfold RoomIn
  decide +kernel

/-- O14: 32 bits and 0 bits, at a byte boundary and with 5 bits in the buffer. -/
theorem witness_ReadBitsValue :
    (BitReaderOk (sHdr [1, 2, 3, 4]) ∧ RoomIn { sHdr [1, 2, 3, 4] with ipos := 2 ^ 64 - 6 } 5 ∧
      32 ≤ (bitsAhead (sHdr [1, 2, 3, 4])).length) ∧
    (let s := { sHdr [1, 2, 3, 4] with bb := 0x1F, bc := 5 }
     BitReaderOk s ∧ RoomIn s 5 ∧ 32 ≤ (bitsAhead s).length) := by
  unfold BitReaderOk RoomIn
  decide +kernel

/-- O15: V1.8, and one bit from nothing. -/
theorem witness_ReadBitsPastTheEnd :
    (BitReaderOk (sHdr [0xFF]) ∧ RoomIn (sHdr [0xFF]) 5 ∧ (bitsAhead (sHdr [0xFF])).length < 9) ∧
    (bitsAhead (sHdr [])).length < 1 := by
  unfold BitReaderOk RoomIn
  decide +kernel

/-- O16: the widest sum, with one part empty and with both parts there. -/
theorem witness_ReadBitsSplits : 0 + 32 ≤ 32 ∧ 19 + 13 ≤ 32 := by decide

/-- O17: V1.7, and four widths of which one is 0 and one 32. -/
theorem witness_FieldsReconstructTheBytes :
    ((∀ n ∈ [2, 3, 3], n ≤ 32) ∧ [2, 3, 3].sum = 8 * [(0x96 : Byte)].length ∧ (sHdr [0x96]).src = bytesSrc [0x96] ∧
      (sHdr [0x96]).bb = 0 ∧ (sHdr [0x96]).bc = 0 ∧ RoomIn (sHdr [0x96]) [(0x96 : Byte)].length) ∧
    [0, 32, 7, 1].sum = 8 * [(1 : Byte), 2, 3, 4, 5].length := by
  unfold RoomIn
  decide +kernel

/-- O18. -/
theorem witness_AlignedByteIsEightBits : (sHdr [0xA5]).bb = 0 ∧ (sHdr [0xA5]).bc = 0 := by decide

theorem room_of_never {s : State} {n : Nat} (h1 : s.snkFailAt = none) (h2 : s.count + n < Config.countLimit) :
    RoomOut s n := ⟨h2, fun k h => by rw [h1] at h; cases h⟩

theorem room_of_fail {s : State} {n k : Nat} (h1 : s.snkFailAt = some k) (h2 : s.count + n ≤ k)
    (h3 : s.count + n < Config.countLimit) : RoomOut s n :=
  ⟨h3, fun j h => by
    rw [h1] at h
    cases h
    exact .inr h2⟩

/-- O19, and the literal of O40: the sink takes the byte, with its refusal one byte later; it refuses it. -/
theorem witness_WriteByteEffects : RoomOut { State.reset with snkFailAt := some 1 } 1 ∧
    { State.reset with snkFailAt := some 0 }.snkFailAt = some State.reset.count :=
  ⟨room_of_fail (k := 1) rfl (by decide) (by decide), rfl⟩

/-- O20: two bytes from reset, into a sink that holds one from before. -/
theorem witness_WriteBytesKeepHistory : OutputIs { State.reset with snk := [7] } [7] [] ∧
    RoomOut { State.reset with snk := [7] } [(1 : Byte), 2].length :=
  ⟨⟨rfl, rfl, rfl, fun k h => absurd h (Nat.not_lt_zero k)⟩, room_of_never rfl (by decide)⟩

/-- O21: the smallest distance, and the largest with the window exactly full. -/
theorem witness_WritePreviousCopies :
    (OutputOk (filled 1) ∧ 1 ≤ 1 ∧ 1 ≤ min 32768 (filled 1).count ∧ RoomOut (filled 1) 258) ∧
    (OutputOk (filled 32768) ∧ 32768 ≤ min 32768 (filled 32768).count ∧ RoomOut (filled 32768) 258) := by
  obtain ⟨a1, a2, a3⟩ := filled_spec 1
  obtain ⟨b1, b2, b3⟩ := filled_spec 32768
  refine ⟨⟨a1, by decide, ?_, room_of_never a3 ?_⟩, b1, ?_, room_of_never b3 ?_⟩
  · rw [a2]
    decide
  · rw [a2]
    decide
  · rw [b2]
    decide
  · rw [b2]
    decide

/-- O22: one more than was output; 33 bits. -/
theorem witness_WritePreviousRejects : min 32768 State.reset.count < 1 ∧ 32 < 33 := by decide

/-- O26, and the hypothesis of the invariants O48 to O54: a step from ERROR, alone and under the host; one from reset. -/
theorem witness_FirstErrorIsKept :
    (let s := takeError .ioError (sHdr []); s.gz.phase = .bare ∧ s.err ≠ 0 ∧ step s = .next s) ∧
    (let s := takeError .ioError (hosted (sHdr []))
     s.gz.phase = .core ∧ s.err ≠ 0 ∧ nextIs (step s) (fun t => t.gz.phase == .failed) = true) ∧
    step State.reset = .next (setState .readBlockHeader State.reset) :=
  ⟨⟨rfl, by decide, rfl⟩, by decide, rfl⟩

/-- O27 and O28: each STATE, alone and under the host. -/
theorem witness_EndedStatesStay :
    ((takeError .ioError (sHdr [])).gz.phase = .bare ∧ (takeError .ioError (sHdr [])).st = .error) ∧
    ((hosted (sHdr [])).gz.phase = .core ∧ { hosted (sHdr []) with st := .done }.st = .done) ∧
    (CoreRuns State.reset ∧ State.reset.st = .start ∧ CoreRuns (hosted State.reset)) ∧
    (let s := { hosted (sHdr []) with st := .blockEnd }; CoreRuns s ∧ s.st = .blockEnd ∧ s.bfinal = 0) ∧
    (let s := { hosted (sHdr []) with st := .blockEnd, bfinal := 1 }; CoreRuns s ∧ s.bfinal = 1) := by
  unfold CoreRuns
  decide

/-- O29: program P1 (no data byte), and "HI" with a byte behind. -/
theorem witness_StoredBlockCopies :
    ((sHdr [0, 0, 0xFF, 0xFF]).src = bytesSrc (0 :: 0 :: 0xFF :: 0xFF :: []) ++ [] ∧
      joinBytes 0 0 = ~~~ joinBytes 0xFF 0xFF ∧ ([] : List Byte).length = (joinBytes 0 0).toNat ∧
      RoomIn (sHdr [0, 0, 0xFF, 0xFF]) (4 + 0) ∧ RoomOut (sHdr [0, 0, 0xFF, 0xFF]) 0) ∧
    ((sHdr [2, 0, 0xFD, 0xFF, 0x48, 0x49, 3]).src =
        bytesSrc (2 :: 0 :: 0xFD :: 0xFF :: [0x48, 0x49]) ++ [.byte 3] ∧
      joinBytes 2 0 = ~~~ joinBytes 0xFD 0xFF ∧ [(0x48 : Byte), 0x49].length = (joinBytes 2 0).toNat ∧
      RoomOut (sHdr [2, 0, 0xFD, 0xFF, 0x48, 0x49, 3]) 2) := by
  refine ⟨⟨rfl, by decide, by decide, by unfold RoomIn; decide, room_of_never rfl (by decide)⟩, rfl, by decide,
    by decide, room_of_never rfl (by decide)⟩

/-- O30: E2's fields, one bit from right; three bytes before the end, and none before an `IoErr` mark. -/
theorem witness_StoredBlockRejectsNlen :
    ((sHdr [5, 0, 0xFB, 0xFF]).src = bytesSrc [5, 0, 0xFB, 0xFF] ++ [] ∧ joinBytes 5 0 ≠ ~~~ joinBytes 0xFB 0xFF ∧
      RoomIn (sHdr [5, 0, 0xFB, 0xFF]) 4) ∧
    ((sHdr [5, 0, 0xFA]).src = bytesSrc [5, 0, 0xFA] ++ [] ∧ SourceEnds [] ∧ [(5 : Byte), 0, 0xFA].length < 4 ∧
      RoomIn (sHdr [5, 0, 0xFA]) 4) ∧
    ({ sHdr [] with src := [.ioErr, .byte 5] }.src = bytesSrc [] ++ [.ioErr, .byte 5] ∧
      SourceEnds [.ioErr, .byte 5]) := by
  refine ⟨⟨rfl, by decide, by unfold RoomIn; decide⟩, ⟨rfl, .inl rfl, by decide, by unfold RoomIn; decide⟩, rfl,
    .inr ⟨_, rfl⟩⟩

/-- O31: E2b, a block of one byte of which none is there, and E2b's bytes before an `IoErr` mark. -/
theorem witness_StoredBlockTruncated :
    ((sHdr [5, 0, 0xFA, 0xFF, 0x48, 0x45]).src = bytesSrc (5 :: 0 :: 0xFA :: 0xFF :: [0x48, 0x45]) ++ [] ∧
      SourceEnds [] ∧ joinBytes 5 0 = ~~~ joinBytes 0xFA 0xFF ∧
      [(0x48 : Byte), 0x45].length < (joinBytes 5 0).toNat ∧
      RoomIn (sHdr [5, 0, 0xFA, 0xFF, 0x48, 0x45]) (4 + 2) ∧ RoomOut (sHdr [5, 0, 0xFA, 0xFF, 0x48, 0x45]) 2) ∧
    (joinBytes 1 0 = ~~~ joinBytes 0xFE 0xFF ∧ ([] : List Byte).length < (joinBytes 1 0).toNat) ∧
    SourceEnds [.ioErr] := by
  refine ⟨⟨rfl, .inl rfl, by decide, by decide, by unfold RoomIn; decide, room_of_never rfl (by decide)⟩,
    ⟨by decide, by decide⟩, .inr ⟨_, rfl⟩⟩

/-- O31: the sink refuses the first data byte of E2b's block, and the last. -/
theorem witness_StoredBlockRefused :
    (let s := { sHdr [5, 0, 0xFA, 0xFF, 0x48] with snkFailAt := some 0 }
     s.src = bytesSrc (5 :: 0 :: 0xFA :: 0xFF :: []) ++ .byte 0x48 :: [] ∧ RoomIn s (5 + 0) ∧ RoomOut s 0 ∧
      s.snkFailAt = some (s.count + 0)) ∧
    (let s := { sHdr [5, 0, 0xFA, 0xFF, 0x48, 0x45, 0x4C, 0x4C, 0x4F] with snkFailAt := some 4 }
     s.src = bytesSrc (5 :: 0 :: 0xFA :: 0xFF :: [0x48, 0x45, 0x4C, 0x4C]) ++ .byte 0x4F :: [] ∧ RoomOut s 4 ∧
      [(0x48 : Byte), 0x45, 0x4C, 0x4C].length < (joinBytes 5 0).toNat ∧ s.snkFailAt = some (s.count + 4)) := by
  refine ⟨⟨rfl, by unfold RoomIn; decide, room_of_fail (k := 0) rfl (by decide) (by decide), rfl⟩, rfl,
    room_of_fail (k := 4) rfl (by decide) (by decide), by decide, rfl⟩

/-- O35: six lengths (16 and 17 of length 1), which build; and three of length 1, which do not; HLIT and HDIST fields at
their smallest and largest. -/
theorem witness_DynamicHeaderReadsItsFields :
    (let s := sHdr [0x00, 0x48, 0x02, 0x00]
     let ls := [1, 1, 0, 0, 0, 0]
     BitReaderOk s ∧ RoomIn s 10 ∧ ls.length = 2 + 4 ∧ (∀ l ∈ ls, l < 8) ∧
      bitsAhead s = numBits 5 0 ++ numBits 5 0 ++ numBits 4 2 ++ ls.flatMap (numBits 3) ++ [] ∧
      (huffBuild (treeLens ls)).isSome = true) ∧
    (let s := sHdr [0xFF, 0x4B, 0x12, 0x00]
     let ls := [1, 1, 1, 0, 0, 0]
     bitsAhead s = numBits 5 31 ++ numBits 5 31 ++ numBits 4 2 ++ ls.flatMap (numBits 3) ++ [] ∧
      huffBuild (treeLens ls) = none) := by
  unfold BitReaderOk RoomIn
  decide +kernel

/-- O35, input that ends: with no bit ahead, one bit before the counts are whole, at the end of the counts (HCLEN 4), one
bit before the four lengths are whole (14 + 12 bits), and at an `IoErr` mark; with exactly the 26 bits nothing is missing. -/
theorem witness_DynamicHeaderTruncated :
    (let s := sHdr []; BitReaderOk s ∧ RoomIn s 10 ∧ bitsAhead s = [] ∧ dynamicNeeds (bitsAhead s) = 14) ∧
    (let s := { sHdr [0xFF] with bb := 0x1F, bc := 5 }
     BitReaderOk s ∧ (bitsAhead s).length = 13 ∧ dynamicNeeds (bitsAhead s) = 14) ∧
    (let s := { sHdr [0] with bc := 6, src := [.byte 0, .ioErr, .byte 0] }
     BitReaderOk s ∧ RoomIn s 10 ∧ (bitsAhead s).length = 14 ∧ dynamicNeeds (bitsAhead s) = 26 ∧
      lensAhead (bitsAhead s) = [] ∧ srcEnd s.src = .ioError) ∧
    (let s := { sHdr [0, 0x48, 0x02] with bb := 0, bc := 1 }
     BitReaderOk s ∧ (bitsAhead s).length = 25 ∧ 25 < dynamicNeeds (bitsAhead s) ∧
      (lensAhead (bitsAhead s)).length = 3) ∧
    (let s := { sHdr [0, 0, 0] with bb := 0, bc := 2 }
     (bitsAhead s).length = 26 ∧ dynamicNeeds (bitsAhead s) = 26) := by
  unfold BitReaderOk RoomIn
  decide +kernel

/-- O36: each of the four, ending exactly at `HLIT + HDIST = 258`, and CREP16 at IDX 1. -/
theorem witness_CodeLengthElementsAppend :
    lensWanted (sTree 0 [] []) ≤ 320 ∧
    (sTree 257 [] []).idx.toNat + 1 ≤ lensWanted (sTree 257 [] []) ∧
    (0 < (sTree 252 [] []).idx.toNat ∧ (sTree 252 [] []).idx.toNat + (3 + (3 : BitVec 2).toNat) ≤ lensWanted (sTree 252 [] [])) ∧
    0 < (sTree 1 [] []).idx.toNat ∧
    (sTree 248 [] []).idx.toNat + (3 + (7 : BitVec 3).toNat) ≤ lensWanted (sTree 248 [] []) ∧
    (sTree 120 [] []).idx.toNat + (11 + (127 : BitVec 7).toNat) ≤ lensWanted (sTree 120 [] []) := by
  decide +kernel

/-- O37: IDX 0; each repeat one past the end. -/
theorem witness_CodeLengthElementsReject :
    (sTree 0 [] []).idx = 0 ∧
    lensWanted (sTree 253 [] []) < (sTree 253 [] []).idx.toNat + (3 + (3 : BitVec 2).toNat) ∧
    lensWanted (sTree 256 [] []) < (sTree 256 [] []).idx.toNat + (3 + (0 : BitVec 3).toNat) ∧
    lensWanted (sTree 121 [] []) < (sTree 121 [] []).idx.toNat + (11 + (127 : BitVec 7).toNat) := by
  decide +kernel

/-- O38: E5's position, symbol 16 first; under the host too. -/
theorem witness_Repeat16IsTestedBeforeItsExtraBits :
    let s := sTree 0 (clP6.map (BitVec.ofNat 3)) [0x01]
    CoreRuns s ∧ CoreRuns (hosted s) ∧ s.st = .dynamic ∧ s.idx = 0 ∧ wantsLens s = true ∧ BitReaderOk s ∧ RoomIn s 8 ∧
    decodeSymbol (clInForce s) (bitsAhead s) = .ok (16, w [0, 0, 0, 0, 0, 0]) := by
  unfold CoreRuns BitReaderOk RoomIn
  decide +kernel

/-- O39: all lengths 0 (both tables build, empty); all lengths 1 (the literal/length table does not); the largest
counts. -/
theorem witness_SplitInstallsBothTables :
    (let s := { sTree 320 [] [] with hlit := 288, hdist := 32 }
     CoreRuns s ∧ CoreRuns (hosted s) ∧ s.st = .dynamic ∧ lensWanted s ≤ s.idx.toNat ∧ s.hlit.toNat ≤ 288 ∧ s.hdist.toNat ≤ 32 ∧
      (huffBuild (llInForce (splitLens s))).isSome = true ∧ (huffBuild (dInForce (splitLens s))).isSome = true) ∧
    (let s := { sTree 258 [] [] with scr := Vector.replicate 320 1 }
     lensWanted s ≤ s.idx.toNat ∧ huffBuild (llInForce (splitLens s)) = none) := by
  unfold CoreRuns
  decide +kernel

theorem room_for_match {s : State} {n : Nat} (h1 : s.snkFailAt = none) (h2 : s.count = n)
    (h3 : n + 258 < Config.countLimit) : RoomOut { s with mlen := 258 } (258 : BitVec 9).toNat :=
  room_of_never h1 (by rw [← h2] at h3; exact h3)

/-- O43: DIST0 with one byte written and a match of 258; DIST29 at its largest, with the window exactly full. -/
theorem witness_DistanceElementsCopy :
    (OutputOk (filled 1) ∧ 1 ≤ (filled 1).count ∧ RoomOut { filled 1 with mlen := 258 } (258 : BitVec 9).toNat) ∧
    (OutputOk (filled 32768) ∧ 24577 + (8191 : BitVec 13).toNat ≤ (filled 32768).count ∧
      RoomOut { filled 32768 with mlen := 258 } (258 : BitVec 9).toNat) := by
  have a := filled_spec 1
  have b := filled_spec 32768
  generalize filled 1 = s at a
  generalize filled 32768 = t at b
  obtain ⟨a1, a2, a3⟩ := a
  obtain ⟨b1, b2, b3⟩ := b
  exact ⟨⟨a1, le_of_eq a2.symm, room_for_match a3 a2 (by decide)⟩, b1, by rw [b2]; decide,
    room_for_match b3 b2 (by decide)⟩

/-- O44: nothing written, DIST0; one byte short of DIST29's largest. -/
theorem witness_DistanceElementsRejectFar : State.reset.count < 1 ∧
    (filled 32767).count < 24577 + (8191 : BitVec 13).toNat := by
  refine ⟨by decide, ?_⟩
  rw [(filled_spec 32767).2.1]
  decide

/-- O45: the sink refuses the first byte of the copy, and the last; as WritePrevious and as DIST0. -/
theorem witness_MatchStopsWhereTheSinkFails :
    (let s := { filled 1 with snkFailAt := some 1, mlen := 258 }
     OutputOk s ∧ 1 ≤ min 32768 s.count ∧ s.snkFailAt = some 1 ∧ s.count ≤ 1 ∧ 1 < s.count + 258 ∧
      1 < Config.countLimit ∧ 1 ≤ s.count ∧ 1 < s.count + s.mlen.toNat) ∧
    (let s := { filled 1 with snkFailAt := some 258, mlen := 258 }
     OutputOk s ∧ s.count ≤ 258 ∧ 258 < s.count + 258 ∧ 258 < s.count + s.mlen.toNat) := by
  obtain ⟨a1, -, -⟩ := filled_spec 1
  exact ⟨⟨a1, by decide, rfl, by decide, by decide, by decide, by decide, by decide⟩, a1, by decide, by decide,
    by decide⟩

/-- O49: a step that outputs a byte after one was output into a sink that held another; one that starts CORE. -/
theorem witness_StepKeepsTheHistory :
    (let s := { putByte 0x41 (sFix [0x8E]) with snk := [7, 0x41] }
     OutputIs s [7] [0x41] ∧ nextIs (step s) (fun t => t.snk == [7, 0x41, 0x41]) = true) ∧
    (let s := { putByte 0x41 State.reset with
        src := srcOf [0xFF], gz := { GzHost.bare with phase := .fixedRest, left := 1 } }
     OutputIs s [] [0x41] ∧ s.gz.phase ≠ .core ∧
      nextIs (step s) (fun t => t.gz.phase == .core && (t.snk == [0x41] && t.count == 0)) = true) := by
  have h : OutputIs (putByte 0x41 State.reset) [] [0x41] :=
    putByte_outputIs (pre := []) (out := []) 0x41 ⟨rfl, rfl, rfl, fun k h => absurd h (Nat.not_lt_zero k)⟩
  have h2 := h.2.2.2
  refine ⟨⟨⟨rfl, rfl, rfl, h2⟩, by decide +kernel⟩, ⟨rfl, rfl, rfl, h2⟩, by decide, by decide +kernel⟩

/-- O48 to O56: a sound state in the middle of a match, with one byte written; its step goes on; under the host too. -/
theorem witness_StepIsSafe : (sMatch 7 [0x00]).gz.phase = .bare ∧ (hosted (sMatch 7 [0x00])).gz.phase = .core ∧
    Sound (sMatch 7 [0x00]) ∧
    nextIs (step (sMatch 7 [0x00])) (fun t => t.count == 8 && t.err != errCode .unexpectedEof) = true ∧
    nextIs (step (hosted (sMatch 7 [0x00]))) (fun t => t.count == 8) = true := by
  refine ⟨rfl, rfl, ⟨by unfold BitReaderOk; decide, ?_, ?_, ?_, ?_⟩, by decide +kernel, by decide +kernel⟩
  · exact putByte_outputOk (s := sFix [0x00]) 0x41 ⟨[], [], rfl, rfl, rfl, fun k h => absurd h (Nat.not_lt_zero k)⟩
  · unfold WindowOk
    decide +kernel
  · unfold StatusOk
    decide +kernel
  · unfold ControlOk
    decide +kernel

/-- O52: a sound state of the code-length sequence too. -/
theorem witness_StepKeepsTheControl : ControlOk (sTree 258 (clP6.map (BitVec.ofNat 3)) [0x01]) := by
  unfold ControlOk
  decide +kernel

/-- The host in some phase with LEFT and FLG given. -/
def sField (p : GzPhase) (flg : BitVec 8) (left : Nat) (buf : List Byte) (bytes : List Nat) : State :=
  { State.reset with src := srcOf bytes, gz := { GzHost.bare with phase := p, flg := flg, left := left, buf := buf } }

/-- O57: one state for each clause of the fixed prefix: ID bytes right and wrong, method right and wrong, the last and the
last but one of the six bytes. -/
theorem witness_HostChecksTheHeader :
    ((sGz .ids [] [0x1F]).src = .byte 0x1F :: [] ∧ (sGz .ids [] [0x1F]).gz.phase ∈ headerPhases ∧
      (sGz .ids [] [0x1F]).gz.phase = .ids ∧ (sGz .ids [] [0x1F]).gz.buf = []) ∧
    ((sGz .ids [0x1F] [0x8B]).gz.buf = [0x1F] ∧ (sGz .ids [0x1F] [0x8B]).src = .byte 0x8B :: [] ∧
      (sGz .ids [0x50] [0x4B]).gz.buf = [0x50]) ∧
    ((sGz .cm [] [8]).gz.phase = .cm ∧ (sGz .cm [] [7]).src = .byte 7 :: []) ∧
    (sGz .flg [] [0]).gz.phase = .flg ∧
    ((sField .fixedRest 0 2 [] [0]).gz.phase = .fixedRest ∧ 1 < (sField .fixedRest 0 2 [] [0]).gz.left ∧
      ¬ 1 < (sField .fixedRest 0 1 [] [0]).gz.left) := by decide

/-- O57, the optional fields: an FEXTRA length of 0 and of 65535, the last and the last but one of its bytes; the last and
another byte of a name and of a comment. -/
theorem witness_HostChecksTheHeader_fields :
    ((sField .xlen 4 0 [] [0]).gz.phase ∈ headerPhases ∧ (sField .xlen 4 0 [] [0]).gz.buf = [] ∧
      (sField .xlen 4 0 [0] [0]).gz.buf = [0] ∧ (0 : Byte).toNat + 256 * (0 : Byte).toNat = 0 ∧
      (0xFF : Byte).toNat + 256 * (0xFF : Byte).toNat = 65535) ∧
    ((sField .extra 4 2 [] [0]).gz.phase ∈ headerPhases ∧ 1 < (sField .extra 4 2 [] [0]).gz.left ∧
      ¬ 1 < (sField .extra 4 1 [] [0]).gz.left) ∧
    ((sField .name 8 0 [] [0]).gz.phase ∈ headerPhases ∧ (sField .name 8 0 [] [0x61]).src = .byte 0x61 :: []) ∧
    ((sField .comment 16 0 [] [0]).gz.phase ∈ headerPhases ∧ (sField .comment 16 0 [] [0x61]).src = .byte 0x61 :: []) := by
  decide

/-- R329, R330: with all four bits set the fields follow in order; with none (bits 0 and 5 to 7 announce nothing) the
DEFLATE stream. -/
theorem test_optional_fields :
    (List.range 4).map (nextField 0xFF) = [.xlen, .name, .comment, .hcrc] ∧
    (List.range 5).map (nextField 0xE1) = [.core, .core, .core, .core, .core] ∧
    nextField 0x12 0 = .comment ∧ nextField 0x06 1 = .hcrc := by decide

/-- R330: an empty name ends the name; a comment is announced too. -/
theorem test_name_ends :
    nextIs (step (sField .name 0x18 0 [] [0, 7])) (fun t => t.gz.phase == .comment && t.src == srcOf [7]) = true ∧
    nextIs (step (sField .xlen 0x0C 0 [0] [0])) (fun t => t.gz.phase == .name) = true ∧
    nextIs (step (sField .xlen 0x0C 0 [2] [1])) (fun t => t.gz.phase == .extra && t.gz.left == 258) = true := by
  decide +kernel

/-- R331's example: the header with FNAME `a.txt` and FHCRC set. -/
def hdrS7 : List Byte := [0x1F, 0x8B, 8, 0x0A, 0, 0, 0, 0, 0, 0xFF, 0x61, 0x2E, 0x74, 0x78, 0x74, 0]

/-- The host behind that header, with some bytes ahead. -/
def sHcrc (bytes : List Nat) : State :=
  { State.reset with
    src := srcOf bytes, gz := { GzHost.bare with phase := .hcrc, flg := 0x0A, hcrc := crcAfter hdrS7 } }

/-- O58: the last header byte without options starts CORE; the header of R331's example read so far, with its two bytes
`DF 89` ahead, which fit, and with two that do not. -/
theorem witness_HostStartsAFreshCore :
    (let s := sField .fixedRest 0 1 [] [0xFF]
     s.gz.phase ≠ .core ∧ nextIs (step s) (fun t => t.gz.phase == .core) = true) ∧
    (let s := sHcrc [0xDF, 0x89]
     HeaderRead (bytesSrc hdrS7 ++ s.src) hdrS7 s ∧ s.gz.phase = .hcrc ∧ s.gz.buf = [] ∧
      s.src = .byte 0xDF :: .byte 0x89 :: [] ∧
      (0xDF : Byte).toNat + 256 * (0x89 : Byte).toNat = (crcAfter hdrS7 ^^^ 0xFFFFFFFF).toNat % 2 ^ 16) ∧
    (let s := sHcrc [0xDF, 0x88]
     HeaderRead (bytesSrc hdrS7 ++ s.src) hdrS7 s ∧
      (0xDF : Byte).toNat + 256 * (0x88 : Byte).toNat ≠ (crcAfter hdrS7 ^^^ 0xFFFFFFFF).toNat % 2 ^ 16) := by
  unfold HeaderRead
  decide +kernel

/-- O58's third clause: at the start of a file nothing is read, and a header phase reads on. -/
theorem witness_HostStartsAFreshCore_reading :
    HeaderRead (srcOf [0x1F]) [] (gzStart (srcOf [0x1F])) ∧ (gzStart (srcOf [0x1F])).gz.phase ∈ headerPhases ∧
    nextIs (step (gzStart (srcOf [0x1F]))) (fun t => t.gz.hcrc == crcAfter [0x1F]) = true := by
  unfold HeaderRead
  decide +kernel

/-- O59: the first, the seventh and the last trailer byte; CORE in ERROR and in DONE under the host. -/
theorem witness_HostChecksTheTrailer :
    ((sGz .trailer [] [0x8B]).src = .byte 0x8B :: [] ∧ (sGz .trailer [] [0x8B]).gz.phase = .trailer ∧
      (sGz .trailer [] [0x8B]).gz.buf.length < 7) ∧
    (sGz .trailer [0x8B, 0x9E, 0xD9, 0xD3, 1, 0] [0]).gz.buf.length < 7 ∧
    (let s := sGz .trailer [0x8B, 0x9E, 0xD9, 0xD3, 1, 0, 0] [0]
     s.src = .byte 0 :: [] ∧ s.gz.phase = .trailer ∧ s.gz.buf = [0x8B, 0x9E, 0xD9, 0xD3, 1, 0, 0]) ∧
    (let s := takeError .invalidDistance (sGz .core [] []); s.gz.phase = .core ∧ s.err ≠ 0) ∧
    (let s := { sGz .core [] [] with st := .done, done := 1 }; s.gz.phase = .core ∧ s.err = 0 ∧ s.done = 1) := by
  decide

/-- O60: a phase that reads with the source at its end and at a mark; success and failure. -/
theorem witness_HostEndOfInputAndIdle :
    (GzPhase.name ∉ ([.bare, .core, .success, .failed] : List GzPhase) ∧ (sGz .name [] []).src = [] ∧
      { sGz .trailer [] [] with src := [SrcItem.ioErr] }.src = .ioErr :: []) ∧
    (sGz .success [] []).gz.phase ∈ ([.success, .failed] : List GzPhase) ∧
    (sGz .failed [] []).gz.phase ∈ ([.success, .failed] : List GzPhase) := by
  decide

end Sys2Proof.Tests
end

/-! # Invariants of a step: the bit reader, the status, the first error -/

namespace Sys2Proof.Machine

/-! ## The bit reader (10_state.md R22) -/

/-- An empty buffer is consistent. -/
theorem bitReaderOk_of_empty {s : State} (hb : s.bb = 0) (hc : s.bc = 0) : BitReaderOk s := by
  rw [BitReaderOk, hb, hc]
  decide

/-- Every primitive of CORE keeps the bit reader consistent; only `ReadBit` and `AlignToByte` touch it. -/
theorem bitReader_primitives : Primitives (Kept BitReaderOk) (Kept BitReaderOk) :=
  Primitives.ofKept (fun _ _ h => h)
    (fun _ _ _ h e => readBit_keeps_ok h e)
    (fun _ _ _ h e => by
      rw [(srcNext_ok e).2.2]
      exact h)
    (fun _ _ h => h)
    (fun _ _ => bitReaderOk_of_empty rfl rfl)
    (fun _ _ w h => by
      rw [BitReaderOk, w.bb, w.bc]
      exact h)
    (fun _ _ h => h)

theorem endBlock_bitReader {s : State} (h : BitReaderOk s) : BitReaderOk (endBlock s) := by
  cases hf : isFinal s
  · rw [endBlock_of_not_final s hf]
    exact h
  · rw [endBlock_of_final s hf]
    exact bitReaderOk_of_empty rfl rfl

/-- Settles O48: each primitive of a step keeps the bit reader, so every step does. -/
theorem stepKeepsTheBitReader : Obligations.StepKeepsTheBitReader := by
  intro s t h e
  exact step_kept bitReader_primitives (fun _ => endBlock_bitReader) (fun _ _ h => h)
    (fun _ _ _ => bitReaderOk_of_empty rfl rfl) (fun _ _ _ h _ => h) h e

/-! ## The status (10_state.md R40, R42, R43) -/

/-- DONE and ERR are kept, and STATE is kept or goes to a state in which the machine runs. -/
structure RunsOn (s t : State) : Prop where
  done : t.done = s.done
  err : t.err = s.err
  st : t.st = s.st ∨ t.st ≠ .done ∧ t.st ≠ .error

/-- The change ended in a raise by CORE: DONE is kept, STATE is ERROR, and ERR has a code of CORE's if it was 0. -/
structure EndsInError (s t : State) : Prop where
  done : t.done = s.done
  st : t.st = .error
  first : s.err = 0 → t.err ∈ ([5, 7, 8, 9, 10, 11, 12] : List (BitVec 4))
  kept : s.err ≠ 0 → t.err = s.err

theorem RunsOn.refl (s : State) : RunsOn s s := ⟨rfl, rfl, .inl rfl⟩

theorem RunsOn.trans {s t u : State} (h : RunsOn s t) (k : RunsOn t u) : RunsOn s u where
  done := k.done.trans h.done
  err := k.err.trans h.err
  st := by
    rcases k.st with e | e
    · rw [e]
      exact h.st
    · exact .inr e

theorem RunsOn.endsInError {s t u : State} (h : RunsOn s t) (k : EndsInError t u) : EndsInError s u where
  done := k.done.trans h.done
  st := k.st
  first := fun e => k.first (h.err.trans e)
  kept := fun e => (k.kept (h.err ▸ e)).trans h.err

theorem takeError_endsInError {k : ErrKind} (hk : CoreKind k) (s : State) : EndsInError s (takeError k s) where
  done := rfl
  st := rfl
  first := fun e => by simpa [e] using hk
  kept := fun e => if_neg e

/-- A step that reaches neither DONE nor ERROR leaves the status alone, and a raise is a raise by CORE. -/
theorem status_primitives : Primitives RunsOn EndsInError where
  refl := RunsOn.refl
  trans := fun _ _ _ => RunsOn.trans
  fail := fun _ _ _ => RunsOn.endsInError
  error := fun _ s hk => takeError_endsInError hk s
  bit := fun s => by
    refine ⟨fun b t h => ?_, fun t h => ?_⟩
    · rcases readBit_ok h with ⟨-, -, rfl⟩ | ⟨-, c, rest, -, -, -, rfl⟩ <;> exact ⟨rfl, rfl, .inl rfl⟩
    · rw [(readBit_raised h).2.1]
      exact takeError_endsInError (srcEnd_coreKind s.src) s
  byte := fun s => by
    refine ⟨fun b t h => ?_, fun t h => ?_⟩
    · rw [(srcNext_ok h).2.2]
      exact ⟨rfl, rfl, .inl rfl⟩
    · rw [(srcNext_raised h).1]
      exact takeError_endsInError (srcEnd_coreKind s.src) s
  write := fun b s => by
    refine ⟨fun _ t h => ?_, fun t h => ?_⟩
    · rw [(writeByte_ok h).1]
      exact ⟨rfl, rfl, .inl rfl⟩
    · rw [(writeByte_raised h).1]
      exact takeError_endsInError (by decide) s
  align := fun _ => ⟨rfl, rfl, .inl rfl⟩
  work := fun _ _ w => ⟨w.done, w.err, .inl w.st⟩
  state := fun _ _ h1 h2 => ⟨rfl, rfl, .inr ⟨h1, h2⟩⟩

/-- From a state that has not ended, a consistent status survives running on. -/
theorem RunsOn.statusOk {s t : State} (h : RunsOn s t) (ok : StatusOk s) (hs : ¬ Ended s) : StatusOk t := by
  obtain ⟨hd, he, hm⟩ := ok
  obtain ⟨nd, ne⟩ : t.st ≠ .done ∧ t.st ≠ .error := by
    rcases h.st with e | e
    · rw [e]
      exact not_or.1 hs
    · exact e
  refine ⟨?_, ?_, h.err ▸ hm⟩
  · rw [h.done, hd]
    exact iff_of_false (fun e => hs (.inl e)) nd
  · rw [h.err, he]
    exact iff_of_false (fun e => hs (.inr e)) ne

/-- From a state that has not ended, a raise gives a consistent status. -/
theorem EndsInError.statusOk {s t : State} (h : EndsInError s t) (ok : StatusOk s) (hs : ¬ Ended s) : StatusOk t := by
  obtain ⟨hd, he, -⟩ := ok
  have h0 : s.err = 0 := not_not.1 fun e => hs (.inr (he.1 e))
  have hc := h.first h0
  refine ⟨?_, iff_of_true (fun e => ?_) h.st, List.mem_cons_of_mem _ hc⟩
  · rw [h.done, hd, h.st]
    exact iff_of_false (fun e => hs (.inl e)) (by decide)
  · rw [e] at hc
    exact absurd hc (by decide)

theorem endBlock_statusOk {s : State} (ok : StatusOk s) (hs : s.st = .blockEnd) : StatusOk (endBlock s) := by
  obtain ⟨hd, he, hm⟩ := ok
  have h0 : s.err = 0 := not_not.1 fun e => by simp [he.1 e] at hs
  cases hf : isFinal s
  · rw [endBlock_of_not_final s hf]
    refine ⟨?_, ?_, hm⟩
    · exact hd.trans (iff_of_false (by simp [hs]) (by simp))
    · exact iff_of_false (fun e => e h0) (by simp)
  · rw [endBlock_of_final s hf]
    exact ⟨iff_of_true rfl rfl, iff_of_false (fun e => e h0) (by simp), hm⟩

theorem resetCore_statusOk (s : State) : StatusOk (resetCore s) := by
  simp [StatusOk]

/-- What holds of CORE, whatever the host's registers and the source are, and after CORE's reset, holds after every
move of the host. -/
theorem gzMove_keeps {P : State → Prop} (gz : ∀ s g, P s → P (setGz g s)) (src : ∀ s l, P s → P { s with src := l })
    (reset : ∀ s, P (resetCore s)) {s : State} (h : P s) (hp : s.gz.phase ≠ .core) : P (gzMove s) := by
  rcases gzMove_cases s hp with ⟨-, e⟩ | ⟨b, rest, -, e⟩
  · rw [e]
    exact gz _ _ h
  · exact hostMove_rec e (fun g => gz _ g (src s rest h)) (fun g => reset _)

/-- When CORE has ended the host changes its own registers only. -/
theorem gzCoreEnded_keeps {P : State → Prop} (gz : ∀ s g, P s → P (setGz g s)) {s : State} (h : P s) :
    P (gzCoreEnded s) := by
  rcases gzCoreEnded_cases s with ⟨-, e⟩ | ⟨-, e⟩ <;> rw [e] <;> exact gz _ _ h

/-- Settles O51: a step of CORE from a state that has not ended runs on, raises, or ends a block; the host's moves
leave the status alone or reset it. -/
theorem stepKeepsTheStatus : Obligations.StepKeepsTheStatus := by
  intro s t ok e
  rcases status_primitives.step e with
    ⟨⟨hs, h | h⟩ | ⟨hs, rfl⟩ | ⟨-, rfl⟩, -⟩ | ⟨-, ⟨hp, rfl⟩ | rfl | ⟨-, rfl⟩⟩
  · exact h.statusOk ok hs
  · exact h.statusOk ok hs
  · exact endBlock_statusOk ok hs
  · exact ok
  · exact gzMove_keeps (P := StatusOk) (fun _ _ h => h) (fun _ _ h => h) resetCore_statusOk ok hp
  · exact ok
  · exact gzCoreEnded_keeps (P := StatusOk) (fun _ _ h => h) ok

theorem endBlock_err (s : State) : (endBlock s).err = s.err := by
  unfold endBlock
  split <;> rfl

theorem gzCoreEnded_err (s : State) : (gzCoreEnded s).err = s.err :=
  gzCoreEnded_keeps (P := fun t => t.err = s.err) (fun _ _ h => h) rfl

/-- Settles O26: running on keeps ERR, and a raise keeps it where it is not 0. -/
theorem firstErrorIsKept : Obligations.FirstErrorIsKept := by
  intro s t hp he e
  rcases status_primitives.step e with
    ⟨⟨-, h | h⟩ | ⟨-, rfl⟩ | ⟨-, rfl⟩, -⟩ | ⟨hb, ⟨hc, -⟩ | rfl | ⟨-, rfl⟩⟩
  · exact h.err
  · exact h.kept he
  · exact endBlock_err s
  · rfl
  · exact absurd hp (not_or.2 ⟨hb, hc⟩)
  · rfl
  · exact gzCoreEnded_err s

/-! ## The padding before a stored block (10_state.md R49, 30_encoding.md R112) -/

/-- What BLK.STORED does once the rest of the current byte has been discarded (43_blocks.md R195). -/
def storedAligned : Op Unit :=
  storedLengths.andThen <| (Op.modify fun s => { s with rem := s.slen }).andThen storedRest

theorem exec_blkStored (f : BitVec 1) (s : State) :
    exec (.blkStored f) s = Op.run storedAligned (alignToByte (setState .stored (setHeader f 0 s))) := rfl

/-- Settles O32: BB and BC are cleared before anything looks at them. -/
theorem paddingIsIgnored : Obligations.PaddingIsIgnored := by
  intro s f bb bc
  rw [exec_blkStored, exec_blkStored]
  rfl

end Sys2Proof.Machine

/-! # The operation of an element, its alphabet, and what a decode leaves unchanged -/

namespace Sys2Proof.Machine

variable {Q E : State → State → Prop}

/-! ## The operation of an element -/

/-- The operations the meanings of an alphabet's elements are (30_encoding.md R104, R105). -/
inductive ElementOp : Alphabet → Op Unit → Prop
  | stored (f : BitVec 1) : ElementOp .header ((Op.modify (setHeader f 0)).andThen storedBlock)
  | fixed (f : BitVec 1) : ElementOp .header
      ((Op.modify (setHeader f 1)).andThen <| (Op.modify (setState .fixed)).andThen (Op.modify installFixed))
  | dynamic (f : BitVec 1) : ElementOp .header ((Op.modify (setHeader f 2)).andThen dynamicHeader)
  | reservedType (f : BitVec 1) : ElementOp .header
      ((Op.modify (setHeader f 3)).andThen (raise .unsupportedBlockType))
  | codeLength (n : BitVec 4) : ElementOp .treeCode (Op.modify (pushLen n))
  | repeatPrevious (r : Nat) : ElementOp .treeCode (needPrevLen.andThen fun s => repeatLen (prevLen s) r s)
  | repeatZero (r : Nat) : ElementOp .treeCode (repeatLen 0 r)
  | literal (b : Byte) : ElementOp .litLen (writeByte b)
  | endOfBlock : ElementOp .litLen (Op.modify (setState .blockEnd))
  | length (S x : Nat) (hS : 257 ≤ S ∧ S < 286) (hx : x < 2 ^ lExtra S) : ElementOp .litLen (lengthElement S x)
  | distance (D y : Nat) (hD : D < 30) (hy : y < 2 ^ dExtra D) : ElementOp .dist (distElement D y)
  | reservedSymbol (a : Alphabet) : ElementOp a (raise .invalidHuffmanCode)

/-- Every element runs one of the operations of its alphabet. -/
theorem exec_elementOp (i : Instr) : ∃ x, ElementOp (alphabetOf i) x ∧ exec i = Op.run x := by
  cases i with
  | blkStored f => exact ⟨_, .stored f, rfl⟩
  | blkFixed f => exact ⟨_, .fixed f, rfl⟩
  | blkDynamic f => exact ⟨_, .dynamic f, rfl⟩
  | blkRsvd f => exact ⟨_, .reservedType f, rfl⟩
  | clen n => exact ⟨_, .codeLength n, rfl⟩
  | crep16 x => exact ⟨_, .repeatPrevious _, rfl⟩
  | czero17 x => exact ⟨_, .repeatZero _, rfl⟩
  | czero18 x => exact ⟨_, .repeatZero _, rfl⟩
  | lit b => exact ⟨_, .literal b, rfl⟩
  | eob => exact ⟨_, .endOfBlock, rfl⟩
  | len257 => exact ⟨_, .length 257 0 (by decide) (by decide), rfl⟩
  | len258 => exact ⟨_, .length 258 0 (by decide) (by decide), rfl⟩
  | len259 => exact ⟨_, .length 259 0 (by decide) (by decide), rfl⟩
  | len260 => exact ⟨_, .length 260 0 (by decide) (by decide), rfl⟩
  | len261 => exact ⟨_, .length 261 0 (by decide) (by decide), rfl⟩
  | len262 => exact ⟨_, .length 262 0 (by decide) (by decide), rfl⟩
  | len263 => exact ⟨_, .length 263 0 (by decide) (by decide), rfl⟩
  | len264 => exact ⟨_, .length 264 0 (by decide) (by decide), rfl⟩
  | len265 x => exact ⟨_, .length 265 x.toNat (by decide) x.isLt, rfl⟩
  | len266 x => exact ⟨_, .length 266 x.toNat (by decide) x.isLt, rfl⟩
  | len267 x => exact ⟨_, .length 267 x.toNat (by decide) x.isLt, rfl⟩
  | len268 x => exact ⟨_, .length 268 x.toNat (by decide) x.isLt, rfl⟩
  | len269 x => exact ⟨_, .length 269 x.toNat (by decide) x.isLt, rfl⟩
  | len270 x => exact ⟨_, .length 270 x.toNat (by decide) x.isLt, rfl⟩
  | len271 x => exact ⟨_, .length 271 x.toNat (by decide) x.isLt, rfl⟩
  | len272 x => exact ⟨_, .length 272 x.toNat (by decide) x.isLt, rfl⟩
  | len273 x => exact ⟨_, .length 273 x.toNat (by decide) x.isLt, rfl⟩
  | len274 x => exact ⟨_, .length 274 x.toNat (by decide) x.isLt, rfl⟩
  | len275 x => exact ⟨_, .length 275 x.toNat (by decide) x.isLt, rfl⟩
  | len276 x => exact ⟨_, .length 276 x.toNat (by decide) x.isLt, rfl⟩
  | len277 x => exact ⟨_, .length 277 x.toNat (by decide) x.isLt, rfl⟩
  | len278 x => exact ⟨_, .length 278 x.toNat (by decide) x.isLt, rfl⟩
  | len279 x => exact ⟨_, .length 279 x.toNat (by decide) x.isLt, rfl⟩
  | len280 x => exact ⟨_, .length 280 x.toNat (by decide) x.isLt, rfl⟩
  | len281 x => exact ⟨_, .length 281 x.toNat (by decide) x.isLt, rfl⟩
  | len282 x => exact ⟨_, .length 282 x.toNat (by decide) x.isLt, rfl⟩
  | len283 x => exact ⟨_, .length 283 x.toNat (by decide) x.isLt, rfl⟩
  | len284 x => exact ⟨_, .length 284 x.toNat (by decide) x.isLt, rfl⟩
  | len285 => exact ⟨_, .length 285 0 (by decide) (by decide), rfl⟩
  | ll286 => exact ⟨_, .reservedSymbol _, rfl⟩
  | ll287 => exact ⟨_, .reservedSymbol _, rfl⟩
  | dist0 => exact ⟨_, .distance 0 0 (by decide) (by decide), rfl⟩
  | dist1 => exact ⟨_, .distance 1 0 (by decide) (by decide), rfl⟩
  | dist2 => exact ⟨_, .distance 2 0 (by decide) (by decide), rfl⟩
  | dist3 => exact ⟨_, .distance 3 0 (by decide) (by decide), rfl⟩
  | dist4 y => exact ⟨_, .distance 4 y.toNat (by decide) y.isLt, rfl⟩
  | dist5 y => exact ⟨_, .distance 5 y.toNat (by decide) y.isLt, rfl⟩
  | dist6 y => exact ⟨_, .distance 6 y.toNat (by decide) y.isLt, rfl⟩
  | dist7 y => exact ⟨_, .distance 7 y.toNat (by decide) y.isLt, rfl⟩
  | dist8 y => exact ⟨_, .distance 8 y.toNat (by decide) y.isLt, rfl⟩
  | dist9 y => exact ⟨_, .distance 9 y.toNat (by decide) y.isLt, rfl⟩
  | dist10 y => exact ⟨_, .distance 10 y.toNat (by decide) y.isLt, rfl⟩
  | dist11 y => exact ⟨_, .distance 11 y.toNat (by decide) y.isLt, rfl⟩
  | dist12 y => exact ⟨_, .distance 12 y.toNat (by decide) y.isLt, rfl⟩
  | dist13 y => exact ⟨_, .distance 13 y.toNat (by decide) y.isLt, rfl⟩
  | dist14 y => exact ⟨_, .distance 14 y.toNat (by decide) y.isLt, rfl⟩
  | dist15 y => exact ⟨_, .distance 15 y.toNat (by decide) y.isLt, rfl⟩
  | dist16 y => exact ⟨_, .distance 16 y.toNat (by decide) y.isLt, rfl⟩
  | dist17 y => exact ⟨_, .distance 17 y.toNat (by decide) y.isLt, rfl⟩
  | dist18 y => exact ⟨_, .distance 18 y.toNat (by decide) y.isLt, rfl⟩
  | dist19 y => exact ⟨_, .distance 19 y.toNat (by decide) y.isLt, rfl⟩
  | dist20 y => exact ⟨_, .distance 20 y.toNat (by decide) y.isLt, rfl⟩
  | dist21 y => exact ⟨_, .distance 21 y.toNat (by decide) y.isLt, rfl⟩
  | dist22 y => exact ⟨_, .distance 22 y.toNat (by decide) y.isLt, rfl⟩
  | dist23 y => exact ⟨_, .distance 23 y.toNat (by decide) y.isLt, rfl⟩
  | dist24 y => exact ⟨_, .distance 24 y.toNat (by decide) y.isLt, rfl⟩
  | dist25 y => exact ⟨_, .distance 25 y.toNat (by decide) y.isLt, rfl⟩
  | dist26 y => exact ⟨_, .distance 26 y.toNat (by decide) y.isLt, rfl⟩
  | dist27 y => exact ⟨_, .distance 27 y.toNat (by decide) y.isLt, rfl⟩
  | dist28 y => exact ⟨_, .distance 28 y.toNat (by decide) y.isLt, rfl⟩
  | dist29 y => exact ⟨_, .distance 29 y.toNat (by decide) y.isLt, rfl⟩
  | dist30 => exact ⟨_, .reservedSymbol _, rfl⟩
  | dist31 => exact ⟨_, .reservedSymbol _, rfl⟩

/-- The lengths a length element can set (30_encoding.md R97). -/
theorem lBase_add_bounds {S x : Nat} (hS : 257 ≤ S ∧ S < 286) (hx : x < 2 ^ lExtra S) :
    3 ≤ lBase S + x ∧ lBase S + x ≤ 258 := by
  have key : ∀ n < 29, 3 ≤ lBase (257 + n) ∧ lBase (257 + n) + 2 ^ lExtra (257 + n) ≤ 259 := by decide
  have := key (S - 257) (by omega)
  rw [show 257 + (S - 257) = S by omega] at this
  omega

/-- The distances a distance element can set (30_encoding.md R98). -/
theorem dBase_add_bounds {D y : Nat} (hD : D < 30) (hy : y < 2 ^ dExtra D) :
    1 ≤ dBase D + y ∧ dBase D + y ≤ 32768 := by
  have key : ∀ n < 30, 1 ≤ dBase n ∧ dBase n + 2 ^ dExtra n ≤ 32769 := by decide
  have := key D hD
  omega

/-! ## The alphabet a number selects from -/

theorem alphabetOf_lengthInstrs : ∀ g ∈ lengthInstrs, ∀ x, alphabetOf (g x) = .litLen := by
  simp [lengthInstrs, alphabetOf, fieldsOf]

theorem alphabetOf_distInstrs : ∀ g ∈ distInstrs, ∀ x, alphabetOf (g x) = .dist := by
  simp [distInstrs, alphabetOf, fieldsOf]

/-- The element a number selects belongs to the alphabet it is selected from (30_encoding.md R104). -/
theorem instrOf_alphabet {a : Alphabet} {n x : Nat} {i : Instr} (h : instrOf a n x = some i) : alphabetOf i = a := by
  cases a with
  | header =>
    simp only [instrOf] at h
    split_ifs at h <;> cases h <;> rfl
  | treeCode =>
    simp only [instrOf] at h
    split_ifs at h <;> cases h <;> rfl
  | litLen =>
    simp only [instrOf] at h
    split_ifs at h
    · cases h; rfl
    · cases h; rfl
    · obtain ⟨g, hg, rfl⟩ := Option.map_eq_some_iff.1 h
      exact alphabetOf_lengthInstrs g (List.mem_of_getElem? hg) x
    · cases h; rfl
    · cases h; rfl
  | dist =>
    obtain ⟨g, hg, rfl⟩ := Option.map_eq_some_iff.1 h
    exact alphabetOf_distInstrs g (List.mem_of_getElem? hg) x

/-- How many elements an alphabet numbers (30_encoding.md R105, R110). -/
def alphabetSize : Alphabet → Nat
  | .header => 8
  | .treeCode => 19
  | .litLen => 288
  | .dist => 32

/-- Every number below the size of its alphabet selects an element, whatever the extra field is. -/
theorem instrOf_ne_none {a : Alphabet} {n : Nat} (h : n < alphabetSize a) (x : Nat) : instrOf a n x ≠ none := by
  cases a with
  | header =>
    rw [alphabetSize] at h
    simp only [instrOf]
    split_ifs
    · simp
    · simp
    · simp
    · simp
    · omega
  | treeCode =>
    rw [alphabetSize] at h
    simp only [instrOf]
    split_ifs
    · simp
    · simp
    · simp
    · simp
    · omega
  | litLen =>
    rw [alphabetSize] at h
    simp only [instrOf]
    split_ifs
    · simp
    · simp
    · simp [lengthInstrs]
      omega
    · simp
    · simp
    · omega
  | dist =>
    rw [alphabetSize] at h
    simpa [instrOf, distInstrs] using h

/-! ## Every element relates what the primitives relate -/

theorem Primitives.elementOp (p : Primitives Q E) {a : Alphabet} {x : Op Unit} (h : ElementOp a x) :
    Relates Q E x := by
  have c := p.toClosed
  cases h with
  | stored f => exact Relates.andThen c (p.setHeader f 0) p.storedBlock
  | fixed f =>
    exact Relates.andThen c (p.setHeader f 1)
      (Relates.andThen c (p.goto (by decide) (by decide)) (Relates.modify p.installFixed))
  | dynamic f => exact Relates.andThen c (p.setHeader f 2) p.dynamicHeader
  | reservedType f => exact Relates.andThen c (p.setHeader f 3) (Relates.raise c _ (by decide))
  | codeLength n => exact Relates.modify fun s => p.pushLens n 1 s
  | repeatPrevious r => exact Relates.andThen c p.needPrevLen fun s => p.repeatLen (prevLen s) r s
  | repeatZero r => exact p.repeatLen 0 r
  | literal b => exact p.write b
  | endOfBlock => exact p.goto (by decide) (by decide)
  | length S x => exact p.lengthElement S x
  | distance D y => exact p.distElement D y
  | reservedSymbol a => exact Relates.raise c _ (by decide)

/-! ## What a decode leaves unchanged -/

theorem DecodeOnly.refl (s : State) : DecodeOnly s s := rfl

theorem DecodeOnly.trans {s t u : State} (h1 : DecodeOnly s t) (h2 : DecodeOnly t u) : DecodeOnly s u := by
  rw [DecodeOnly] at *
  rw [h2, h1]

theorem InputOnly.decodeOnly {s t : State} (h : InputOnly s t) : DecodeOnly s t := by
  rw [InputOnly] at h
  rw [DecodeOnly, h]

theorem decodeOnly_closed : Closed DecodeOnly fun _ _ => True :=
  ⟨DecodeOnly.refl, fun _ _ _ => DecodeOnly.trans, fun _ _ _ _ _ => trivial, fun _ _ _ => trivial⟩

theorem readBits_decodeOnly {n x : Nat} {s t : State} (h : readBits n s = .ok x t) : DecodeOnly s t :=
  ((readBits_frame n s).1 x t h).decodeOnly

theorem huffDecode_decodeOnly {lens : List Nat} {n : Nat} {s t : State} (h : huffDecode lens s = .ok n t) :
    DecodeOnly s t := by
  have bit : Relates DecodeOnly (fun _ _ => True) readBit := fun s =>
    ⟨fun b t h => by rcases readBit_ok h with ⟨-, -, rfl⟩ | ⟨-, b, rest, -, -, -, rfl⟩ <;> rfl, fun _ _ => trivial⟩
  exact (Relates.huffDecode decodeOnly_closed bit (fun _ _ => rfl) (fun _ => rfl) lens s).1 n t h

/-- An element CORE's fetch finds belongs to the alphabet its STATE reads (43_blocks.md R190), and the decode has
changed nothing but what a decode writes. -/
theorem coreFetch_spec {i : Instr} {s t : State} (h : coreFetch s = .element i t) :
    DecodeOnly s t ∧
    ((s.st = .readBlockHeader ∧ alphabetOf i = .header) ∨
      (s.st = .dynamic ∧ wantsLens s = true ∧ alphabetOf i = .treeCode) ∨
      (s.st = .decodeSymbols ∧ (alphabetOf i = .dist ∨ alphabetOf i = .litLen))) := by
  rcases coreFetch_element h with ⟨hs, h⟩ | ⟨hs, hw, h⟩ | ⟨hs, -, h⟩ | ⟨hs, -, h⟩
  · obtain ⟨f, u, b, v, x, h1, h2, h3, hi⟩ := fetchHeader_ok h
    have hu : DecodeOnly s { u with bfinal := BitVec.ofNat 1 f } := (readBits_decodeOnly h1).trans rfl
    have hv : DecodeOnly s { v with btype := BitVec.ofNat 2 b } := (hu.trans (readBits_decodeOnly h2)).trans rfl
    exact ⟨hv.trans (readBits_decodeOnly h3), .inl ⟨hs, instrOf_alphabet hi⟩⟩
  · obtain ⟨n, u, x, h1, -, h2, hi⟩ := fetchTree_ok h
    exact ⟨(huffDecode_decodeOnly h1).trans (readBits_decodeOnly h2), .inr (.inl ⟨hs, hw, instrOf_alphabet hi⟩)⟩
  · obtain ⟨n, u, x, h1, h2, hi⟩ := fetchDist_ok h
    have hu : DecodeOnly s { u with dsym := BitVec.ofNat 5 n } := (huffDecode_decodeOnly h1).trans rfl
    exact ⟨hu.trans (readBits_decodeOnly h2), .inr (.inr ⟨hs, .inl (instrOf_alphabet hi)⟩)⟩
  · obtain ⟨n, u, x, h1, h2, hi⟩ := fetchLitLen_ok h
    have hu : DecodeOnly s { u with sym := BitVec.ofNat 9 n } := (huffDecode_decodeOnly h1).trans rfl
    exact ⟨hu.trans (readBits_decodeOnly h2), .inr (.inr ⟨hs, .inr (instrOf_alphabet hi)⟩)⟩

end Sys2Proof.Machine

/-! # Every step keeps the control invariant (43_blocks.md R190 to R212) -/

namespace Sys2Proof.Machine

/-! ## The invariant by STATE -/

/-- Outside a block's body the invariant asks nothing. -/
theorem controlOk_of_st {s : State} (b : BlkState) (h : s.st = b)
    (hb : b ∉ ([.stored, .fixed, .dynamic, .decodeSymbols] : List BlkState)) : ControlOk s := by
  simp only [List.mem_cons, List.not_mem_nil, or_false, not_or] at hb
  obtain ⟨h1, h2, h3, h4⟩ := hb
  rw [← h] at h1 h2 h3 h4
  exact ⟨h1, h2, fun e => absurd e h3, fun e => absurd e h4⟩

/-- What DYNAMIC asks. -/
theorem controlOk_dynamic {s : State} (h : s.st = .dynamic) :
    ControlOk s ↔ 257 ≤ s.hlit.toNat ∧ s.hlit.toNat ≤ 288 ∧ 1 ≤ s.hdist.toNat ∧ s.hdist.toNat ≤ 32 ∧
      s.idx.toNat ≤ lensWanted s ∧ (huffBuild (clInForce s)).isSome = true := by
  simp [ControlOk, h]

/-- What DECODE_SYMBOLS asks. -/
theorem controlOk_decodeSymbols {s : State} (h : s.st = .decodeSymbols) :
    ControlOk s ↔ (huffBuild (llInForce s)).isSome = true ∧ (huffBuild (dInForce s)).isSome = true ∧
      (s.awaitDist = true → 3 ≤ s.mlen.toNat ∧ s.mlen.toNat ≤ 258) := by
  simp [ControlOk, h]

/-- Nothing the invariant looks at is written by a decode. -/
theorem DecodeOnly.controlOk {s t : State} (h : DecodeOnly s t) (ok : ControlOk s) : ControlOk t := by
  rw [h]
  exact ok

/-! ## Block headers -/

theorem storedRest_ok {s t : State} (h : storedRest s = .ok () t) : t.st = .blockEnd := by
  obtain ⟨⟨⟩, u, -, h⟩ := bind_ok_iff.1 h
  cases h
  rfl

theorem storedBlock_ok {s t : State} (h : storedBlock s = .ok () t) : t.st = .blockEnd := by
  rw [storedBlock, modify_andThen, modify_andThen] at h
  obtain ⟨⟨⟩, u, -, h⟩ := bind_ok_iff.1 h
  exact storedRest_ok h

/-- The fixed code lengths in force after they are installed (30_encoding.md R99, R100). -/
theorem installFixed_lens (s : State) :
    llInForce (installFixed s) = fixedLLLens ∧ dInForce (installFixed s) = fixedDLens := by
  have hll : (fixedLLLens.map (BitVec.ofNat 4)).length = 288 := by decide +kernel
  have hl := writeRun_take s.llLens (fixedLLLens.map (BitVec.ofNat 4)) (le_of_eq hll)
  have hdl : (fixedDLens.map (BitVec.ofNat 4)).length = 30 := rfl
  have hd := writeRun_take s.dLens (fixedDLens.map (BitVec.ofNat 4)) (by decide)
  rw [hll] at hl
  rw [hdl] at hd
  constructor
  · show ((writeRun s.llLens _).toList.take 288).map BitVec.toNat = fixedLLLens
    rw [hl]
    decide +kernel
  · show ((writeRun s.dLens _).toList.take 30).map BitVec.toNat = fixedDLens
    rw [hd]
    decide

theorem installFixed_controlOk (s : State) : ControlOk (installFixed s) := by
  obtain ⟨hl, hd⟩ := installFixed_lens s
  rw [controlOk_decodeSymbols rfl, hl, hd]
  exact ⟨by decide +kernel, by decide +kernel, fun h => by cases h⟩

/-- STATE, HLIT and HDIST are kept. -/
def CountsKept (s t : State) : Prop := t.st = s.st ∧ t.hlit = s.hlit ∧ t.hdist = s.hdist

theorem CountsKept.trans {s t u : State} (h1 : CountsKept s t) (h2 : CountsKept t u) : CountsKept s u :=
  ⟨h2.1.trans h1.1, h2.2.1.trans h1.2.1, h2.2.2.trans h1.2.2⟩

theorem readBits_countsKept {n x : Nat} {s t : State} (h : readBits n s = .ok x t) : CountsKept s t := by
  rw [(readBits_frame n s).1 x t h]
  exact ⟨rfl, rfl, rfl⟩

/-- The three counts are in their ranges once they are read (10_state.md R44, 43_blocks.md R203). -/
theorem readCounts_ok {s t : State} (h : readCounts s = .ok () t) :
    t.st = s.st ∧ 257 ≤ t.hlit.toNat ∧ t.hlit.toNat ≤ 288 ∧ 1 ≤ t.hdist.toNat ∧ t.hdist.toNat ≤ 32 := by
  obtain ⟨a, u, h1, h⟩ := bind_ok_iff.1 h
  rw [modify_andThen] at h
  obtain ⟨b, v, h2, h⟩ := bind_ok_iff.1 h
  rw [modify_andThen] at h
  obtain ⟨c, w, h3, h⟩ := bind_ok_iff.1 h
  cases h
  have ha := readBits_lt h1
  have hb := readBits_lt h2
  obtain ⟨s1, -, -⟩ := readBits_countsKept h1
  obtain ⟨s2, l2, -⟩ := readBits_countsKept h2
  obtain ⟨s3, l3, d3⟩ := readBits_countsKept h3
  have hl : w.hlit = hlitOf a := l3.trans l2
  have hd : w.hdist = hdistOf b := d3
  refine ⟨s3.trans (s2.trans s1), ?_⟩
  simp only [hl, hd, hlitOf, hdistOf, BitVec.toNat_ofNat]
  omega

theorem readClLens_countsKept {ns : List Nat} {s t : State} (h : readClLens ns s = .ok () t) : CountsKept s t := by
  induction ns generalizing s with
  | nil =>
    cases h
    exact ⟨rfl, rfl, rfl⟩
  | cons n ns ih =>
    obtain ⟨a, u, h1, h⟩ := bind_ok_iff.1 h
    rw [modify_andThen] at h
    have hu : CountsKept u { u with clLens := u.clLens.setIfInBounds n (BitVec.ofNat 3 a) } := ⟨rfl, rfl, rfl⟩
    exact (readBits_countsKept h1).trans (hu.trans (ih h))

theorem buildTable_ok {lens : List Nat} {s t : State} (h : buildTable lens s = .ok () t) :
    t = s ∧ (huffBuild lens).isSome = true := by
  rcases buildTable_cases lens s with ⟨hb, e⟩ | ⟨-, e⟩ <;> rw [e] at h <;> cases h
  exact ⟨rfl, hb⟩

/-- `T_CL` builds once the tree-code lengths have been read (43_blocks.md R204). -/
theorem readTreeCode_ok {s t : State} (h : readTreeCode s = .ok () t) :
    CountsKept s t ∧ (huffBuild (clInForce t)).isSome = true := by
  rw [readTreeCode, modify_andThen] at h
  obtain ⟨⟨⟩, u, h1, h⟩ := bind_ok_iff.1 h
  obtain ⟨rfl, hb⟩ := buildTable_ok h
  have hs : CountsKept s { s with clLens := Vector.replicate 19 0 } := ⟨rfl, rfl, rfl⟩
  exact ⟨hs.trans (readClLens_countsKept h1), hb⟩

theorem dynamicHeader_controlOk {s t : State} (h : dynamicHeader s = .ok () t) : ControlOk t := by
  rw [dynamicHeader, modify_andThen] at h
  obtain ⟨⟨⟩, u, h1, h⟩ := bind_ok_iff.1 h
  obtain ⟨⟨⟩, v, h2, h⟩ := bind_ok_iff.1 h
  cases h
  obtain ⟨hs, hl1, hl2, hd1, hd2⟩ := readCounts_ok h1
  obtain ⟨⟨hs', hl, hd⟩, hb⟩ := readTreeCode_ok h2
  rw [← hl] at hl1 hl2
  rw [← hd] at hd1 hd2
  exact (controlOk_dynamic (by exact hs'.trans hs)).2 ⟨hl1, hl2, hd1, hd2, Nat.zero_le _, hb⟩

theorem headerOp_controlOk {x : Op Unit} (hx : ElementOp .header x) {s t : State} (h : x s = .ok () t) :
    ControlOk t := by
  cases hx with
  | stored f => exact controlOk_of_st .blockEnd (storedBlock_ok h) (by decide)
  | fixed f =>
    cases h
    exact installFixed_controlOk _
  | dynamic f => exact dynamicHeader_controlOk h
  | reservedType f => cases h
  | reservedSymbol => cases h

/-! ## The code-length sequence -/

theorem pushLens_controlOk {s : State} (v : BitVec 4) {r : Nat} (ok : ControlOk s) (hs : s.st = .dynamic)
    (hr : s.idx.toNat + r ≤ lensWanted s) : ControlOk (pushLens v r s) := by
  obtain ⟨hl1, hl2, hd1, hd2, -, hb⟩ := (controlOk_dynamic hs).1 ok
  obtain ⟨hi, -, hf⟩ := pushLens_effect v r s (by rw [lensWanted] at hr; omega)
  rw [← hi] at hr
  rw [hf]
  exact (controlOk_dynamic (by exact hs)).2 ⟨hl1, hl2, hd1, hd2, hr, hb⟩

theorem repeatLen_controlOk {s t : State} {v : BitVec 4} {r : Nat} (ok : ControlOk s) (hs : s.st = .dynamic)
    (h : repeatLen v r s = .ok () t) : ControlOk t := by
  rcases repeatLen_cases v r s with ⟨-, e⟩ | ⟨hr, e⟩ <;> rw [e] at h <;> cases h
  exact pushLens_controlOk v ok hs hr

theorem treeOp_controlOk {x : Op Unit} (hx : ElementOp .treeCode x) {s t : State} (ok : ControlOk s)
    (hs : s.st = .dynamic) (hw : wantsLens s = true) (h : x s = .ok () t) : ControlOk t := by
  cases hx with
  | codeLength n =>
    cases h
    exact pushLens_controlOk (r := 1) n ok hs (by simpa [wantsLens] using hw)
  | repeatPrevious r =>
    obtain ⟨⟨⟩, u, h1, h⟩ := bind_ok_iff.1 h
    rcases needPrevLen_cases s with ⟨-, e⟩ | ⟨-, e⟩ <;> rw [e] at h1 <;> cases h1
    exact repeatLen_controlOk ok hs h
  | repeatZero r => exact repeatLen_controlOk ok hs h
  | reservedSymbol => cases h

/-! ## Symbols of a block's body -/

theorem OutputOnly.trans {s t u : State} (h1 : OutputOnly s t) (h2 : OutputOnly t u) : OutputOnly s u := by
  rw [OutputOnly] at *
  rw [h2, h1]

theorem outputOnly_closed : Closed OutputOnly fun _ _ => True :=
  ⟨fun _ => rfl, fun _ _ _ => OutputOnly.trans, fun _ _ _ _ _ => trivial, fun _ _ _ => trivial⟩

theorem writeByte_outputOnly (b : Byte) : Relates OutputOnly (fun _ _ => True) (writeByte b) := fun s =>
  ⟨fun _ t h => by rw [(writeByte_ok h).1]; rfl, fun _ _ => trivial⟩

/-- A match changes MDIST and the output, and awaits a literal/length code again (44_symbols.md R296). -/
theorem distElement_ok {D y : Nat} {s t : State} (h : distElement D y s = .ok () t) :
    ∃ u, OutputOnly { s with mdist := matchDistance D y } u ∧ t = { u with awaitDist := false } := by
  rw [distElement, modify_andThen] at h
  obtain ⟨⟨⟩, u, h1, h⟩ := bind_ok_iff.1 h
  cases h
  exact ⟨u, (Relates.writePrevious outputOnly_closed writeByte_outputOnly _ _ _).1 _ _ h1, rfl⟩

theorem matchLength_toNat {S x : Nat} (hS : 257 ≤ S ∧ S < 286) (hx : x < 2 ^ lExtra S) :
    (matchLength S x).toNat = lBase S + x := by
  have := lBase_add_bounds hS hx
  rw [matchLength, BitVec.toNat_ofNat]
  omega

theorem symbolOp_controlOk {a : Alphabet} {x : Op Unit} (hx : ElementOp a x) (ha : a = .dist ∨ a = .litLen)
    {s t : State} (ok : ControlOk s) (hs : s.st = .decodeSymbols) (h : x s = .ok () t) : ControlOk t := by
  obtain ⟨hl, hd, -⟩ := (controlOk_decodeSymbols hs).1 ok
  cases hx with
  | literal b =>
    rw [(writeByte_outputOnly b s).1 _ _ h]
    exact ok
  | endOfBlock =>
    cases h
    exact controlOk_of_st .blockEnd rfl (by decide)
  | length S x hS hx =>
    cases h
    refine (controlOk_decodeSymbols (by exact hs)).2 ⟨hl, hd, fun _ => ?_⟩
    rw [matchLength_toNat hS hx]
    exact lBase_add_bounds hS hx
  | distance D y =>
    obtain ⟨u, hu, rfl⟩ := distElement_ok h
    rw [hu]
    exact (controlOk_decodeSymbols (by exact hs)).2 ⟨hl, hd, fun e => by cases e⟩
  | reservedSymbol => cases h
  | stored | fixed | dynamic | reservedType | codeLength | repeatPrevious | repeatZero => simp at ha

/-! ## Moves and steps -/

theorem splitAndBuild_controlOk {s t : State} (h : splitAndBuild s = .ok () t) : ControlOk t := by
  rcases splitAndBuild_cases s with ⟨hl, hd, e⟩ | ⟨-, e⟩ <;> rw [e] at h <;> cases h
  exact (controlOk_decodeSymbols rfl).2 ⟨hl, hd, fun e => by cases e⟩

theorem endBlock_controlOk (s : State) : ControlOk (endBlock s) := by
  cases hf : isFinal s
  · rw [endBlock_of_not_final s hf]
    exact controlOk_of_st .readBlockHeader rfl (by decide)
  · rw [endBlock_of_final s hf]
    exact controlOk_of_st .done rfl (by decide)

/-- A raise ends in ERROR, so after an operation of CORE only its success is in question. -/
theorem run_controlOk {x : Op Unit} (hx : Relates RunsOn EndsInError x) {s t : State}
    (hk : x s = .ok () t → ControlOk t) (h : Op.run x s = .next t) : ControlOk t := by
  rcases run_next_iff.1 h with h | h
  · exact hk h
  · exact controlOk_of_st .error ((hx s).2 t h).st (by decide)

/-- Where CORE's fetch goes on without an element, the invariant holds afterwards. -/
theorem coreFetch_move_controlOk {s t : State} (ok : ControlOk s) (h : coreFetch s = .move (.next t)) :
    ControlOk t := by
  have decode : ∀ x : Op Instr, Relates RunsOn EndsInError x → Fetched.ofRes (x s) = .move (.next t) → ControlOk t := by
    intro x hx e
    cases hr : x s <;> rw [hr] at e <;> cases e
    exact controlOk_of_st .error ((hx s).2 t hr).st (by decide)
  have p := status_primitives
  unfold coreFetch at h
  split at h <;> rename_i hs
  · cases h
    exact controlOk_of_st .readBlockHeader rfl (by decide)
  · exact decode _ p.fetchHeader h
  · exact absurd hs ok.1
  · exact absurd hs ok.2.1
  · split at h
    · exact decode _ p.fetchTree h
    · exact run_controlOk p.splitAndBuild splitAndBuild_controlOk (Fetched.move.inj h)
  · split at h
    · exact decode _ p.fetchDist h
    · exact decode _ p.fetchLitLen h
  · cases h
    exact endBlock_controlOk s
  · cases h
    exact ok
  · cases h
    exact ok

/-- Every step of CORE keeps the invariant. -/
theorem core_controlOk {s t : State} (ok : ControlOk s) (h : follow (coreFetch s) = .next t) : ControlOk t := by
  cases hf : coreFetch s with
  | move o =>
    rw [hf] at h
    exact coreFetch_move_controlOk ok (hf.trans (congrArg Fetched.move h))
  | element i u =>
    rw [hf] at h
    obtain ⟨hu, hi⟩ := coreFetch_spec hf
    obtain ⟨x, hx, e⟩ := exec_elementOp i
    have hst : u.st = s.st := by rw [hu]
    refine run_controlOk (status_primitives.elementOp hx) (fun h => ?_) ((congrFun e u).symm.trans h)
    rcases hi with ⟨-, hi⟩ | ⟨hs, hw, hi⟩ | ⟨hs, hi⟩
    · exact headerOp_controlOk (hi ▸ hx) h
    · have hw' : wantsLens u = true := by
        rw [hu]
        exact hw
      exact treeOp_controlOk (hi ▸ hx) (hu.controlOk ok) (hst.trans hs) hw' h
    · exact symbolOp_controlOk hx hi (hu.controlOk ok) (hst.trans hs) h

/-- Everything a step can be: a step of CORE, nothing, a move of the host, or the host's move when CORE has ended
(45_host_gzip.md R320, R321). -/
theorem step_core_or_host (s : State) :
    step s = follow (coreFetch s) ∨ step s = .next s ∨ (s.gz.phase ≠ .core ∧ step s = .next (gzMove s)) ∨
      step s = .next (gzCoreEnded s) := by
  rw [step_eq, fetch]
  split
  · exact .inl rfl
  · split
    · exact .inr (.inr (.inr rfl))
    · exact .inl rfl
  · exact .inr (.inl rfl)
  · exact .inr (.inl rfl)
  · exact .inr (.inr (.inl ⟨‹_›, rfl⟩))

/-- Settles O52: by the alphabet of the element a step of CORE executes; the host's moves leave CORE alone or reset
it. -/
theorem stepKeepsTheControl : Obligations.StepKeepsTheControl := by
  intro s t ok h
  rcases step_core_or_host s with e | e | ⟨hp, e⟩ | e <;> rw [e] at h
  · exact core_controlOk ok h
  · cases h
    exact ok
  · cases h
    exact gzMove_keeps (fun _ _ h => h) (fun _ _ h => h) (fun _ => controlOk_of_st .start rfl (by decide)) ok hp
  · cases h
    exact gzCoreEnded_keeps (fun _ _ h => h) ok

end Sys2Proof.Machine

/-! # What holds of every operation of CORE because it holds of the basic ones -/

namespace Sys2Proof.Machine

variable {α β : Type}

/-! ## Rules for a property of operations -/

/-- `x` can succeed with the value `a`. -/
def Gives (x : Op α) (a : α) : Prop := ∃ s t, x s = .ok a t

/-- ERR and the output side of a state. -/
def errAndOutput (s : State) : BitVec 4 × List Byte × Nat × BitVec 32 × List Host.Cell :=
  (s.err, s.snk, s.count, s.crc, s.win)

/-- A register write that does not look at the source and touches neither ERR nor the output. -/
structure PlainWrite (g : State → State) : Prop where
  source : ∀ s more, g (withMoreSource s more) = withMoreSource (g s) more
  kept : ∀ s, errAndOutput (g s) = errAndOutput s

/-- What a property of operations must hold of, and be closed under, for the operations of CORE to have it: the byte
source, the byte sink, register writes, raises, sequences, and a choice by the registers. -/
structure OpRules (P : ∀ {α : Type}, Op α → Prop) : Prop where
  pure : ∀ {α : Type} (a : α), P (Op.pure a)
  bind : ∀ {α β : Type} {x : Op α} {f : α → Op β}, P x → (∀ a, Gives x a → P (f a)) → P (x.bind f)
  raise : ∀ {α : Type} (k : ErrKind), P (raise k : Op α)
  byte : P srcNext
  write : ∀ b, P (writeByte b)
  modify : ∀ {g : State → State}, PlainWrite g → P (Op.modify g)
  choose : ∀ {α : Type} {y : Op α} (x : State → Op α), (∀ s, y s = x s s) →
    (∀ s more, x (withMoreSource s more) = x s) → (∀ s, P (x s)) → P y

/-- The extra field of an element is narrow enough for `ReadBits` (40_bitreader.md R133). -/
theorem extraWidth_le {a : Alphabet} {n : Nat} (h : n < alphabetSize a) : extraWidth a n ≤ 32 := by
  cases a with
  | header => exact Nat.zero_le _
  | treeCode => exact (by decide : ∀ n < 19, clExtra n ≤ 32) n h
  | litLen => exact (by decide +kernel : ∀ n < 288, lExtra n ≤ 32) n h
  | dist => exact (by decide : ∀ n < 32, dExtra n ≤ 32) n h

theorem pushLens_plain (v : BitVec 4) (r : Nat) : PlainWrite (pushLens v r) := by
  induction r with
  | zero => exact ⟨fun _ _ => rfl, fun _ => rfl⟩
  | succ r ih => exact ⟨fun s => ih.source (pushLen v s), fun s => ih.kept (pushLen v s)⟩

namespace OpRules

variable {P : ∀ {α : Type}, Op α → Prop} (p : OpRules @P)
include p

theorem andThen {x : Op Unit} {y : Op β} (hx : P x) (hy : P y) : P (x.andThen y) := p.bind hx fun _ _ => hy

/-- A register write that is plain by unfolding. -/
theorem plain {g : State → State}
    (source : ∀ s more, g (withMoreSource s more) = withMoreSource (g s) more := by intros; rfl)
    (kept : ∀ s, errAndOutput (g s) = errAndOutput s := by intros; rfl) : P (Op.modify g) :=
  p.modify ⟨source, kept⟩

/-- An operation that does nothing or raises, by a test of the registers. -/
theorem test {y : Op Unit} (c : State → Prop) (k : ErrKind)
    (hy : ∀ s, (c s ∧ y s = .ok () s) ∨ (¬ c s ∧ y s = .raised (takeError k s)))
    (hc : ∀ s more, c (withMoreSource s more) = c s) : P y := by
  classical
  refine p.choose (fun s => if c s then Op.pure () else Machine.raise k) (fun s => ?_) (fun s more => ?_) fun s => ?_
  · rcases hy s with ⟨h, e⟩ | ⟨h, e⟩
    · rw [if_pos h, e]
      rfl
    · rw [if_neg h, e]
      rfl
  · simp only [hc]
  · split
    · exact p.pure ()
    · exact p.raise k

/-! ### The bit reader and the decode -/

theorem takeBit : P takeBit :=
  p.choose (fun s => (Op.modify shiftBit).andThen (Op.pure (s.bb.getLsbD 0))) (fun _ => rfl) (fun _ _ => rfl)
    fun _ => p.andThen p.plain (p.pure _)

theorem readBit : P readBit := by
  refine p.choose (fun s => if s.bc = 0 then srcNext.bind fun b => (Op.modify (loadByte b)).andThen Machine.takeBit
    else Machine.takeBit) (fun s => ?_) (fun _ _ => rfl) fun s => ?_
  · rw [Machine.readBit]
    split <;> rfl
  · split
    · exact p.bind p.byte fun b _ => p.andThen p.plain p.takeBit
    · exact p.takeBit

theorem readBitsFrom (k i v : Nat) : P (readBitsFrom k i v) := by
  induction k generalizing i v with
  | zero => exact p.pure v
  | succ k ih => exact p.bind p.readBit fun b _ => ih _ _

theorem readBits {n : Nat} (h : n ≤ 32) : P (readBits n) := by
  rw [funext (readBits_of_le h)]
  exact p.readBitsFrom n 0 0

theorem huffLoop (T : List CodeEntry) (k : Nat) : P (huffLoop T k) := by
  induction k with
  | zero => exact p.raise _
  | succ k ih =>
    refine p.bind p.readBit fun b _ => p.andThen p.plain ?_
    refine p.choose (fun s => match lookupCode T s.accn.toNat s.acc.toNat with
      | some n => Op.pure n
      | none => Machine.huffLoop T k) (fun s => ?_) (fun _ _ => rfl) fun s => ?_
    · cases lookupCode T s.accn.toNat s.acc.toNat <;> rfl
    · split
      · exact p.pure _
      · exact ih

theorem huffDecode (lens : List Nat) : P (huffDecode lens) := by
  cases h : huffBuild lens with
  | none =>
    have e : Machine.huffDecode lens = Machine.raise .invalidHuffmanTree := by
      funext s
      rw [Machine.huffDecode, h]
    rw [e]
    exact p.raise _
  | some T =>
    have e : Machine.huffDecode lens = (Op.modify clearAcc).andThen (Machine.huffLoop T Config.maxBits) := by
      funext s
      rw [Machine.huffDecode, h]
      rfl
    rw [e]
    exact p.andThen p.plain (p.huffLoop T _)

theorem buildTable (lens : List Nat) : P (buildTable lens) :=
  p.test (fun _ => (huffBuild lens).isSome = true) .invalidHuffmanTree
    (fun s => (buildTable_cases lens s).imp id fun h => ⟨by simp [h.1], h.2⟩) (fun _ _ => rfl)

/-! ### Block headers -/

theorem copyStored (k : Nat) : P (copyStored k) := by
  induction k with
  | zero => exact p.pure ()
  | succ k ih =>
    exact p.bind p.byte fun b _ => p.andThen (p.write b) <|
      p.andThen p.plain ih

theorem storedRest : P storedRest :=
  p.choose (fun s => (Machine.copyStored s.rem.toNat).andThen <|
      returnReader.andThen <| Op.modify (setState .blockEnd)) (fun _ => rfl) (fun _ _ => rfl) fun _ =>
    p.andThen (p.copyStored _) (p.andThen (p.pure ()) p.plain)

theorem checkNlen : P checkNlen :=
  p.test (fun s => s.slen = ~~~s.snlen) .nlenMismatch checkNlen_cases (fun _ _ => rfl)

theorem storedLengths : P storedLengths :=
  p.bind p.byte fun _ _ => p.bind p.byte fun _ _ =>
  p.andThen p.plain <|
  p.bind p.byte fun _ _ => p.bind p.byte fun _ _ =>
  p.andThen p.plain p.checkNlen

theorem storedBlock : P storedBlock :=
  p.andThen p.plain <|
  p.andThen p.plain <|
  p.andThen p.storedLengths <|
  p.andThen p.plain p.storedRest

theorem readClLens (ns : List Nat) : P (readClLens ns) := by
  induction ns with
  | nil => exact p.pure ()
  | cons n ns ih =>
    exact p.bind (p.readBits (by decide)) fun v _ => p.andThen p.plain ih

theorem readCounts : P readCounts :=
  p.bind (p.readBits (by decide)) fun _ _ => p.andThen p.plain <|
  p.bind (p.readBits (by decide)) fun _ _ => p.andThen p.plain <|
  p.bind (p.readBits (by decide)) fun _ _ => p.plain

theorem readTreeCode : P readTreeCode :=
  p.andThen p.plain <|
  p.choose (fun s => (Machine.readClLens (clOrder.take s.hclen.toNat)).andThen
      fun t => Machine.buildTable (clInForce t) t) (fun _ => rfl) (fun _ _ => rfl) fun _ =>
    p.andThen (p.readClLens _) <|
    p.choose (fun t => Machine.buildTable (clInForce t)) (fun _ => rfl) (fun _ _ => rfl) fun _ => p.buildTable _

theorem dynamicHeader : P dynamicHeader :=
  p.andThen p.plain <|
  p.andThen p.readCounts <| p.andThen p.readTreeCode <| p.plain

theorem splitAndBuild : P splitAndBuild :=
  p.andThen p.plain <|
  p.choose (fun s => (Machine.buildTable (llInForce s)).andThen <| (Machine.buildTable (dInForce s)).andThen <|
      Op.modify fun t => { t with st := .decodeSymbols, awaitDist := false }) (fun _ => rfl) (fun _ _ => rfl) fun _ =>
    p.andThen (p.buildTable _) <| p.andThen (p.buildTable _) <| p.plain

/-! ### The code-length sequence -/

theorem needPrevLen : P needPrevLen :=
  p.test (fun s => hasPrevLen s = true) .invalidHuffmanTree
    (fun s => (needPrevLen_cases s).imp id fun h => ⟨by simp [h.1], h.2⟩) (fun _ _ => rfl)

theorem repeatLen (v : BitVec 4) (r : Nat) : P (repeatLen v r) := by
  refine p.choose (fun s => if lensWanted s < s.idx.toNat + r then Machine.raise .invalidHuffmanTree
    else Op.modify (pushLens v r)) (fun s => ?_) (fun _ _ => rfl) fun s => ?_
  · rw [Machine.repeatLen]
    split <;> rfl
  · split
    · exact p.raise _
    · exact p.modify (pushLens_plain v r)

theorem checkRepeat (n : Nat) : P (checkRepeat n) :=
  p.test (fun s => ¬ (n = 16 ∧ hasPrevLen s = false)) .invalidHuffmanTree (fun s => by
    rw [Machine.checkRepeat]
    split
    · exact .inr ⟨not_not.2 ‹_›, rfl⟩
    · exact .inl ⟨‹_›, rfl⟩) (fun _ _ => rfl)

/-! ### Elements -/

/-- Every element, if the matches have the property. -/
theorem elementOp (hd : ∀ D y, D < 30 → y < 2 ^ dExtra D → P (distElement D y)) {a : Alphabet} {x : Op Unit}
    (h : ElementOp a x) : P x := by
  cases h with
  | stored f => exact p.andThen p.plain p.storedBlock
  | fixed f =>
    exact p.andThen p.plain <|
      p.andThen p.plain p.plain
  | dynamic f => exact p.andThen p.plain p.dynamicHeader
  | reservedType f => exact p.andThen p.plain (p.raise _)
  | codeLength n => exact p.plain
  | repeatPrevious r =>
    exact p.andThen p.needPrevLen <|
      p.choose (fun s => Machine.repeatLen (prevLen s) r) (fun _ => rfl) (fun _ _ => rfl) fun _ => p.repeatLen _ r
  | repeatZero r => exact p.repeatLen 0 r
  | literal b => exact p.write b
  | endOfBlock => exact p.plain
  | length S x => exact p.plain
  | distance D y h1 h2 => exact hd D y h1 h2
  | reservedSymbol a => exact p.raise _

/-! ### Fetches -/

theorem fetchElement {a : Alphabet} {n : Nat} (h : n < alphabetSize a) : P (fetchElement a n) := by
  refine p.bind (p.readBits (extraWidth_le h)) fun x _ => ?_
  cases hi : instrOf a n x with
  | none => exact absurd hi (instrOf_ne_none h x)
  | some i => exact p.pure i

/-- A code of a table with as many lengths as its alphabet has numbers, or fewer, then what follows it. -/
theorem decodeThen {a : Alphabet} {lens : List Nat} (h : lens.length ≤ alphabetSize a) {f : Nat → Op β}
    (hf : ∀ n, n < alphabetSize a → P (f n)) : P ((Machine.huffDecode lens).bind f) :=
  p.bind (p.huffDecode lens) fun n ⟨_, _, e⟩ => hf n (lt_of_lt_of_le (huffDecode_lt e) h)

theorem fetchHeader : P fetchHeader := by
  refine p.bind (p.readBits (by decide)) fun f ⟨_, _, hf⟩ => p.andThen p.plain <|
    p.bind (p.readBits (by decide)) fun t ⟨_, _, ht⟩ => p.andThen p.plain <|
    p.fetchElement ?_
  have := readBits_lt hf
  have := readBits_lt ht
  rw [alphabetSize]
  omega

theorem fetchTree : P fetchTree :=
  p.choose (fun s => (Machine.huffDecode (clInForce s)).bind fun n =>
      (Machine.checkRepeat n).andThen (Machine.fetchElement .treeCode n)) (fun _ => rfl) (fun _ _ => rfl) fun _ =>
    p.decodeThen (a := .treeCode) (by simp [clInForce, alphabetSize]) fun n hn =>
      p.andThen (p.checkRepeat n) (p.fetchElement hn)

theorem fetchLitLen : P fetchLitLen :=
  p.choose (fun s => (Machine.huffDecode (llInForce s)).bind fun n =>
      (Op.modify fun t => { t with sym := BitVec.ofNat 9 n }).andThen (Machine.fetchElement .litLen n))
      (fun _ => rfl) (fun _ _ => rfl) fun _ =>
    p.decodeThen (a := .litLen) (by simp [llInForce, alphabetSize]) fun n hn =>
      p.andThen p.plain (p.fetchElement hn)

theorem fetchDist : P fetchDist :=
  p.choose (fun s => (Machine.huffDecode (dInForce s)).bind fun n =>
      (Op.modify fun t => { t with dsym := BitVec.ofNat 5 n }).andThen (Machine.fetchElement .dist n))
      (fun _ => rfl) (fun _ _ => rfl) fun _ =>
    p.decodeThen (a := .dist) (by simp [dInForce, alphabetSize]) fun n hn =>
      p.andThen p.plain (p.fetchElement hn)

end OpRules

end Sys2Proof.Machine

/-! # A sound state takes a safe step (10_state.md R31, R33, R34; 41_tracking_writer.md R158) -/

namespace Sys2Proof.Machine

variable {α β : Type}

/-! ## Safe operations -/

/-- A safe result: success with a consistent history, a raise, or a refusal of 2^64 bytes of input or output. -/
def SafeRes : Res α → Prop
  | .ok _ t => OutputOk t
  | .raised _ => True
  | .fault _ => False
  | .refused r => r = .inputTooLong ∨ r = .outputTooLong

/-- From every state with a consistent history the result is safe. -/
def SafeOp (x : Op α) : Prop := ∀ s, OutputOk s → SafeRes (x s)

theorem SafeRes.bind {x : Op α} {f : α → Op β} {s : State} (hx : SafeRes (x s))
    (hf : ∀ a t, x s = .ok a t → OutputOk t → SafeRes (f a t)) : SafeRes (x.bind f s) := by
  cases h : x s <;> rw [h] at hx
  · rw [bind_of_ok h]
    exact hf _ _ h hx
  · rw [bind_of_raised h]
    trivial
  · exact hx.elim
  · rw [bind_of_refused h]
    exact hx

/-- The history is a matter of the output side alone. -/
theorem outputOk_congr {s t : State} (h : errAndOutput t = errAndOutput s) (ok : OutputOk s) : OutputOk t := by
  simp only [errAndOutput, Prod.mk.injEq] at h
  obtain ⟨-, h1, h2, h3, h4⟩ := h
  simpa only [OutputOk, OutputIs, h1, h2, h3, h4] using ok

theorem srcNext_safe : SafeOp srcNext := by
  intro s ok
  rcases srcNext_cases s with ⟨b, rest, -, -, e⟩ | ⟨b, rest, -, -, e⟩ | ⟨-, e⟩ | ⟨rest, -, e⟩ <;> rw [e]
  · exact ok
  · exact .inl rfl
  · trivial
  · trivial

theorem writeByte_safe (b : Byte) : SafeOp (writeByte b) := by
  intro s ok
  rcases writeByte_cases b s with ⟨-, e⟩ | ⟨-, -, e⟩ | ⟨-, -, e⟩ <;> rw [e]
  · trivial
  · exact putByte_outputOk b ok
  · exact .inr rfl

theorem safeOp_rules : OpRules @SafeOp where
  pure := fun _ _ ok => ok
  bind := fun hx hf s ok => (hx s ok).bind fun a t e ok' => hf a ⟨s, t, e⟩ t ok'
  raise := fun _ _ _ => trivial
  byte := srcNext_safe
  write := writeByte_safe
  modify := fun h s ok => outputOk_congr (h.kept s) ok
  choose := fun x hy _ h s ok => by
    rw [hy]
    exact h s s ok

/-! ## Matches -/

/-- A copy from a distance the history covers reads only window indices that have been written. -/
theorem copyBack_safe (k : Nat) {dist : Nat} {s : State} (ok : OutputOk s) (h1 : 1 ≤ dist)
    (h2 : dist ≤ min Config.wsize s.count) : SafeRes (copyBack k dist s) := by
  induction k generalizing s with
  | zero => exact ok
  | succ k ih =>
    obtain ⟨pre, out, ho⟩ := ok
    obtain ⟨b, hb, -⟩ := window_read ho h1 h2
    simp only [copyBack, hb]
    refine (writeByte_safe b s ⟨pre, out, ho⟩).bind fun _ t e ok' => ih ok' ?_
    simp only [(writeByte_ok e).1, putByte_fields]
    omega

theorem writePrevious_safe (len : Nat) {dist : Nat} (h : 1 ≤ dist) : SafeOp (writePrevious len dist) := by
  intro s ok
  rcases writePrevious_cases len dist s with ⟨h0, -⟩ | ⟨-, -, e⟩ | ⟨-, h2, e⟩
  · omega
  · rw [e]
    trivial
  · rw [e]
    exact copyBack_safe len ok h h2

theorem matchDistance_toNat {D y : Nat} (hD : D < 30) (hy : y < 2 ^ dExtra D) :
    (matchDistance D y).toNat = dBase D + y := by
  have := dBase_add_bounds hD hy
  rw [matchDistance, BitVec.toNat_ofNat]
  omega

/-- No distance element has distance 0, and one too far back is rejected before anything is read. -/
theorem distElement_safe {D y : Nat} (hD : D < 30) (hy : y < 2 ^ dExtra D) : SafeOp (distElement D y) := by
  intro s ok
  have hd : 1 ≤ (matchDistance D y).toNat := by
    rw [matchDistance_toNat hD hy]
    exact (dBase_add_bounds hD hy).1
  rw [distElement, modify_andThen]
  refine SafeRes.bind ?_ fun _ t _ ok' => ok'
  exact writePrevious_safe _ hd _ ok

/-! ## Steps -/

theorem SafeRes.run {x : Op Unit} {s : State} (h : SafeRes (x s)) : SafeOutcome (Op.run x s) := by
  rw [Op.run]
  cases hx : x s <;> rw [hx] at h
  · trivial
  · trivial
  · exact h
  · exact h

theorem exec_safe (i : Instr) {s : State} (ok : OutputOk s) : SafeOutcome (exec i s) := by
  obtain ⟨x, hx, e⟩ := exec_elementOp i
  rw [e]
  exact (safeOp_rules.elementOp (fun _ _ => distElement_safe) hx s ok).run

theorem follow_safe {x : Op Instr} (hx : SafeOp x) {s : State} (ok : OutputOk s) :
    SafeOutcome (follow (Fetched.ofRes (x s))) := by
  have h := hx s ok
  cases e : x s <;> rw [e] at h
  · exact exec_safe _ h
  · trivial
  · exact h
  · exact h

theorem core_safe {s : State} (ok : OutputOk s) : SafeOutcome (follow (coreFetch s)) := by
  have p := safeOp_rules
  unfold coreFetch
  split
  · trivial
  · exact follow_safe p.fetchHeader ok
  · exact (p.storedRest s ok).run
  · trivial
  · split
    · exact follow_safe p.fetchTree ok
    · exact (p.splitAndBuild s ok).run
  · split
    · exact follow_safe p.fetchDist ok
    · exact follow_safe p.fetchLitLen ok
  · trivial
  · trivial
  · trivial

/-- Settles O53: a consistent history suffices; every operation of CORE is safe from it, and the host's moves always go
on. -/
theorem stepIsSafe : Obligations.StepIsSafe := by
  rintro s ⟨-, ok, -⟩
  rcases step_core_or_host s with e | e | ⟨-, e⟩ | e <;> rw [e]
  · exact core_safe ok
  · trivial
  · trivial
  · trivial

end Sys2Proof.Machine

/-! # No step reads ahead (10_state.md R23; 43_blocks.md R193) -/

namespace Sys2Proof.Machine

variable {α β : Type}

/-! ## Operations that read no further than they need -/

/-- `r'` is `r` with the items `more` still behind the source; nothing is asked where `r` is an UnexpectedEof. -/
def SameBefore (more : List SrcItem) : Res α → Res α → Prop
  | .ok a t, r' => t.err = 0 ∧ r' = .ok a (withMoreSource t more)
  | .raised t, r' => t.err ≠ errCode .unexpectedEof → r' = .raised (withMoreSource t more)
  | .fault _, _ => True
  | .refused _, _ => True

/-- As long as there is no error, more items behind the source change nothing but an UnexpectedEof. -/
def ReadsNoFurther (x : Op α) : Prop :=
  ∀ s more, s.err = 0 → SameBefore more (x s) (x (withMoreSource s more))

theorem ReadsNoFurther.bind {x : Op α} {f : α → Op β} (hx : ReadsNoFurther x)
    (hf : ∀ a, Gives x a → ReadsNoFurther (f a)) : ReadsNoFurther (x.bind f) := by
  intro s more he
  have h := hx s more he
  cases e : x s with
  | ok a t =>
    rw [e] at h
    rw [bind_of_ok e, bind_of_ok h.2]
    exact hf a ⟨s, t, e⟩ t more h.1
  | raised t =>
    rw [e] at h
    rw [bind_of_raised e]
    exact fun hn => bind_of_raised (h hn)
  | fault e' =>
    rw [bind_of_fault e]
    trivial
  | refused r =>
    rw [bind_of_refused e]
    trivial

/-- Only the end of the source looks different with more behind it, and that is an UnexpectedEof. -/
theorem srcNext_readsNoFurther : ReadsNoFurther srcNext := by
  intro s more he
  rcases srcNext_cases s with ⟨b, rest, h, hr, e⟩ | ⟨b, rest, -, -, e⟩ | ⟨-, e⟩ | ⟨rest, h, e⟩ <;> rw [e]
  · exact ⟨he, by simp [srcNext, withMoreSource, h, hr]⟩
  · trivial
  · exact fun hn => absurd (if_pos he) hn
  · exact fun _ => by
      simp [srcNext, withMoreSource, h]
      rfl

theorem writeByte_readsNoFurther (b : Byte) : ReadsNoFurther (writeByte b) := by
  intro s more he
  rcases writeByte_cases b s with ⟨h, e⟩ | ⟨h, hc, e⟩ | ⟨-, -, e⟩ <;> rw [e]
  · exact fun _ => if_pos h
  · exact ⟨he, (if_neg h).trans (if_pos hc)⟩
  · trivial

theorem readsNoFurther_rules : OpRules @ReadsNoFurther where
  pure := fun _ _ _ he => ⟨he, rfl⟩
  bind := ReadsNoFurther.bind
  raise := fun _ _ _ _ _ => rfl
  byte := srcNext_readsNoFurther
  write := writeByte_readsNoFurther
  modify := fun {g} h s more he => by
    refine ⟨(congrArg Prod.fst (h.kept s)).trans he, ?_⟩
    rw [modify_apply, h.source]
  choose := fun x hy hx h s more he => by
    rw [hy, hy, hx]
    exact h s s more he

/-! ## Matches -/

theorem copyBack_readsNoFurther (k dist : Nat) : ReadsNoFurther (copyBack k dist) := by
  induction k with
  | zero => exact readsNoFurther_rules.pure ()
  | succ k ih =>
    intro s more he
    cases h : Memory.read s.win ((s.count - dist) % Config.wsize) with
    | none =>
      simp only [copyBack, h]
      trivial
    | some b =>
      have h' : Memory.read (withMoreSource s more).win (((withMoreSource s more).count - dist) % Config.wsize) =
        some b := h
      simp only [copyBack, h, h']
      exact readsNoFurther_rules.andThen (writeByte_readsNoFurther b) ih s more he

theorem writePrevious_readsNoFurther (len dist : Nat) : ReadsNoFurther (writePrevious len dist) := by
  intro s more he
  rcases writePrevious_cases len dist s with ⟨-, e⟩ | ⟨h0, h, e⟩ | ⟨h0, h, e⟩
  · rw [e]
    trivial
  · rw [e]
    exact fun _ => (if_neg h0).trans (if_pos h)
  · have e' : writePrevious len dist (withMoreSource s more) = copyBack len dist (withMoreSource s more) :=
      (if_neg h0).trans (if_neg (not_lt.2 h))
    rw [e, e']
    exact copyBack_readsNoFurther len dist s more he

theorem distElement_readsNoFurther (D y : Nat) : ReadsNoFurther (distElement D y) :=
  readsNoFurther_rules.andThen readsNoFurther_rules.plain <|
  readsNoFurther_rules.andThen
    (readsNoFurther_rules.choose (fun s => writePrevious s.mlen.toNat s.mdist.toNat) (fun _ => rfl) (fun _ _ => rfl)
      fun _ => writePrevious_readsNoFurther _ _)
    readsNoFurther_rules.plain

/-! ## Steps -/

/-- An element or move of CORE that does not end in UnexpectedEof ends the same with more items behind the source. -/
theorem ReadsNoFurther.run {x : Op Unit} (hx : ReadsNoFurther x) {s t : State} (he : s.err = 0)
    (h : Op.run x s = .next t) (hn : t.err ≠ errCode .unexpectedEof) (more : List SrcItem) :
    Op.run x (withMoreSource s more) = .next (withMoreSource t more) := by
  have hs := hx s more he
  rcases run_next_iff.1 h with e | e <;> rw [e] at hs
  · exact run_of_ok hs.2
  · exact run_of_raised (hs hn)

theorem exec_readsNoFurther (i : Instr) {s t : State} (he : s.err = 0) (h : exec i s = .next t)
    (hn : t.err ≠ errCode .unexpectedEof) (more : List SrcItem) :
    exec i (withMoreSource s more) = .next (withMoreSource t more) := by
  obtain ⟨x, hx, e⟩ := exec_elementOp i
  rw [e] at h ⊢
  exact (readsNoFurther_rules.elementOp (fun D y _ _ => distElement_readsNoFurther D y) hx).run he h hn more

theorem ReadsNoFurther.follow {x : Op Instr} (hx : ReadsNoFurther x) {s t : State} (he : s.err = 0)
    (h : follow (Fetched.ofRes (x s)) = .next t) (hn : t.err ≠ errCode .unexpectedEof) (more : List SrcItem) :
    follow (Fetched.ofRes (x (withMoreSource s more))) = .next (withMoreSource t more) := by
  have hs := hx s more he
  cases e : x s <;> rw [e] at h hs
  · obtain ⟨he', e'⟩ := hs
    rw [e']
    exact exec_readsNoFurther _ he' h hn more
  · cases h
    rw [hs hn]
    rfl
  · cases h
  · cases h

theorem endBlock_withMoreSource (s : State) (more : List SrcItem) :
    endBlock (withMoreSource s more) = withMoreSource (endBlock s) more := by
  cases hf : isFinal s
  · rw [endBlock_of_not_final s hf, endBlock_of_not_final (withMoreSource s more) hf]
    rfl
  · rw [endBlock_of_final s hf, endBlock_of_final (withMoreSource s more) hf]
    rfl

theorem core_readsNoFurther {s t : State} (ok : StatusOk s) (h : follow (coreFetch s) = .next t)
    (hn : t.err ≠ errCode .unexpectedEof) (more : List SrcItem) :
    follow (coreFetch (withMoreSource s more)) = .next (withMoreSource t more) := by
  obtain ⟨-, hst, -⟩ := ok
  have p := readsNoFurther_rules
  have he : s.st ≠ .error → s.err = 0 := fun hs => not_not.1 fun e => hs (hst.1 e)
  have hm : (withMoreSource s more).st = s.st := rfl
  have hw : wantsLens (withMoreSource s more) = wantsLens s := rfl
  have ha : (withMoreSource s more).awaitDist = s.awaitDist := rfl
  cases hs : s.st <;> simp only [coreFetch, hm, hs, hw, ha] at h ⊢
  case start | done | error | fixed =>
    cases h
    rfl
  case readBlockHeader => exact p.fetchHeader.follow (he (by simp [hs])) h hn more
  case stored => exact p.storedRest.run (he (by simp [hs])) h hn more
  case dynamic =>
    split at h
    · rw [if_pos ‹_›]
      exact p.fetchTree.follow (he (by simp [hs])) h hn more
    · rw [if_neg ‹_›]
      exact p.splitAndBuild.run (he (by simp [hs])) h hn more
  case decodeSymbols =>
    split at h
    · rw [if_pos ‹_›]
      exact p.fetchDist.follow (he (by simp [hs])) h hn more
    · rw [if_neg ‹_›]
      exact p.fetchLitLen.follow (he (by simp [hs])) h hn more
  case blockEnd =>
    cases h
    exact congrArg Host.Outcome.next (endBlock_withMoreSource s more)

theorem gzCoreEnded_withMoreSource (s : State) (more : List SrcItem) :
    gzCoreEnded (withMoreSource s more) = withMoreSource (gzCoreEnded s) more := by
  have he : hasError (withMoreSource s more) = hasError s := rfl
  rw [gzCoreEnded, gzCoreEnded, he]
  split
  · rfl
  · rw [gzEnter_of_ne (by decide), gzEnter_of_ne (by decide)]
    rfl

/-- Settles O55: every operation of CORE reads no further than it needs, so a step of CORE does; the host's move when
CORE has ended does not read. -/
theorem noReadAhead : Obligations.NoReadAhead := by
  intro s t more hp ok h hn
  have hg : (withMoreSource s more).gz = s.gz := rfl
  have hd : (isDone (withMoreSource s more) || hasError (withMoreSource s more)) = (isDone s || hasError s) := rfl
  rw [step_eq, fetch] at h ⊢
  rw [hg, hd]
  rcases hp with hp | hp <;> simp only [hp] at h ⊢
  · exact core_readsNoFurther ok h hn more
  · split at h
    · rw [if_pos ‹_›]
      cases h
      exact congrArg Host.Outcome.next (gzCoreEnded_withMoreSource s more)
    · rw [if_neg ‹_›]
      exact core_readsNoFurther ok h hn more

end Sys2Proof.Machine

/-! # The memories: the window, the sink and the source -/

namespace Sys2Proof.Machine

/-! ## The source (20_memory.md R62, R63) -/

/-- Settles O12: each of the four things `SrcNext` can do falls under one clause, and the other three do not apply to
it. -/
theorem sourceOutcomes : Obligations.SourceOutcomes := by
  intro s
  rcases srcNext_cases s with ⟨b, rest, h, hr, e⟩ | ⟨b, rest, h, hr, e⟩ | ⟨h, e⟩ | ⟨rest, h, e⟩
  · simp [h, e, RoomIn, hr]
  · simp [h, e, RoomIn, hr]
  · simp [h, e]
  · simp [h, e]

/-! ## What reads and the end of a block leave alone -/

/-- `ReadBit` leaves the window and the sink alone, and takes at most the head of the source. -/
theorem readBit_memory {s t : State} {b : Bool} (h : readBit s = .ok b t) :
    t.win = s.win ∧ t.snk = s.snk ∧ t.src <:+ s.src := by
  rcases readBit_ok h with ⟨-, -, rfl⟩ | ⟨-, c, rest, hs, -, -, rfl⟩
  · exact ⟨rfl, rfl, List.suffix_refl _⟩
  · exact ⟨rfl, rfl, hs ▸ List.suffix_cons _ rest⟩

/-- `SrcNext` leaves the window and the sink alone, and takes the head of the source. -/
theorem srcNext_memory {s t : State} {b : Byte} (h : srcNext s = .ok b t) :
    t.win = s.win ∧ t.snk = s.snk ∧ t.src <:+ s.src := by
  obtain ⟨hs, -, ht⟩ := srcNext_ok h
  refine ⟨?_, ?_, hs ▸ List.suffix_cons _ _⟩ <;> rw [ht]

/-- The end of a block leaves all three memories alone. -/
theorem endBlock_memory (s : State) :
    (endBlock s).win = s.win ∧ (endBlock s).snk = s.snk ∧ (endBlock s).src = s.src := by
  cases hf : isFinal s
  · rw [endBlock_of_not_final s hf]
    exact ⟨rfl, rfl, rfl⟩
  · rw [endBlock_of_final s hf]
    exact ⟨rfl, rfl, rfl⟩

/-! ## The window (20_memory.md R60, R76) -/

theorem WindowOk.of_win {s t : State} (h : WindowOk s) (e : t.win = s.win) : WindowOk t := by
  rw [WindowOk, e]
  exact h

theorem windowOk_of_empty {s : State} (h : s.win = []) : WindowOk s := by
  rw [WindowOk, h]
  decide

/-- An output byte goes to an index below 32768. -/
theorem putByte_windowOk (b : Byte) {s : State} (h : WindowOk s) : WindowOk (putByte b s) :=
  Memory.write_wf b h (Nat.mod_lt _ (by decide))

/-- Of the primitives of CORE only an output byte touches the window. -/
theorem window_primitives : Primitives (Kept WindowOk) (Kept WindowOk) :=
  Primitives.ofKept (fun _ _ h => h)
    (fun _ _ _ h e => h.of_win (readBit_memory e).1)
    (fun _ _ _ h e => h.of_win (srcNext_memory e).1)
    (fun b _ h => putByte_windowOk b h)
    (fun _ h => h)
    (fun _ _ w h => h.of_win w.win)
    (fun _ _ h => h)

/-- Settles O50: an output byte keeps the form, everything else in a step keeps the window or empties it. -/
theorem stepKeepsTheWindowForm : Obligations.StepKeepsTheWindowForm := by
  intro s t h e
  exact step_kept window_primitives (fun s h => h.of_win (endBlock_memory s).1) (fun _ _ h => h)
    (fun _ _ _ => windowOk_of_empty rfl) (fun _ _ _ h _ => h) h e

/-! ## The sink and the source from a fixed state on (20_memory.md R60, R64, R65, 10_state.md R30) -/

/-- Since `s` the sink has only grown and the source has only been read. -/
def FlowsFrom (s t : State) : Prop := s.snk <+: t.snk ∧ t.src <:+ s.src

theorem FlowsFrom.refl (s : State) : FlowsFrom s s := ⟨List.prefix_refl _, List.suffix_refl _⟩

theorem FlowsFrom.next {s t u : State} (h : FlowsFrom s t) (hk : u.snk = t.snk) (hc : u.src <:+ t.src) :
    FlowsFrom s u :=
  ⟨hk ▸ h.1, hc.trans h.2⟩

theorem FlowsFrom.putByte {s t : State} (b : Byte) (h : FlowsFrom s t) : FlowsFrom s (putByte b t) :=
  ⟨h.1.trans (List.prefix_append _ [b]), h.2⟩

/-- The primitives of CORE append to the sink and take from the head of the source. -/
theorem flows_primitives (s : State) : Primitives (Kept (FlowsFrom s)) (Kept (FlowsFrom s)) :=
  Primitives.ofKept (fun _ _ h => h)
    (fun _ _ _ h e => h.next (readBit_memory e).2.1 (readBit_memory e).2.2)
    (fun _ _ _ h e => h.next (srcNext_memory e).2.1 (srcNext_memory e).2.2)
    (fun b _ h => h.putByte b)
    (fun _ h => h)
    (fun _ _ w h => h.next w.snk (w.src ▸ List.suffix_refl _))
    (fun _ _ h => h)

/-- Settles O54: a step flows from the state it starts in; CORE's reset keeps the sink and the source, and the host
takes from the head of the source. -/
theorem sinkOnlyGrows : Obligations.SinkOnlyGrows := by
  intro s t e
  have h : FlowsFrom s t := step_kept (flows_primitives s)
    (fun u h => h.next (endBlock_memory u).2.1 ((endBlock_memory u).2.2 ▸ List.suffix_refl _))
    (fun _ _ h => h) (fun _ _ h => h)
    (fun _ _ rest h hs => h.next rfl (hs ▸ List.suffix_cons _ rest)) (FlowsFrom.refl s) e
  exact h

end Sys2Proof.Machine

/-! # The canonical code, the decoder and the encoder (30_encoding.md R104, 42_huffman.md R170 to R178) -/

namespace Sys2Proof

open Machine

/-! ## Fields and codes as bits -/

/-- A field splits at any bit (20_memory.md R67). -/
theorem numBits_add (m n v : Nat) : numBits (m + n) v = numBits m v ++ numBits n (v / 2 ^ m) := by
  induction m generalizing v with
  | zero => simp [numBits]
  | succ m ih => rw [Nat.succ_add, numBits, numBits, ih, Nat.div_div_eq_div_mul, ← pow_succ', List.cons_append]

/-- The first bit of a code is its most significant one (20_memory.md R68). -/
theorem codeBits_succ (m v : Nat) : codeBits (m + 1) v = (v / 2 ^ m % 2 == 1) :: codeBits m v := by
  rw [codeBits, numBits_add, List.reverse_append]
  rfl

/-- A field read from the bits ahead. -/
theorem takeNum_ok_iff {w x : Nat} {bits rest : List Bool} :
    takeNum w bits = .ok (x, rest) ↔ x < 2 ^ w ∧ bits = numBits w x ++ rest := by
  rw [takeNum]
  constructor
  · intro h
    split at h
    · cases h
    · cases h
      have hl : (bits.take w).length = w := by simp; omega
      have h1 := numOfBits_lt (bits.take w)
      have h2 := numBits_numOfBits (bits.take w)
      rw [hl] at h1 h2
      exact ⟨h1, by rw [h2, List.take_append_drop]⟩
  · rintro ⟨hx, rfl⟩
    rw [if_neg (by simp)]
    simp [numOfBits_numBits, Nat.mod_eq_of_lt hx]

/-! ## The canonical code (42_huffman.md R174) -/

/-- Of the symbols below a limit fewer have a given length than below a larger one, if one between has it. -/
theorem count_take_lt {lens : List Nat} {m n L : Nat} (h : lens[m]? = some L) (hm : m < n) :
    (lens.take m).count L < (lens.take n).count L := by
  have h1 : (lens.take (m + 1)).count L = (lens.take m).count L + 1 := by
    rw [List.take_add_one, h, List.count_append]
    simp
  have h2 : (lens.take (m + 1)).count L ≤ (lens.take n).count L :=
    (List.take_prefix_take_left hm).sublist.count_le L
  omega

variable {lens : List Nat} {T : List CodeEntry}

/-- The codes of one length begin at `first` and are as many as there are symbols of that length. -/
theorem entry_code_bounds (h : huffBuild lens = some T) {e : CodeEntry} (he : e ∈ T) :
    firstCode lens e.len ≤ e.code ∧ e.code < firstCode lens e.len + lenCount lens e.len := by
  obtain ⟨hl, h0, hc⟩ := (mem_huffBuild h).1 he
  have := count_take_lt hl (List.getElem?_eq_some_iff.1 hl).1
  rw [List.take_length] at this
  rw [lenCount, if_neg h0]
  omega

theorem entry_len_bounds (h : huffBuild lens = some T) {e : CodeEntry} (he : e ∈ T) : 1 ≤ e.len ∧ e.len ≤ 15 := by
  obtain ⟨hl, h0, -⟩ := (mem_huffBuild h).1 he
  exact ⟨by omega, (huffBuild_some h).1 _ (List.mem_of_getElem? hl)⟩

theorem entry_code_lt (h : huffBuild lens = some T) {e : CodeEntry} (he : e ∈ T) : e.code < 2 ^ e.len := by
  obtain ⟨h1, h15⟩ := entry_len_bounds h he
  have := code_fits (huffBuild_some h).2.1 h1 h15
  have := (entry_code_bounds h he).2
  omega

/-- A symbol has one code. -/
theorem entry_eq_of_sym (h : huffBuild lens = some T) {e f : CodeEntry} (he : e ∈ T) (hf : f ∈ T)
    (hs : e.sym = f.sym) : e = f := by
  obtain ⟨hl, -, hc⟩ := (mem_huffBuild h).1 he
  obtain ⟨hl', -, hc'⟩ := (mem_huffBuild h).1 hf
  have e1 : e.len = f.len := by
    rw [hs, hl'] at hl
    exact (Option.some.inj hl).symm
  rw [hs, e1, ← hc'] at hc
  cases e
  cases f
  simp_all

/-- Among the codes of one length the values increase with the symbol. -/
theorem entry_code_lt_of_sym_lt (h : huffBuild lens = some T) {e f : CodeEntry} (he : e ∈ T) (hf : f ∈ T)
    (hl : e.len = f.len) (hs : e.sym < f.sym) : e.code < f.code := by
  obtain ⟨he1, -, hc⟩ := (mem_huffBuild h).1 he
  obtain ⟨-, -, hc'⟩ := (mem_huffBuild h).1 hf
  have := count_take_lt he1 hs
  rw [hl] at this hc
  omega

/-- A code has one symbol. -/
theorem entry_sym_of_code (h : huffBuild lens = some T) {e f : CodeEntry} (he : e ∈ T) (hf : f ∈ T)
    (hl : e.len = f.len) (hc : e.code = f.code) : e.sym = f.sym := by
  rcases Nat.lt_trichotomy e.sym f.sym with hs | hs | hs
  · have := entry_code_lt_of_sym_lt h he hf hl hs
    omega
  · exact hs
  · have := entry_code_lt_of_sym_lt h hf he hl.symm hs
    omega

/-- The codes of a length begin behind all extensions of the shorter ones. -/
theorem firstCode_extend (lens : List Nat) (L m : Nat) :
    (firstCode lens L + lenCount lens L) * 2 ^ (m + 1) ≤ firstCode lens (L + (m + 1)) := by
  induction m with
  | zero => rw [zero_add, firstCode_succ, pow_one, mul_comm]
  | succ m ih =>
    rw [← Nat.add_assoc, firstCode_succ, pow_succ, ← mul_assoc]
    omega

/-- A longer code cut to the length of a shorter one is a larger number than it: no code begins another. -/
theorem entry_code_lt_cut (h : huffBuild lens = some T) {e f : CodeEntry} (he : e ∈ T) (hf : f ∈ T) {m : Nat}
    (hl : e.len + (m + 1) = f.len) : e.code < f.code / 2 ^ (m + 1) := by
  have h1 := (entry_code_bounds h he).2
  have h2 := (entry_code_bounds h hf).1
  have h3 := firstCode_extend lens e.len m
  rw [hl] at h3
  exact lt_of_lt_of_le h1 ((Nat.le_div_iff_mul_le (Nat.two_pow_pos _)).2 (h3.trans h2))

/-! ## Lookup -/

theorem lookupCode_entry (h : huffBuild lens = some T) {e : CodeEntry} (he : e ∈ T) :
    lookupCode T e.len e.code = some e.sym := by
  cases hl : lookupCode T e.len e.code with
  | none => simpa using List.find?_eq_none.1 (Option.map_eq_none_iff.1 hl) e he
  | some n => exact congrArg some (entry_sym_of_code h (lookupCode_some hl) he rfl rfl)

/-- What a code begins with is no code. -/
theorem lookupCode_cut (h : huffBuild lens = some T) {e : CodeEntry} (he : e ∈ T) {len m : Nat}
    (hl : len + (m + 1) = e.len) : lookupCode T len (e.code / 2 ^ (m + 1)) = none := by
  cases hc : lookupCode T len (e.code / 2 ^ (m + 1)) with
  | none => rfl
  | some n => exact absurd (entry_code_lt_cut h (lookupCode_some hc) he hl) (lt_irrefl _)

theorem symbolBits_entry (h : huffBuild lens = some T) {e : CodeEntry} (he : e ∈ T) :
    symbolBits lens e.sym = some (codeBits e.len e.code) := by
  simp only [symbolBits, h]
  cases hf : T.find? fun f => f.sym == e.sym with
  | none => simpa using List.find?_eq_none.1 hf e he
  | some f =>
    have hs : f.sym = e.sym := by simpa using List.find?_some hf
    rw [entry_eq_of_sym h (List.mem_of_find?_eq_some hf) he hs]
    rfl

theorem symbolBits_some {n : Nat} {word : List Bool} (h : symbolBits lens n = some word) :
    ∃ T e, huffBuild lens = some T ∧ e ∈ T ∧ e.sym = n ∧ word = codeBits e.len e.code := by
  rw [symbolBits] at h
  split at h
  · cases h
  · rename_i T hT
    obtain ⟨e, he, rfl⟩ := Option.map_eq_some_iff.1 h
    exact ⟨T, e, hT, List.mem_of_find?_eq_some he, by simpa using List.find?_some he, rfl⟩

/-! ## One symbol -/

/-- The next bit of a code, appended to the bits before it, gives one bit more of the code. -/
theorem cut_append_bit (m v : Nat) : 2 * (v / 2 ^ (m + 1)) + (v / 2 ^ m % 2 == 1).toNat = v / 2 ^ m := by
  rw [pow_succ, ← Nat.div_div_eq_div_mul]
  rcases Nat.mod_two_eq_zero_or_one (v / 2 ^ m) with h | h <;> rw [h] <;> simp <;> omega

/-- With all but the last `m + 1` bits of a code read, these lead to its symbol (42_huffman.md R175). -/
theorem matchCode_codeBits (h : huffBuild lens = some T) {e : CodeEntry} (he : e ∈ T) (rest : List Bool)
    {m k len : Nat} (hl : len + (m + 1) = e.len) (hk : m < k) :
    matchCode T k len (e.code / 2 ^ (m + 1)) (codeBits (m + 1) e.code ++ rest) = .ok (e.sym, rest) := by
  induction k generalizing m len with
  | zero => omega
  | succ k ih =>
    rw [codeBits_succ, List.cons_append, matchCode, cut_append_bit]
    cases m with
    | zero =>
      rw [pow_zero, Nat.div_one, hl, lookupCode_entry h he]
      rfl
    | succ m =>
      rw [lookupCode_cut h he (by omega)]
      exact ih (by omega) (by omega)

/-- What a match has read is the rest of a code of the table (R175). -/
theorem matchCode_ok {k len acc n : Nat} {bits rest : List Bool} (h : matchCode T k len acc bits = .ok (n, rest)) :
    ∃ m code, m < k ∧ lookupCode T (len + (m + 1)) code = some n ∧ code / 2 ^ (m + 1) = acc ∧
      bits = codeBits (m + 1) code ++ rest := by
  induction k generalizing len acc bits with
  | zero => cases h
  | succ k ih =>
    cases bits with
    | nil => cases h
    | cons b bits =>
      have hd : (2 * acc + b.toNat) / 2 = acc := by
        have := b.toNat_le
        omega
      have hb : ((2 * acc + b.toNat) % 2 == 1) = b := by cases b <;> simp [Nat.add_mod]
      rw [matchCode] at h
      split at h
      · rename_i s hs
        cases h
        refine ⟨0, 2 * acc + b.toNat, by omega, hs, by simpa using hd, ?_⟩
        rw [codeBits_succ, pow_zero, Nat.div_one, hb]
        rfl
      · obtain ⟨m, code, hm, hs, hc, rfl⟩ := ih h
        refine ⟨m + 1, code, by omega, by rwa [show len + (m + 1 + 1) = len + 1 + (m + 1) by omega], ?_, ?_⟩
        · rw [pow_succ, ← Nat.div_div_eq_div_mul, hc, hd]
        · rw [codeBits_succ (m + 1), hc, hb, List.cons_append]

/-- The decoder reads a symbol exactly where the bits begin with the symbol's code (R174, R175). -/
theorem decodeSymbol_ok_iff {n : Nat} {bits rest : List Bool} :
    decodeSymbol lens bits = .ok (n, rest) ↔ ∃ word, symbolBits lens n = some word ∧ bits = word ++ rest := by
  constructor
  · intro h
    rw [decodeSymbol] at h
    split at h
    · cases h
    · rename_i T hT
      obtain ⟨m, code, -, hs, -, rfl⟩ := matchCode_ok h
      rw [Nat.zero_add] at hs
      exact ⟨_, symbolBits_entry hT (lookupCode_some hs), rfl⟩
  · rintro ⟨word, hw, rfl⟩
    obtain ⟨T, e, hT, he, rfl, rfl⟩ := symbolBits_some hw
    obtain ⟨h1, h15⟩ := entry_len_bounds hT he
    have := matchCode_codeBits hT he rest (m := e.len - 1) (k := 15) (len := 0) (by omega) (by omega)
    rw [Nat.sub_add_cancel h1, Nat.div_eq_of_lt (entry_code_lt hT he)] at this
    simp only [decodeSymbol, hT]
    exact this

/-! ## Selection (30_encoding.md R104, R105) -/

/-- A number that selects an element is below the size of its alphabet. -/
theorem lt_alphabetSize_of_instrOf {a : Alphabet} {n x : Nat} {i : Instr} (h : instrOf a n x = some i) :
    n < alphabetSize a := by
  cases a with
  | header =>
    simp only [instrOf] at h
    simp only [alphabetSize]
    split_ifs at h <;> omega
  | treeCode =>
    simp only [instrOf] at h
    simp only [alphabetSize]
    split_ifs at h <;> omega
  | litLen =>
    simp only [instrOf] at h
    simp only [alphabetSize]
    split_ifs at h <;> omega
  | dist =>
    obtain ⟨g, hg, -⟩ := Option.map_eq_some_iff.1 h
    exact (List.getElem?_eq_some_iff.1 hg).1

/-- The length elements are listed by their numbers, from 257 on (30_encoding.md R97). -/
theorem fieldsOf_lengthInstrs : ∀ p ∈ lengthInstrs.zipIdx 257, ∀ x < 2 ^ lExtra p.2,
    fieldsOf (p.1 x) = (.litLen, p.2, x) := by
  simp +contextual [lengthInstrs, fieldsOf, lExtra, lExtraTable, Nat.mod_eq_of_lt]

/-- The distance elements are listed by their numbers (R98). -/
theorem fieldsOf_distInstrs : ∀ p ∈ distInstrs.zipIdx, ∀ x < 2 ^ dExtra p.2,
    fieldsOf (p.1 x) = (.dist, p.2, x) := by
  simp +contextual [distInstrs, fieldsOf, dExtra, dExtraTable, Nat.mod_eq_of_lt]

/-- The fields of an element select it, and its extra field fits its width. -/
theorem selection (i : Instr) : Laws.Selection.Statement i := by
  open Laws.Selection in
  cases i with
  | blkStored f => exact blkStored f
  | blkFixed f => exact blkFixed f
  | blkDynamic f => exact blkDynamic f
  | blkRsvd f => exact blkRsvd f
  | clen n => exact clen n
  | crep16 x => exact crep16 x
  | czero17 x => exact czero17 x
  | czero18 x => exact czero18 x
  | lit b => exact lit b
  | eob => exact eob
  | len257 => exact len257
  | len258 => exact len258
  | len259 => exact len259
  | len260 => exact len260
  | len261 => exact len261
  | len262 => exact len262
  | len263 => exact len263
  | len264 => exact len264
  | len265 x => exact len265 x
  | len266 x => exact len266 x
  | len267 x => exact len267 x
  | len268 x => exact len268 x
  | len269 x => exact len269 x
  | len270 x => exact len270 x
  | len271 x => exact len271 x
  | len272 x => exact len272 x
  | len273 x => exact len273 x
  | len274 x => exact len274 x
  | len275 x => exact len275 x
  | len276 x => exact len276 x
  | len277 x => exact len277 x
  | len278 x => exact len278 x
  | len279 x => exact len279 x
  | len280 x => exact len280 x
  | len281 x => exact len281 x
  | len282 x => exact len282 x
  | len283 x => exact len283 x
  | len284 x => exact len284 x
  | len285 => exact len285
  | ll286 => exact ll286
  | ll287 => exact ll287
  | dist0 => exact dist0
  | dist1 => exact dist1
  | dist2 => exact dist2
  | dist3 => exact dist3
  | dist4 y => exact dist4 y
  | dist5 y => exact dist5 y
  | dist6 y => exact dist6 y
  | dist7 y => exact dist7 y
  | dist8 y => exact dist8 y
  | dist9 y => exact dist9 y
  | dist10 y => exact dist10 y
  | dist11 y => exact dist11 y
  | dist12 y => exact dist12 y
  | dist13 y => exact dist13 y
  | dist14 y => exact dist14 y
  | dist15 y => exact dist15 y
  | dist16 y => exact dist16 y
  | dist17 y => exact dist17 y
  | dist18 y => exact dist18 y
  | dist19 y => exact dist19 y
  | dist20 y => exact dist20 y
  | dist21 y => exact dist21 y
  | dist22 y => exact dist22 y
  | dist23 y => exact dist23 y
  | dist24 y => exact dist24 y
  | dist25 y => exact dist25 y
  | dist26 y => exact dist26 y
  | dist27 y => exact dist27 y
  | dist28 y => exact dist28 y
  | dist29 y => exact dist29 y
  | dist30 => exact dist30
  | dist31 => exact dist31

/-- The number of a block header is BFINAL in bit 0 and BTYPE above it (R91). -/
theorem bfinal_add_btype {h k : Nat} (hk : h / 2 = k) : (BitVec.ofNat 1 h).toNat + 2 * k = h := by
  rw [BitVec.toNat_ofNat]
  omega

/-- Alphabet, number and extra field of the element a number selects are those it was selected by. -/
theorem fieldsOf_of_instrOf {a : Alphabet} {n x : Nat} {i : Instr} (h : instrOf a n x = some i)
    (hx : x < 2 ^ extraWidth a n) : fieldsOf i = (a, n, x) := by
  cases a with
  | header =>
    obtain rfl : x = 0 := by simpa [extraWidth] using hx
    simp only [instrOf] at h
    split_ifs at h <;> cases h
    · exact congrArg (Alphabet.header, ·, 0) (bfinal_add_btype (k := 0) ‹_›)
    · exact congrArg (Alphabet.header, ·, 0) (bfinal_add_btype (k := 1) ‹_›)
    · exact congrArg (Alphabet.header, ·, 0) (bfinal_add_btype (k := 2) ‹_›)
    · exact congrArg (Alphabet.header, ·, 0) (bfinal_add_btype (k := 3) ‹_›)
  | treeCode =>
    simp only [instrOf] at h
    simp only [extraWidth, clExtra] at hx
    split_ifs at h <;> cases h
    · have : ¬ n = 16 ∧ ¬ n = 17 ∧ ¬ n = 18 := by omega
      obtain rfl : x = 0 := by simpa [this] using hx
      simp [fieldsOf, *]
    · subst_vars
      simpa [fieldsOf] using hx
    · subst_vars
      simpa [fieldsOf] using hx
    · subst_vars
      simpa [fieldsOf] using hx
  | litLen =>
    simp only [instrOf] at h
    simp only [extraWidth] at hx
    split_ifs at h
    · cases h
      obtain rfl : x = 0 := by simpa [lExtra, show n < 257 by omega] using hx
      simp [fieldsOf, *]
    · cases h
      subst_vars
      obtain rfl : x = 0 := by simpa [lExtra] using hx
      rfl
    · obtain ⟨g, hg, rfl⟩ := Option.map_eq_some_iff.1 h
      exact fieldsOf_lengthInstrs (g, n) (List.mem_zipIdx_iff_le_and_getElem?_sub.2 ⟨by omega, hg⟩) x hx
    · cases h
      subst_vars
      obtain rfl : x = 0 := by simpa [lExtra, lExtraTable] using hx
      rfl
    · cases h
      subst_vars
      obtain rfl : x = 0 := by simpa [lExtra, lExtraTable] using hx
      rfl
  | dist =>
    obtain ⟨g, hg, rfl⟩ := Option.map_eq_some_iff.1 h
    exact fieldsOf_distInstrs (g, n) (List.mem_zipIdx_iff_getElem?.2 hg) x hx

/-- Selection by alphabet, number and extra field, and the fields of an element, are inverse to each other. -/
theorem instrOf_some_iff {a : Alphabet} {n x : Nat} {i : Instr} :
    instrOf a n x = some i ∧ x < 2 ^ extraWidth a n ↔ alphabetOf i = a ∧ numberOf i = n ∧ extraOf i = x := by
  constructor
  · rintro ⟨h, hx⟩
    have := fieldsOf_of_instrOf h hx
    simp [alphabetOf, numberOf, extraOf, this]
  · rintro ⟨rfl, rfl, rfl⟩
    exact selection i

theorem numberOf_lt (i : Instr) : numberOf i < alphabetSize (alphabetOf i) :=
  lt_alphabetSize_of_instrOf (selection i).1

/-! ## The decoder against the encoder -/

theorem decodeExtra_ok_iff {a : Alphabet} {n : Nat} {i : Instr} {bits rest : List Bool} :
    decodeExtra a n bits = .ok (i, rest) ↔ alphabetOf i = a ∧ numberOf i = n ∧ bits = extraBits i ++ rest := by
  rw [decodeExtra]
  constructor
  · intro h
    split at h
    · cases h
    · rename_i x rest' hx
      obtain ⟨hlt, rfl⟩ := takeNum_ok_iff.1 hx
      split at h
      · rename_i j hj
        cases h
        obtain ⟨rfl, rfl, rfl⟩ := instrOf_some_iff.1 ⟨hj, hlt⟩
        exact ⟨rfl, rfl, rfl⟩
      · cases h
  · rintro ⟨rfl, rfl, rfl⟩
    obtain ⟨hi, hx⟩ := selection i
    have ht : takeNum (extraWidth (alphabetOf i) (numberOf i)) (extraBits i ++ rest) = .ok (extraOf i, rest) :=
      takeNum_ok_iff.2 ⟨hx, rfl⟩
    simp only [ht, hi]

theorem decodeCoded_ok_iff {a : Alphabet} {lens : List Nat} {i : Instr} {bits rest : List Bool} :
    decodeCoded a lens bits = .ok (i, rest) ↔
      alphabetOf i = a ∧ ∃ code, symbolBits lens (numberOf i) = some code ∧ bits = code ++ (extraBits i ++ rest) := by
  rw [decodeCoded]
  constructor
  · intro h
    split at h
    · cases h
    · rename_i n rest' hn
      obtain ⟨code, hc, rfl⟩ := decodeSymbol_ok_iff.1 hn
      obtain ⟨rfl, rfl, rfl⟩ := decodeExtra_ok_iff.1 h
      exact ⟨rfl, code, hc, rfl⟩
  · rintro ⟨rfl, code, hc, rfl⟩
    rw [decodeSymbol_ok_iff.2 ⟨code, hc, rfl⟩]
    exact decodeExtra_ok_iff.2 ⟨rfl, rfl, rfl⟩

/-- A block header has no extra field. -/
theorem extraBits_header {i : Instr} (h : alphabetOf i = .header) : extraBits i = [] := by
  rw [extraBits, h]
  rfl

/-- A block header is its three bits (30_encoding.md R91). -/
theorem decode_header_ok_iff {i : Instr} {bits rest : List Bool} :
    decode .header bits = .ok (i, rest) ↔ alphabetOf i = .header ∧ bits = numBits 3 (numberOf i) ++ rest := by
  rw [decode]
  constructor
  · intro h
    split at h
    · cases h
    · rename_i n rest' hn
      obtain ⟨-, rfl⟩ := takeNum_ok_iff.1 hn
      obtain ⟨ha, rfl, rfl⟩ := decodeExtra_ok_iff.1 h
      exact ⟨ha, by rw [extraBits_header ha]; rfl⟩
  · rintro ⟨ha, rfl⟩
    have hn := numberOf_lt i
    rw [ha] at hn
    rw [takeNum_ok_iff.2 ⟨hn, rfl⟩]
    exact decodeExtra_ok_iff.2 ⟨ha, rfl, by rw [extraBits_header ha]; rfl⟩

theorem encode_header_iff {i : Instr} {word : List Bool} :
    encode .header i = some word ↔ alphabetOf i = .header ∧ word = numBits 3 (numberOf i) := by
  by_cases ha : alphabetOf i = .header
  · simp [encode, Context.alphabet, ha, eq_comm (a := word)]
  · simp [encode, Context.alphabet, ha]

/-- The encoder's bits of a coded element are its code and its extra field (R95, R96). -/
theorem encode_coded_iff {c : Context} (hc : c ≠ .header) {i : Instr} {word : List Bool} :
    encode c i = some word ↔ alphabetOf i = c.alphabet ∧
      ∃ code, symbolBits c.lens (numberOf i) = some code ∧ word = code ++ extraBits i := by
  by_cases ha : alphabetOf i = c.alphabet
  · cases c with
    | header => exact absurd rfl hc
    | treeCode lens | litLen lens | dist lens => simp [encode, ha, Context.lens, eq_comm (a := word)]
  · simp [encode, ha]

/-- In a context with a table the decoder reads a code and an extra field (R95, R96). -/
theorem decode_coded {c : Context} (hc : c ≠ .header) (bits : List Bool) :
    decode c bits = decodeCoded c.alphabet c.lens bits := by
  cases c with
  | header => exact absurd rfl hc
  | treeCode lens | litLen lens | dist lens => rfl

/-- The decoder reads an element exactly where the bits begin with the encoder's bits of it. -/
theorem decode_ok_iff {c : Context} {i : Instr} {bits rest : List Bool} :
    decode c bits = .ok (i, rest) ↔ ∃ word, encode c i = some word ∧ bits = word ++ rest := by
  by_cases hc : c = .header
  · subst hc
    simp [decode_header_ok_iff, encode_header_iff]
  · rw [decode_coded hc, decodeCoded_ok_iff]
    simp only [encode_coded_iff hc]
    constructor
    · rintro ⟨ha, code, h, rfl⟩
      exact ⟨_, ⟨ha, code, h, rfl⟩, (List.append_assoc ..).symm⟩
    · rintro ⟨_, ⟨ha, code, h, rfl⟩, rfl⟩
      exact ⟨ha, code, h, List.append_assoc ..⟩

/-- A symbol with a code satisfies the checks of well-formedness. -/
theorem wellFormed_of_symbolBits {c : Context} {i : Instr} (ha : alphabetOf i = c.alphabet) {word : List Bool}
    (h : symbolBits c.lens (numberOf i) = some word) : WellFormed c i = true := by
  obtain ⟨T, e, hT, he, hs, -⟩ := symbolBits_some h
  obtain ⟨hl, h0, -⟩ := (mem_huffBuild hT).1 he
  obtain ⟨h15, hb, -⟩ := huffBuild_some hT
  rw [hs] at hl
  have hn := (List.getElem?_eq_some_iff.1 hl).1
  have h16 : c.lens.any (fun L => decide (Config.maxBits < L)) = false :=
    List.any_eq_false.2 fun L hL h => absurd (of_decide_eq_true h) (Nat.not_lt.2 (h15 L hL))
  rw [WellFormed, h16, hb, List.getD_eq_getElem?_getD, hl]
  simp [ha, hn, h0]

/-- What the encoder answers bits for is well-formed. -/
theorem wellFormed_of_encode {c : Context} {i : Instr} {word : List Bool} (h : encode c i = some word) :
    WellFormed c i = true := by
  by_cases hc : c = .header
  · subst hc
    simp [WellFormed, (encode_header_iff.1 h).1, Context.alphabet]
  · obtain ⟨ha, code, hs, -⟩ := (encode_coded_iff hc).1 h
    exact wellFormed_of_symbolBits ha hs

/-- Settles O6: one half of `decode_ok_iff`. -/
theorem decodeOfEncode : Obligations.DecodeOfEncode := by
  intro c i word rest h
  exact decode_ok_iff.2 ⟨word, h, rfl⟩

/-- Settles O7: the other half; an element with a code is well-formed. -/
theorem encodeOfDecode : Obligations.EncodeOfDecode := by
  intro c bits i rest h
  obtain ⟨word, hw, e⟩ := decode_ok_iff.1 h
  exact ⟨wellFormed_of_encode hw, word, hw, e⟩

/-! ## The fixed codes (30_encoding.md R99, R100) -/

/-- In a run of symbols `p`, `p + 1`, ... of one length, the codes count up from that of `p` (42_huffman.md R170). -/
theorem symbolBits_of_run {lens pre post : List Nat} {L k p c n : Nat} (hb : (huffBuild lens).isSome = true)
    (hl : lens = pre ++ (List.replicate k L ++ post)) (hp : pre.length = p) (h0 : L ≠ 0)
    (hc : firstCode lens L + pre.count L = c) (hn : p ≤ n) (hk : n < p + k) :
    symbolBits lens n = some (codeBits L (c + (n - p))) := by
  obtain ⟨T, hT⟩ := Option.isSome_iff_exists.1 hb
  obtain ⟨j, rfl⟩ := Nat.exists_eq_add_of_le hn
  have hj : j < k := by omega
  have hlen : lens[p + j]? = some L := by
    rw [hl, ← hp, List.getElem?_append_right (by omega)]
    simp [List.getElem?_append_left, hj]
  have hcount : (lens.take (p + j)).count L = pre.count L + j := by
    rw [hl, ← hp, List.take_length_add_append, List.count_append, List.take_append_of_le_length (by simpa using hj.le)]
    simp [Nat.min_eq_left hj.le]
  have he : (⟨L, c + j, p + j⟩ : CodeEntry) ∈ T :=
    (mem_huffBuild hT).2 ⟨hlen, h0, by rw [hcount, ← hc, Nat.add_assoc]⟩
  rw [Nat.add_sub_cancel_left]
  exact symbolBits_entry hT he

/-- The four runs of R99. -/
theorem symbolBits_fixedLLLens {n : Nat} (h : n < 288) : symbolBits fixedLLLens n = some (fixedLLCode n) := by
  have hb : (huffBuild fixedLLLens).isSome = true := by decide +kernel
  rw [fixedLLCode]
  split_ifs
  · exact symbolBits_of_run (pre := []) (L := 8) (k := 144) (p := 0) (c := 0x30)
      (post := List.replicate 112 9 ++ List.replicate 24 7 ++ List.replicate 8 8)
      hb (by decide +kernel) rfl (by decide) (by decide +kernel) (by omega) (by omega)
  · exact symbolBits_of_run (pre := List.replicate 144 8) (L := 9) (k := 112) (p := 144) (c := 0x190)
      (post := List.replicate 24 7 ++ List.replicate 8 8)
      hb (by decide +kernel) (by decide +kernel) (by decide) (by decide +kernel) (by omega) (by omega)
  · rw [← Nat.zero_add (n - 256)]
    exact symbolBits_of_run (pre := List.replicate 144 8 ++ List.replicate 112 9) (L := 7) (k := 24) (p := 256) (c := 0)
      (post := List.replicate 8 8)
      hb (by decide +kernel) (by decide +kernel) (by decide) (by decide +kernel) (by omega) (by omega)
  · exact symbolBits_of_run (pre := List.replicate 144 8 ++ List.replicate 112 9 ++ List.replicate 24 7) (L := 8)
      (k := 8) (p := 280) (c := 0xC0) (post := [])
      hb (by decide +kernel) (by decide +kernel) (by decide) (by decide +kernel) (by omega) (by omega)

/-- Settles O5: by the runs of equal lengths in R99 and R100. -/
theorem fixedCodesAreTheTables : Obligations.FixedCodesAreTheTables := by
  refine ⟨fun n => symbolBits_fixedLLLens, fun d hd => ?_⟩
  have h := symbolBits_of_run (lens := fixedDLens) (pre := []) (post := []) (k := 30) (p := 0) (c := 0) (n := d)
    (by decide +kernel) rfl rfl (by decide) (by decide) (by omega) (by omega)
  rwa [Nat.zero_add, Nat.sub_zero] at h

/-- Settles O4: the decoder evaluated on each word. -/
theorem specWordsDecode : Obligations.SpecWordsDecode := by
  unfold Obligations.SpecWordsDecode
  decide +kernel

end Sys2Proof

/-! # A step runs the element the decoder reads (30_encoding.md R104, 43_blocks.md R190 to R205, 44_symbols.md R230) -/

namespace Sys2Proof.Machine

/-! ## The state after some bits have been read -/

/-- `t` is a state after `n` bits of those ahead of `s` have been read: `rest` is ahead of it, the bit reader is
consistent, the cursor has moved by `n` (10_state.md R30), and IPOS has counted each source byte taken (R31). -/
structure AfterBits (s : State) (n : Nat) (rest : List Bool) (t : State) : Prop where
  ahead : bitsAhead t = rest
  ok : BitReaderOk t
  cursor : 8 * t.ipos + s.bc.toNat = 8 * s.ipos + n + t.bc.toNat
  source : t.ipos + t.src.length = s.ipos + s.src.length

theorem AfterBits.refl {s : State} (h : BitReaderOk s) : AfterBits s 0 (bitsAhead s) s := ⟨rfl, h, rfl, rfl⟩

theorem AfterBits.trans {s t u : State} {m n : Nat} {mid rest : List Bool} (h1 : AfterBits s m mid t)
    (h2 : AfterBits t n rest u) : AfterBits s (m + n) rest u where
  ahead := h2.ahead
  ok := h2.ok
  cursor := by have := h1.cursor; have := h2.cursor; omega
  source := h2.source.trans h1.source

/-- A register write that leaves the bit reader, IPOS and the source alone leaves the bits ahead alone. -/
theorem AfterBits.write {s t : State} {n : Nat} {rest : List Bool} (h : AfterBits s n rest t) (u : State)
    (e : u.bb = t.bb ∧ u.bc = t.bc ∧ u.ipos = t.ipos ∧ u.src = t.src) : AfterBits s n rest u := by
  obtain ⟨hb, hc, hi, hl⟩ := e
  obtain ⟨h1, h2, h3, h4⟩ := h
  constructor
  · rw [bitsAhead, hb, hc, hl]
    exact h1
  · rw [BitReaderOk, hb, hc]
    exact h2
  · rw [hi, hc]
    exact h3
  · rw [hi, hl]
    exact h4

/-- IPOS has room for the source bytes of the next `n` bits (10_state.md R31). -/
def RoomForBits (s : State) (n : Nat) : Prop := 8 * s.ipos + n + 15 ≤ 8 * Config.countLimit + s.bc.toNat

theorem RoomIn.forBits {s : State} {k n : Nat} (h : RoomIn s k) (hn : n + 7 ≤ 8 * k) : RoomForBits s n := by
  simp only [RoomIn, RoomForBits, Config.countLimit] at *
  omega

theorem RoomForBits.mono {s : State} {m n : Nat} (h : RoomForBits s n) (hm : m ≤ n) : RoomForBits s m := by
  simp only [RoomForBits] at *
  omega

theorem RoomForBits.after {s t : State} {m n : Nat} {rest : List Bool} (h : RoomForBits s (m + n))
    (ht : AfterBits s m rest t) : RoomForBits t n := by
  have := ht.cursor
  simp only [RoomForBits] at *
  omega

/-! ## Bits and fields -/

theorem readBit_after {s : State} {b : Bool} {rest : List Bool} (hs : BitReaderOk s) (hr : RoomForBits s 1)
    (h : bitsAhead s = b :: rest) : ∃ t, readBit s = .ok b t ∧ AfterBits s 1 rest t := by
  have hroom : RoomIn s 1 := by
    have := hs.1
    simp only [RoomForBits, RoomIn, Config.countLimit] at *
    omega
  obtain ⟨t, e, ha, ho, -, hc, -, hl⟩ := readBit_of_bits hs hroom h
  exact ⟨t, e, ha, ho, hc, hl⟩

theorem readBitsFrom_after {s : State} {word rest : List Bool} {i v : Nat} (hs : BitReaderOk s)
    (hr : RoomForBits s word.length) (hv : v < 2 ^ i) (h : bitsAhead s = word ++ rest) :
    ∃ t, readBitsFrom word.length i v s = .ok (2 ^ i * numOfBits word + v) t ∧ AfterBits s word.length rest t := by
  induction word generalizing s i v with
  | nil =>
    rw [List.nil_append] at h
    exact ⟨s, by simp [readBitsFrom, numOfBits], h ▸ .refl hs⟩
  | cons b word ih =>
    rw [List.length_cons, Nat.add_comm] at hr ⊢
    obtain ⟨t, e, ht⟩ := readBit_after hs (hr.mono (Nat.le_add_right ..)) h
    have hor : v ||| (b.toNat <<< i) = 2 ^ i * b.toNat + v := by
      rw [Nat.or_comm, Nat.shiftLeft_eq, mul_comm, Nat.two_pow_add_eq_or_of_lt hv]
    have hlt : 2 ^ i * b.toNat + v < 2 ^ (i + 1) := by
      rw [pow_succ]
      have := Nat.mul_le_mul_left (2 ^ i) b.toNat_le
      omega
    obtain ⟨u, e', hu⟩ := ih ht.ok (hr.after ht) hlt ht.ahead
    refine ⟨u, ?_, ht.trans hu⟩
    rw [Nat.add_comm 1, readBitsFrom, bind_of_ok e, hor, e', numOfBits, pow_succ]
    congr 1
    ring

/-- `ReadBits` reads the field the bits ahead begin with (40_bitreader.md R131, 20_memory.md R67). -/
theorem readBits_after {s : State} {n x : Nat} {rest : List Bool} (hs : BitReaderOk s) (hr : RoomForBits s n)
    (hn : n ≤ 32) (h : takeNum n (bitsAhead s) = .ok (x, rest)) :
    ∃ t, readBits n s = .ok x t ∧ AfterBits s n rest t ∧ InputOnly s t := by
  obtain ⟨hx, e⟩ := takeNum_ok_iff.1 h
  obtain ⟨t, e', ht⟩ := readBitsFrom_after (word := numBits n x) (i := 0) (v := 0) hs (by simpa using hr) (by simp) e
  rw [length_numBits, numOfBits_numBits, Nat.mod_eq_of_lt hx, pow_zero, one_mul, Nat.add_zero,
    ← readBits_of_le hn] at e'
  rw [length_numBits] at ht
  exact ⟨t, e', ht, (readBits_frame n s).1 x t e'⟩

/-- The element `n` of an alphabet is fetched as the decoder reads it (30_encoding.md R102 to R104). -/
theorem fetchElement_after {s : State} {a : Alphabet} {n : Nat} {i : Instr} {rest : List Bool} (hs : BitReaderOk s)
    (hr : RoomForBits s 32) (h : decodeExtra a n (bitsAhead s) = .ok (i, rest)) :
    ∃ t m, fetchElement a n s = .ok i t ∧ AfterBits s m rest t ∧ InputOnly s t := by
  obtain ⟨rfl, rfl, hb⟩ := decodeExtra_ok_iff.1 h
  obtain ⟨hi, hx⟩ := selection i
  have hw := extraWidth_le (numberOf_lt i)
  obtain ⟨t, e, ht, hf⟩ := readBits_after hs (hr.mono hw) hw (takeNum_ok_iff.2 ⟨hx, hb⟩)
  refine ⟨t, _, ?_, ht, hf⟩
  rw [fetchElement, bind_of_ok e, hi]

/-! ## Codes -/

/-- `t` is `s` but for what the decode of a code writes: the bit reader, the source, ACC and ACCN. -/
def CodeOnly (s t : State) : Prop :=
  t = { s with bb := t.bb, bc := t.bc, ipos := t.ipos, src := t.src, acc := t.acc, accn := t.accn }

theorem codeOnly_closed : Closed CodeOnly fun _ _ => True :=
  ⟨fun _ => rfl, fun _ _ _ h1 h2 => by rw [CodeOnly] at *; rw [h2, h1], fun _ _ _ _ _ => trivial,
    fun _ _ _ => trivial⟩

theorem huffDecode_codeOnly {lens : List Nat} {n : Nat} {s t : State} (h : huffDecode lens s = .ok n t) :
    CodeOnly s t := by
  have bit : Relates CodeOnly (fun _ _ => True) readBit := fun s =>
    ⟨fun b t h => by rcases readBit_ok h with ⟨-, -, rfl⟩ | ⟨-, b, rest, -, -, -, rfl⟩ <;> rfl, fun _ _ => trivial⟩
  exact (Relates.huffDecode codeOnly_closed bit (fun _ _ => rfl) (fun _ => rfl) lens s).1 n t h

/-- The code assembled in ACC, with one bit more (42_huffman.md R175). -/
theorem shiftIn_value {s : State} (b : Bool) (hn : s.accn.toNat < 15) (ha : s.acc.toNat < 2 ^ s.accn.toNat) :
    (shiftIn b s).accn.toNat = s.accn.toNat + 1 ∧ (shiftIn b s).acc.toNat = 2 * s.acc.toNat + b.toNat := by
  have hp : 2 ^ s.accn.toNat ≤ 2 ^ 14 := Nat.pow_le_pow_right (by decide) (by omega)
  have hb : ((BitVec.ofBool b).setWidth 15).toNat = b.toNat := by cases b <;> rfl
  have hs : (s.acc <<< 1).toNat = 2 ^ 1 * s.acc.toNat := by
    rw [BitVec.toNat_shiftLeft, Nat.shiftLeft_eq]
    omega
  simp only [shiftIn_fields]
  constructor
  · rw [BitVec.toNat_add]
    exact Nat.mod_eq_of_lt (Nat.add_lt_add_right hn 1)
  · rw [BitVec.toNat_or, hb, hs, ← Nat.two_pow_add_eq_or_of_lt (by cases b <;> decide), pow_one]

/-- One more bit that completes a code (R175). -/
theorem huffLoop_of_some {T : List CodeEntry} {k n : Nat} {s u : State} {b : Bool} (e : readBit s = .ok b u)
    (h : lookupCode T (shiftIn b u).accn.toNat (shiftIn b u).acc.toNat = some n) :
    huffLoop T (k + 1) s = .ok n (shiftIn b u) := by
  rw [huffLoop, bind_of_ok e, modify_andThen]
  simp only [h]

/-- One more bit that does not. -/
theorem huffLoop_of_none {T : List CodeEntry} {k : Nat} {s u : State} {b : Bool} (e : readBit s = .ok b u)
    (h : lookupCode T (shiftIn b u).accn.toNat (shiftIn b u).acc.toNat = none) :
    huffLoop T (k + 1) s = huffLoop T k (shiftIn b u) := by
  rw [huffLoop, bind_of_ok e, modify_andThen]
  simp only [h]

/-- `HuffDecode` assembles the code as the decoder does, and stops where it does (R175). -/
theorem huffLoop_after {T : List CodeEntry} {k n : Nat} {s : State} {rest : List Bool} (hs : BitReaderOk s)
    (hr : RoomForBits s k) (hk : s.accn.toNat + k ≤ 15) (ha : s.acc.toNat < 2 ^ s.accn.toNat)
    (h : matchCode T k s.accn.toNat s.acc.toNat (bitsAhead s) = .ok (n, rest)) :
    ∃ t m, huffLoop T k s = .ok n t ∧ m ≤ k ∧ AfterBits s m rest t ∧
      lookupCode T t.accn.toNat t.acc.toNat = some n := by
  induction k generalizing s with
  | zero => cases h
  | succ k ih =>
    cases hb : bitsAhead s with
    | nil => rw [hb] at h; cases h
    | cons b bits =>
      obtain ⟨u, e, hu⟩ := readBit_after hs (hr.mono (by omega)) hb
      obtain ⟨hf1, hf2⟩ : u.acc = s.acc ∧ u.accn = s.accn := by
        rcases readBit_ok e with ⟨-, -, rfl⟩ | ⟨-, c, l, -, -, -, rfl⟩ <;> exact ⟨rfl, rfl⟩
      rw [← hf1, ← hf2] at ha h
      rw [← hf2] at hk
      obtain ⟨h1, h2⟩ := shiftIn_value (s := u) b (by omega) ha
      have hv : AfterBits s 1 bits (shiftIn b u) := hu.write _ ⟨rfl, rfl, rfl, rfl⟩
      rw [hb, matchCode, ← h1, ← h2] at h
      split at h
      · rename_i sym hl
        cases h
        exact ⟨shiftIn b u, 1, huffLoop_of_some e hl, by omega, hv, hl⟩
      · rename_i hl
        rw [← hv.ahead] at h
        have ha' : (shiftIn b u).acc.toNat < 2 ^ (shiftIn b u).accn.toNat := by
          rw [h1, h2, pow_succ]
          have := b.toNat_le
          omega
        rw [Nat.add_comm] at hr
        obtain ⟨t, m, e', hm, ht, hl'⟩ := ih hv.ok (hr.after hv) (by omega) ha' h
        exact ⟨t, 1 + m, (huffLoop_of_none e hl).trans e', by omega, hv.trans ht, hl'⟩

/-- `HuffDecode` reads the symbol the decoder reads, and ACC and ACCN hold its code (R175). -/
theorem huffDecode_after {lens : List Nat} {n : Nat} {s : State} {rest : List Bool} (hs : BitReaderOk s)
    (hr : RoomForBits s 15) (h : decodeSymbol lens (bitsAhead s) = .ok (n, rest)) :
    ∃ t m, huffDecode lens s = .ok n t ∧ m ≤ 15 ∧ AfterBits s m rest t ∧ CodeOnly s t ∧
      symbolBits lens n = some (codeBits t.accn.toNat t.acc.toNat) := by
  rw [decodeSymbol] at h
  split at h
  · cases h
  · rename_i T hT
    obtain ⟨t, m, e, hm, ht, hl⟩ := huffLoop_after (k := 15) (s := clearAcc s) hs hr (le_of_eq rfl)
      Nat.zero_lt_one h
    have e' : huffDecode lens s = .ok n t := by
      simp only [huffDecode, hT]
      exact e
    exact ⟨t, m, e', hm, ⟨ht.ahead, ht.ok, ht.cursor, ht.source⟩, huffDecode_codeOnly e',
      symbolBits_entry hT (lookupCode_some hl)⟩

/-! ## Elements -/

/-- A coded element is fetched as the decoder reads it: its code, a write of SYM or DSYM, or a test, and its extra
field. -/
theorem fetchCoded_after {a : Alphabet} {lens : List Nat} {i : Instr} {s : State} {rest : List Bool}
    {between : Nat → Op Unit} {sym : BitVec 9} {dsym : BitVec 5} (hs : BitReaderOk s) (hr : RoomForBits s 47)
    (h : decodeCoded a lens (bitsAhead s) = .ok (i, rest))
    (hbw : ∀ u, CodeOnly s u → between (numberOf i) u = .ok () { u with sym := sym, dsym := dsym }) :
    ∃ t m, ((huffDecode lens).bind fun n => (between n).andThen (fetchElement a n)) s = .ok i t ∧
      AfterBits s m rest t ∧ CodeOnly { s with sym := sym, dsym := dsym } t ∧
      symbolBits lens (numberOf i) = some (codeBits t.accn.toNat t.acc.toNat) := by
  rw [decodeCoded] at h
  split at h
  · cases h
  · rename_i n mid hn
    obtain ⟨-, rfl, -⟩ := decodeExtra_ok_iff.1 h
    obtain ⟨u, m, e1, hm, hu, hf, hc⟩ := huffDecode_after hs (hr.mono (by omega)) hn
    have hv := hu.write { u with sym := sym, dsym := dsym } ⟨rfl, rfl, rfl, rfl⟩
    rw [← hv.ahead] at h
    obtain ⟨t, k, e2, ht, hi⟩ := fetchElement_after hv.ok (RoomForBits.after (hr.mono (by omega)) hv) h
    refine ⟨t, m + k, ?_, hv.trans ht, ?_, ?_⟩
    · rw [bind_of_ok e1, andThen_of_ok (hbw u hf), e2]
    · rw [CodeOnly] at *
      rw [hi, hf]
    · rw [hc, hi]

/-- A block header is fetched as the decoder reads it, its number being BFINAL and BTYPE (30_encoding.md R91, R191). -/
theorem fetchHeader_after {i : Instr} {s : State} {rest : List Bool} (hs : BitReaderOk s) (hr : RoomForBits s 35)
    (h : decode .header (bitsAhead s) = .ok (i, rest)) :
    ∃ t m, fetchHeader s = .ok i t ∧ AfterBits s m rest t ∧ numberOf i = t.bfinal.toNat + 2 * t.btype.toNat ∧
      InputOnly { s with bfinal := t.bfinal, btype := t.btype } t := by
  obtain ⟨ha, hb⟩ := decode_header_ok_iff.1 h
  have hx : decodeExtra .header (numberOf i) rest = .ok (i, rest) :=
    decodeExtra_ok_iff.2 ⟨ha, rfl, by rw [extraBits_header ha]; rfl⟩
  obtain ⟨f, b, hf, hb4, hn⟩ : ∃ f b, f < 2 ∧ b < 4 ∧ numberOf i = f + 2 * b := by
    have := numberOf_lt i
    rw [ha, alphabetSize] at this
    exact ⟨numberOf i % 2, numberOf i / 2, by omega, by omega, by omega⟩
  have hsplit : numBits 3 (f + 2 * b) = numBits 1 f ++ numBits 2 b := by
    rw [numBits_add 1 2, show (f + 2 * b) / 2 ^ 1 = b by omega]
    simp [numBits]
  rw [hn, hsplit, List.append_assoc] at hb
  obtain ⟨u, e1, hu, k1⟩ := readBits_after hs (n := 1) (hr.mono (by decide)) (by decide) (takeNum_ok_iff.2 ⟨hf, hb⟩)
  have hu' := hu.write { u with bfinal := BitVec.ofNat 1 f } ⟨rfl, rfl, rfl, rfl⟩
  obtain ⟨v, e2, hv, k2⟩ := readBits_after hu'.ok (RoomForBits.after (n := 2) (hr.mono (by decide)) hu') (by decide)
    (takeNum_ok_iff.2 ⟨hb4, hu'.ahead⟩)
  have hv' := (hu'.trans hv).write { v with btype := BitVec.ofNat 2 b } ⟨rfl, rfl, rfl, rfl⟩
  rw [← hv'.ahead] at hx
  obtain ⟨t, m, e3, ht, k3⟩ := fetchElement_after hv'.ok (RoomForBits.after (n := 32) hr hv') hx
  rw [hv'.ahead] at ht
  have hf1 : t.bfinal = BitVec.ofNat 1 f := by rw [k3, k2]
  have hf2 : t.btype = BitVec.ofNat 2 b := by rw [k3]
  refine ⟨t, _, ?_, hv'.trans ht, ?_, ?_⟩
  · rw [fetchHeader, bind_of_ok e1, modify_andThen, bind_of_ok e2, modify_andThen, ← hn, e3]
  · rw [hf1, hf2, hn]
    simp
    omega
  · rw [InputOnly, hf1, hf2, k3, k2, k1]

/-! ## Steps -/

/-- Where CORE takes the steps, the fetch is CORE's (45_host_gzip.md R320, R321). -/
theorem fetch_of_coreRuns {s : State} (h : CoreRuns s) : fetch s = coreFetch s := by
  unfold fetch
  rcases h with hp | ⟨hp, hd, he⟩
  · rw [hp]
  · rw [hp]
    simp [isDone, hasError, hd, he]

/-- The step that executes a fetched element. -/
theorem step_of_fetched {s t : State} {i : Instr} {x : Op Instr} (hr : CoreRuns s)
    (hc : coreFetch s = Fetched.ofRes (x s)) (h : x s = .ok i t) : step s = exec i t := by
  rw [step_eq, fetch_of_coreRuns hr, hc, h]
  rfl

/-- The decode that belongs to a context (43_blocks.md R190). -/
theorem contextOf_cases {s : State} {c : Context} (h : contextOf s = some c) :
    (c = .header ∧ coreFetch s = Fetched.ofRes (fetchHeader s)) ∨
    (c = .treeCode (clInForce s) ∧ coreFetch s = Fetched.ofRes (fetchTree s)) ∨
    (c = .dist (dInForce s) ∧ coreFetch s = Fetched.ofRes (fetchDist s)) ∨
    (c = .litLen (llInForce s) ∧ coreFetch s = Fetched.ofRes (fetchLitLen s)) := by
  unfold contextOf at h
  unfold coreFetch
  split at h
  · cases h
    rw [‹s.st = _›]
    exact .inl ⟨rfl, rfl⟩
  · rw [‹s.st = _›]
    split at h <;> cases h
    exact .inr (.inl ⟨rfl, if_pos ‹_›⟩)
  · rw [‹s.st = _›]
    split at h <;> cases h
    · exact .inr (.inr (.inl ⟨rfl, if_pos ‹_›⟩))
    · exact .inr (.inr (.inr ⟨rfl, if_neg ‹_›⟩))
  · cases h

theorem checkRepeat_of_ok {n : Nat} {s : State} (h : n = 16 → hasPrevLen s = true) : checkRepeat n s = .ok () s := by
  rw [checkRepeat, if_neg]
  rintro ⟨rfl, hp⟩
  simp [h rfl] at hp

/-- What the decode of a code, with SYM and DSYM written, leaves unchanged. -/
theorem CodeOnly.frame {s t : State} {sym : BitVec 9} {dsym : BitVec 5}
    (h : CodeOnly { s with sym := sym, dsym := dsym } t) :
    DecodeOnly s t ∧ t.bfinal = s.bfinal ∧ t.btype = s.btype ∧ t.sym = sym ∧ t.dsym = dsym := by
  rw [DecodeOnly, h]
  exact ⟨rfl, rfl, rfl, rfl, rfl⟩

/-- Settles O2: the fetch of each context reads what the decoder reads. -/
theorem stepRunsTheDecodedElement : Obligations.StepRunsTheDecodedElement := by
  intro s c i rest hr hs room hc h hp
  have hb : RoomForBits s 47 := room.forBits (by decide)
  refine ⟨(encodeOfDecode c _ i rest h).1, ?_⟩
  have hlt := numberOf_lt i
  rcases contextOf_cases hc with ⟨rfl, e⟩ | ⟨rfl, e⟩ | ⟨rfl, e⟩ | ⟨rfl, e⟩
  · obtain ⟨t, m, ht, ha, hn, hf⟩ := fetchHeader_after hs (hb.mono (by decide)) h
    have frame : DecodeOnly s t ∧ t.sym = s.sym ∧ t.dsym = s.dsym ∧ t.acc = s.acc ∧ t.accn = s.accn := by
      rw [DecodeOnly, hf]
      exact ⟨rfl, rfl, rfl, rfl, rfl⟩
    obtain ⟨hd, h1, h2, h3⟩ := frame
    exact ⟨t, step_of_fetched hr e ht, ha.ahead, ha.ok, hd, ha.source, hn, h1, h2, h3⟩
  · have halph : alphabetOf i = .treeCode := (decodeCoded_ok_iff.1 h).1
    obtain ⟨t, m, ht, ha, hf, hcode⟩ := fetchCoded_after (sym := s.sym) (dsym := s.dsym) hs hb h
      (between := checkRepeat) fun u hu => by
        have hprev : hasPrevLen u = hasPrevLen s := by rw [hu]; rfl
        rw [checkRepeat_of_ok (hprev ▸ hp halph), hu]
    obtain ⟨hd, h1, h2, h3, h4⟩ := hf.frame
    exact ⟨t, step_of_fetched hr e ht, ha.ahead, ha.ok, hd, ha.source, ⟨h1, h2⟩, h3, h4, hcode⟩
  · rw [(decodeCoded_ok_iff.1 h).1, alphabetSize] at hlt
    obtain ⟨t, m, ht, ha, hf, hcode⟩ := fetchCoded_after (sym := s.sym) (dsym := BitVec.ofNat 5 (numberOf i)) hs hb h
      (between := fun n => Op.modify fun t => { t with dsym := BitVec.ofNat 5 n }) fun u hu => by rw [modify_apply, hu]
    obtain ⟨hd, h1, h2, h3, h4⟩ := hf.frame
    have hsym : numberOf i = t.dsym.toNat := by
      rw [h4, BitVec.toNat_ofNat, Nat.mod_eq_of_lt hlt]
    exact ⟨t, step_of_fetched hr e ht, ha.ahead, ha.ok, hd, ha.source, ⟨h1, h2⟩, h3, hsym, hcode⟩
  · rw [(decodeCoded_ok_iff.1 h).1, alphabetSize] at hlt
    obtain ⟨t, m, ht, ha, hf, hcode⟩ := fetchCoded_after (sym := BitVec.ofNat 9 (numberOf i)) (dsym := s.dsym) hs hb h
      (between := fun n => Op.modify fun t => { t with sym := BitVec.ofNat 9 n }) fun u hu => by rw [modify_apply, hu]
    obtain ⟨hd, h1, h2, h3, h4⟩ := hf.frame
    have hsym : numberOf i = t.sym.toNat := by
      rw [h3, BitVec.toNat_ofNat, Nat.mod_eq_of_lt (by omega)]
    exact ⟨t, step_of_fetched hr e ht, ha.ahead, ha.ok, hd, ha.source, ⟨h1, h2⟩, hsym, h4, hcode⟩

end Sys2Proof.Machine

/-! # Fields of the bit reader (40_bitreader.md R130 to R139) -/

namespace Sys2Proof.Machine

/-! ## How fields are made of bits -/

/-- A field joined onto a field of `i` bits that is there already is read as a field of its own and then joined
(40_bitreader.md R138). -/
theorem readBitsFrom_join (k i j v x : Nat) : readBitsFrom k (i + j) (v ||| (x <<< i)) =
    (readBitsFrom k j x).bind fun y => Op.pure (v ||| (y <<< i)) := by
  induction k generalizing j x with
  | zero => rfl
  | succ k ih =>
    have hor (b : Bool) : v ||| x <<< i ||| b.toNat <<< (i + j) = v ||| (x ||| b.toNat <<< j) <<< i := by
      rw [Nat.shiftLeft_or_distrib, ← Nat.shiftLeft_add, Nat.add_comm j, Nat.or_assoc]
    simp only [readBitsFrom, bind_assoc, hor, Nat.add_assoc, ih]

theorem readBitsFrom_add (a b i v : Nat) :
    readBitsFrom (a + b) i v = (readBitsFrom a i v).bind fun lo => readBitsFrom b (i + a) lo := by
  induction a generalizing i v with
  | zero => simp [readBitsFrom, pure_bind]
  | succ a ih =>
    rw [Nat.succ_add]
    simp only [readBitsFrom, bind_assoc, ih, Nat.add_right_comm i 1 a, Nat.add_assoc]

/-- A field is its first bit and the field after it (20_memory.md R67). -/
theorem readBitsFrom_succ (k : Nat) : readBitsFrom (k + 1) 0 0 =
    readBit.bind fun b => (readBitsFrom k 0 0).bind fun x => Op.pure (b.toNat + 2 * x) := by
  have hv (b : Bool) : readBitsFrom k (0 + 1) (0 ||| b.toNat <<< 0) =
      (readBitsFrom k 0 0).bind fun x => Op.pure (b.toNat + 2 * x) := by
    have hor (x : Nat) : b.toNat ||| x <<< 1 = b.toNat + 2 * x := by
      have := Nat.two_pow_add_eq_or_of_lt (i := 1) (by cases b <;> decide : b.toNat < 2 ^ 1) x
      rw [Nat.or_comm, Nat.shiftLeft_eq, mul_comm, ← this, pow_one, Nat.add_comm]
    simpa [hor] using readBitsFrom_join k 1 0 b.toNat 0
  rw [readBitsFrom]
  exact congrArg _ (funext hv)

/-- Settles O13: the loop of `ReadBits` has nothing to do. -/
theorem readZeroBits : Obligations.ReadZeroBits := fun s => readBits_of_le (Nat.zero_le 32) s

/-- Settles O16: the loop splits, and its second half reads a field of its own. -/
theorem readBitsSplits : Obligations.ReadBitsSplits := by
  intro a b s h
  have hb (lo : Nat) : readBitsFrom b a lo = (readBits b).bind fun hi => Op.pure (lo ||| (hi <<< a)) := by
    rw [funext (readBits_of_le (Nat.le_of_add_left_le h))]
    simpa using readBitsFrom_join b a 0 lo 0
  rw [readBits_of_le h, readBitsFrom_add, funext (readBits_of_le (Nat.le_of_add_right_le h)), Nat.zero_add]
  simp only [hb]

/-! ## Fields out of the buffer -/

theorem bc_eq_zero_iff {s : State} : s.bc = 0 ↔ s.bc.toNat = 0 := BitVec.toNat_inj.symm

/-- A field that lies in the buffer. -/
theorem readBitsFrom_of_buffer {k : Nat} {s : State} (h : k ≤ s.bc.toNat) : readBitsFrom k 0 0 s =
    .ok (s.bb.toNat % 2 ^ k) { s with bb := s.bb >>> k, bc := s.bc - BitVec.ofNat 4 k } := by
  induction k generalizing s with
  | zero => simp [readBitsFrom, Nat.mod_one]
  | succ k ih =>
    have hc : s.bc ≠ 0 := fun e => by
      rw [bc_eq_zero_iff] at e
      omega
    have hk : k ≤ (shiftBit s).bc.toNat := by
      simp only [shiftBit_fields]
      bv_omega
    have hx : (s.bb.getLsbD 0).toNat + 2 * ((shiftBit s).bb.toNat % 2 ^ k) = s.bb.toNat % 2 ^ (k + 1) := by
      rw [pow_succ', Nat.mod_mul, BitVec.getLsbD, Nat.toNat_testBit, pow_zero, Nat.div_one]
      rfl
    have hb : (shiftBit s).bc - BitVec.ofNat 4 k = s.bc - BitVec.ofNat 4 (k + 1) := by
      simp only [shiftBit_fields]
      bv_omega
    have hs : (shiftBit s).bb >>> k = s.bb >>> (k + 1) := by
      rw [Nat.add_comm, BitVec.shiftRight_add]
      rfl
    rw [readBitsFrom_succ, bind_of_ok (readBit_of_buffer hc), bind_of_ok (ih hk), pure_apply, hx, hb, hs]
    rfl

/-- With the buffer empty, a field begins with a byte of the source in the buffer. -/
theorem readBitsFrom_of_empty {k i v : Nat} {s : State} (h : s.bc = 0) : readBitsFrom (k + 1) i v s =
    (srcNext.bind fun b => (Op.modify (loadByte b)).andThen (readBitsFrom (k + 1) i v)) s := by
  have hx : readBitsFrom (k + 1) i v s = ((srcNext.bind fun b => (Op.modify (loadByte b)).andThen takeBit).bind
      fun c => readBitsFrom k (i + 1) (v ||| (c.toNat <<< i))) s := by
    rw [readBitsFrom, Op.bind, readBit_of_empty h]
    rfl
  rw [hx, bind_assoc]
  rfl

/-- Settles O18: at a byte boundary a field of eight bits is the byte loaded, and shifting it out leaves BB and BC 0
again. -/
theorem alignedByteIsEightBits : Obligations.AlignedByteIsEightBits := by
  refine ⟨fun s => ⟨rfl, rfl⟩, fun s hb hc => ?_⟩
  rw [readBits_of_le (by decide), readBitsFrom_of_empty hc]
  cases e : srcNext s with
  | ok b t =>
    obtain ⟨-, -, ht⟩ := srcNext_ok e
    have hb8 : b >>> 8 = 0 := by
      rw [BitVec.ushiftRight_eq_zero (le_refl 8)]
      rfl
    rw [bind_of_ok e, modify_andThen, readBitsFrom_of_buffer (le_refl 8), readByteAligned, bind_of_ok e, pure_apply]
    congr 1
    · exact Nat.mod_eq_of_lt b.isLt
    · rw [ht]
      simp [loadByte, hb8, hb, hc]
  | raised t => rw [bind_of_raised e, readByteAligned, bind_of_raised e]
  | fault f => rw [bind_of_fault e, readByteAligned, bind_of_fault e]
  | refused r => rw [bind_of_refused e, readByteAligned, bind_of_refused e]

/-! ## Fields from the bits ahead -/

/-- IPOS stays below 2^64 as long as no more than `n` bits are read (10_state.md R31). Exact where `RoomForBits` asks for
a byte more. -/
def RoomToRead (s : State) (n : Nat) : Prop := 8 * s.ipos + n + 8 ≤ 8 * Config.countLimit + s.bc.toNat

theorem RoomIn.toRead {s : State} {k n : Nat} (h : RoomIn s k) (hn : n ≤ 8 * k) : RoomToRead s n := by
  simp only [RoomIn, RoomToRead, Config.countLimit] at *
  omega

theorem RoomToRead.after {s t : State} {m n : Nat} {rest : List Bool} (h : RoomToRead s (m + n))
    (ht : AfterBits s m rest t) : RoomToRead t n := by
  have := ht.cursor
  simp only [RoomToRead] at *
  omega

/-- `ReadBit` gives the first bit ahead. IPOS needs room only where a byte is taken. -/
theorem readBit_of_room {s : State} {b : Bool} {bits : List Bool} {n : Nat} (hs : BitReaderOk s)
    (hr : RoomToRead s (n + 1)) (h : bitsAhead s = b :: bits) : ∃ t, readBit s = .ok b t ∧ AfterBits s 1 bits t := by
  by_cases hc : s.bc = 0
  · have hroom : RoomIn s 1 := by
      rw [bc_eq_zero_iff] at hc
      simp only [RoomToRead, RoomIn, Config.countLimit] at *
      omega
    obtain ⟨t, e, ha, ho, -, hcur, -, hl⟩ := readBit_of_bits hs hroom h
    exact ⟨t, e, ha, ho, hcur, hl⟩
  · -- A read from the buffer does not look at IPOS: take the rule at IPOS 0.
    obtain ⟨t, e, ha, ho, -, hcur, -⟩ := readBit_of_bits (s := { s with ipos := 0 }) hs (by decide : 0 + 1 < _) h
    cases (readBit_of_buffer (s := { s with ipos := 0 }) hc).symm.trans e
    refine ⟨shiftBit s, readBit_of_buffer hc, ha, ho, ?_, rfl⟩
    simp only [shiftBit_fields] at hcur ⊢
    omega

theorem readBitsFrom_of_room {n : Nat} {s : State} (hs : BitReaderOk s) (hr : RoomToRead s n)
    (h : n ≤ (bitsAhead s).length) : ∃ t, readBitsFrom n 0 0 s = .ok (numOfBits ((bitsAhead s).take n)) t ∧
      AfterBits s n ((bitsAhead s).drop n) t := by
  induction n generalizing s with
  | zero => exact ⟨s, rfl, .refl hs⟩
  | succ n ih =>
    obtain ⟨b, bits, hb⟩ : ∃ b bits, bitsAhead s = b :: bits := List.exists_cons_of_length_pos (by omega)
    obtain ⟨t, e, ht⟩ := readBit_of_room hs hr hb
    rw [Nat.add_comm] at hr
    rw [hb, ← ht.ahead] at h
    obtain ⟨u, e', hu⟩ := ih ht.ok (hr.after ht) (Nat.le_of_succ_le_succ h)
    rw [ht.ahead] at e' hu
    rw [readBitsFrom_succ, bind_of_ok e, bind_of_ok e', hb]
    have hall : AfterBits s (1 + n) (bits.drop n) u := ht.trans hu
    rw [Nat.add_comm] at hall
    exact ⟨u, rfl, hall⟩

theorem readBits_of_room {n : Nat} {s : State} (hn : n ≤ 32) (hs : BitReaderOk s) (hr : RoomToRead s n)
    (h : n ≤ (bitsAhead s).length) : ∃ t, readBits n s = .ok (numOfBits ((bitsAhead s).take n)) t ∧
      AfterBits s n ((bitsAhead s).drop n) t := by
  rw [readBits_of_le hn]
  exact readBitsFrom_of_room hs hr h

/-- Settles O14: five bytes hold 32 bits at any position of the cursor. -/
theorem readBitsValue : Obligations.ReadBitsValue := by
  intro n s hn hs hr h
  obtain ⟨t, e, ht⟩ := readBits_of_room hn hs (hr.toRead (by omega)) h
  exact ⟨t, e, ht.ahead, ht.ok, (readBits_frame n s).1 _ t e, ht.cursor⟩

/-! ## Fields in a row (40_bitreader.md R137) -/

theorem readFields_of_room {ws : List Nat} {s : State} (hw : ∀ w ∈ ws, w ≤ 32) (hs : BitReaderOk s)
    (hr : RoomToRead s ws.sum) (h : ws.sum ≤ (bitsAhead s).length) :
    ∃ vs t, readFields ws s = .ok vs t ∧ AfterBits s ws.sum ((bitsAhead s).drop ws.sum) t ∧ vs.length = ws.length ∧
      (List.zipWith numBits ws vs).flatten = (bitsAhead s).take ws.sum := by
  induction ws generalizing s with
  | nil => exact ⟨[], s, rfl, .refl hs, rfl, rfl⟩
  | cons w ws ih =>
    rw [List.sum_cons] at hr h ⊢
    obtain ⟨hw1, hws⟩ := List.forall_mem_cons.1 hw
    obtain ⟨t, e, ht⟩ := readBits_of_room hw1 hs (n := w) (by simp only [RoomToRead] at *; omega) (by omega)
    obtain ⟨vs, u, e', hu, hlen, hbits⟩ := ih hws ht.ok (hr.after ht) (by rw [ht.ahead, List.length_drop]; omega)
    rw [ht.ahead] at hu hbits
    rw [List.drop_drop] at hu
    refine ⟨numOfBits ((bitsAhead s).take w) :: vs, u, ?_, ht.trans hu, congrArg Nat.succ hlen, ?_⟩
    · rw [readFields, bind_of_ok e, bind_of_ok e', pure_apply]
    · have hfield := numBits_numOfBits ((bitsAhead s).take w)
      rw [List.length_take_of_le (by omega)] at hfield
      rw [List.zipWith_cons_cons, List.flatten_cons, hfield, hbits, List.take_add]

theorem srcBits_bytesSrc (bs : List Byte) : srcBits (bytesSrc bs) = bs.flatMap byteBits := by
  induction bs with
  | nil => rfl
  | cons b bs ih => exact congrArg (byteBits b ++ ·) ih

theorem length_flatMap_byteBits (bs : List Byte) : (bs.flatMap byteBits).length = 8 * bs.length := by
  simp [List.length_flatMap, byteBits, mul_comm]

/-- Settles O17: the fields are cut from the bits ahead one after the other, and these are the bytes' bits; that the
source is empty afterwards follows from how far the cursor has moved. -/
theorem fieldsReconstructTheBytes : Obligations.FieldsReconstructTheBytes := by
  intro bs ws s hw hsum hsrc hb hc hr
  have hahead : bitsAhead s = bs.flatMap byteBits := by
    rw [bitsAhead, hc, hsrc, srcBits_bytesSrc]
    rfl
  have hall : (bitsAhead s).length = ws.sum := by rw [hahead, length_flatMap_byteBits, hsum]
  obtain ⟨vs, t, e, ht, hlen, hbits⟩ :=
    readFields_of_room hw (bitReaderOk_of_empty hb hc) (hr.toRead hsum.le) hall.ge
  rw [List.take_of_length_le hall.le, hahead] at hbits
  rw [List.drop_of_length_le hall.le] at ht
  have htc : t.bc = 0 := (readBit_of_none ht.ahead).1
  have hlast : t.src.length = 0 := by
    have hcur := ht.cursor
    have hsource := ht.source
    rw [bc_eq_zero_iff] at hc htc
    rw [hsrc, bytesSrc, List.length_map] at hsource
    omega
  exact ⟨vs, t, e, List.eq_nil_of_length_eq_zero hlast, htc, hlen, hbits⟩

/-! ## A field past the end -/

/-- `x` raises `k` in `s` in a state with the bits `rest` ahead, each source byte taken having been counted; before the
error it has changed no more than `F` allows. -/
def RaisesAt {α : Type} (F : State → State → Prop) (x : Op α) (s : State) (k : ErrKind) (rest : List Bool) : Prop :=
  ∃ u, x s = .raised (takeError k u) ∧ bitsAhead u = rest ∧ BitReaderOk u ∧ F s u ∧
    u.ipos + u.src.length = s.ipos + s.src.length

section
variable {α β : Type} {F G : State → State → Prop} {x : Op α} {f : α → Op β} {s t : State} {k : ErrKind}
  {rest : List Bool}

theorem RaisesAt.mono (h : RaisesAt F x s k rest) (hF : ∀ u, F s u → G s u) : RaisesAt G x s k rest :=
  let ⟨u, e, ha, ho, hu, hl⟩ := h
  ⟨u, e, ha, ho, hF u hu, hl⟩

/-- A sequence whose first part raises. -/
theorem RaisesAt.bind (h : RaisesAt F x s k rest) : RaisesAt F (x.bind f) s k rest :=
  let ⟨u, e, hu⟩ := h
  ⟨u, bind_of_raised e, hu⟩

/-- An operation that goes on from `s` as one goes on from `t` that raises there. -/
theorem RaisesAt.of_later {y : Op α} (h : RaisesAt F y t k rest) (e : x s = y t) (hF : ∀ u, F t u → F s u)
    (hl : t.ipos + t.src.length = s.ipos + s.src.length) : RaisesAt F x s k rest :=
  let ⟨u, e', ha, ho, hu, hu'⟩ := h
  ⟨u, e.trans e', ha, ho, hF u hu, hu'.trans hl⟩

end

/-- A read past the bytes of `t` raises the kind that one past the bytes of `s` raises (20_memory.md R63). -/
def SameEnd (s t : State) : Prop := srcEnd t.src = srcEnd s.src

theorem sameEnd_closed : Closed SameEnd fun _ _ => True :=
  ⟨fun _ => rfl, fun _ _ _ h1 h2 => h2.trans h1, fun _ _ _ _ _ => trivial, fun _ _ _ => trivial⟩

theorem readBit_sameEnd : Relates SameEnd (fun _ _ => True) readBit := fun s => by
  refine ⟨fun b t h => ?_, fun _ _ => trivial⟩
  rcases readBit_ok h with ⟨-, -, rfl⟩ | ⟨-, c, rest, hc, -, -, rfl⟩
  · rfl
  · rw [SameEnd, hc]
    rfl

/-- What a successful `ReadBit` changes. -/
theorem readBit_inputOnly {s t : State} {b : Bool} (h : readBit s = .ok b t) : InputOnly s t := by
  rcases readBit_ok h with ⟨-, -, rfl⟩ | ⟨-, c, rest, -, -, -, rfl⟩ <;> rfl

theorem readBitsFrom_ends {n i v : Nat} {s : State} (hs : BitReaderOk s) (hr : RoomForBits s n)
    (h : (bitsAhead s).length < n) : RaisesAt InputOnly (readBitsFrom n i v) s (srcEnd s.src) [] := by
  induction n generalizing s i v with
  | zero => omega
  | succ n ih =>
    cases hb : bitsAhead s with
    | nil => exact ⟨s, bind_of_raised (readBit_of_none hb).2, hb, hs, rfl, rfl⟩
    | cons b bits =>
      obtain ⟨t, e, ht⟩ := readBit_after hs (hr.mono (Nat.le_add_left 1 n)) hb
      rw [Nat.add_comm] at hr
      rw [hb, ← ht.ahead] at h
      rw [← (readBit_sameEnd s).1 b t e]
      exact (ih ht.ok (hr.after ht) (Nat.lt_of_succ_lt_succ h)).of_later (bind_of_ok e)
        (fun _ => InputOnly.trans (readBit_inputOnly e)) ht.source

/-- `ReadBits` beyond the end consumes the bits there are and raises (40_bitreader.md R131, 60_exceptions.md R357). -/
theorem readBits_ends {n : Nat} {s : State} (hn : n ≤ 32) (hs : BitReaderOk s) (hr : RoomForBits s n)
    (h : (bitsAhead s).length < n) : RaisesAt InputOnly (readBits n) s (srcEnd s.src) [] := by
  rw [funext (readBits_of_le hn)]
  exact readBitsFrom_ends hs hr h

/-- Settles O15: with no bit ahead the buffer is empty. -/
theorem readBitsPastTheEnd : Obligations.ReadBitsPastTheEnd := by
  intro n s hn hs hr h
  obtain ⟨t, e, ha, -, hf, -⟩ := readBits_ends hn hs (hr.forBits (by omega)) h
  exact ⟨t, e, ha, (readBit_of_none ha).1, hf⟩

end Sys2Proof.Machine

/-! # Where the decoder rejects (30_encoding.md R104, 42_huffman.md R175, R176) -/

namespace Sys2Proof

variable {lens : List Nat} {T : List CodeEntry} {a : Alphabet} {bits : List Bool} {r : Reject}

theorem takeNum_error_iff {w : Nat} : takeNum w bits = .error r ↔ r = .endOfInput ∧ bits.length < w := by
  rw [takeNum]
  split
  · simp [*, eq_comm]
  · simp [*]

/-- An element is rejected for its extra field, or for a number its alphabet does not have. -/
theorem decodeExtra_error {n : Nat} (h : decodeExtra a n bits = .error r) :
    (r = .endOfInput ∧ bits.length < extraWidth a n) ∨ (r = .noSuchSymbol ∧ Machine.alphabetSize a ≤ n) := by
  rw [decodeExtra] at h
  split at h
  · cases h
    exact .inl (takeNum_error_iff.1 ‹_›)
  · split at h
    · cases h
    · cases h
      exact .inr ⟨rfl, not_lt.1 fun hn => Machine.instrOf_ne_none hn _ ‹_›⟩

/-- A coded element is rejected for its code or for its extra field. -/
theorem decodeCoded_error (h : decodeCoded a lens bits = .error r) : decodeSymbol lens bits = .error r ∨
    ∃ n mid, decodeSymbol lens bits = .ok (n, mid) ∧ decodeExtra a n mid = .error r := by
  rw [decodeCoded] at h
  split at h
  · exact .inl (by cases h; assumption)
  · exact .inr ⟨_, _, ‹_›, h⟩

theorem decode_header_error (h : decode .header bits = .error r) : r = .endOfInput ∧ bits.length < 3 := by
  rw [decode] at h
  split at h
  · cases h
    exact takeNum_error_iff.1 ‹_›
  · rename_i n rest hn
    rcases decodeExtra_error h with ⟨-, hw⟩ | ⟨-, h8⟩
    · exact absurd hw (Nat.not_lt_zero _)
    · exact absurd (takeNum_ok_iff.1 hn).1 (not_lt.2 h8)

/-- A code is never rejected for the table it is looked up in. -/
theorem matchCode_ne_invalidTree {k len acc : Nat} : matchCode T k len acc bits ≠ .error .invalidTree := by
  induction k generalizing len acc bits with
  | zero => rintro ⟨⟩
  | succ k ih =>
    cases bits with
    | nil => rintro ⟨⟩
    | cons b bits =>
      rw [matchCode]
      split
      · rintro ⟨⟩
      · exact ih

theorem decodeSymbol_invalidTree (h : decodeSymbol lens bits = .error .invalidTree) : huffBuild lens = none := by
  rw [decodeSymbol] at h
  split at h
  · assumption
  · exact absurd h matchCode_ne_invalidTree

theorem decodeCoded_invalidTree (h : decodeCoded a lens bits = .error .invalidTree) : huffBuild lens = none := by
  rcases decodeCoded_error h with h | ⟨n, mid, -, h⟩
  · exact decodeSymbol_invalidTree h
  · rcases decodeExtra_error h with ⟨⟨⟩, -⟩ | ⟨⟨⟩, -⟩

end Sys2Proof

/-! # A step rejects what the decoder rejects (43_blocks.md R191, R207, 60_exceptions.md R356 to R358) -/

namespace Sys2Proof.Machine

/-! ## Codes -/

/-- How CORE answers a reject of the code ahead of `s`, of which `k` more bits may be read: the kind it raises and the
bits that stay ahead (42_huffman.md R176, R177). -/
inductive CodeReject (s : State) (k : Nat) : Reject → ErrKind → List Bool → Prop
  | bitsEnd : CodeReject s k .endOfInput (srcEnd s.src) []
  | noCode : CodeReject s k .invalidCode .invalidHuffmanCode ((bitsAhead s).drop k)

theorem CodeReject.tail {s t : State} {k : Nat} {r : Reject} {kind : ErrKind} {rest : List Bool} {b : Bool}
    (h : CodeReject s (k + 1) r kind rest) (he : SameEnd s t) (hb : bitsAhead s = b :: bitsAhead t) :
    CodeReject t k r kind rest := by
  cases h with
  | bitsEnd =>
    rw [← he]
    exact .bitsEnd
  | noCode =>
    rw [hb]
    exact .noCode

/-- One more bit of a code: it is read and appended to the code in ACC (42_huffman.md R175). -/
theorem readBit_shiftIn {s : State} {b : Bool} {bits : List Bool} (hs : BitReaderOk s) (hr : RoomForBits s 1)
    (hn : s.accn.toNat < 15) (ha : s.acc.toNat < 2 ^ s.accn.toNat) (hb : bitsAhead s = b :: bits) :
    ∃ u, readBit s = .ok b u ∧ AfterBits s 1 bits (shiftIn b u) ∧
      (shiftIn b u).accn.toNat = s.accn.toNat + 1 ∧ (shiftIn b u).acc.toNat = 2 * s.acc.toNat + b.toNat ∧
      (shiftIn b u).acc.toNat < 2 ^ (shiftIn b u).accn.toNat := by
  obtain ⟨u, e, hu⟩ := readBit_after hs hr hb
  obtain ⟨hacc, haccn⟩ : u.acc = s.acc ∧ u.accn = s.accn := by
    rw [readBit_inputOnly e]
    exact ⟨rfl, rfl⟩
  rw [← hacc, ← haccn] at ha ⊢
  rw [← haccn] at hn
  obtain ⟨h1, h2⟩ := shiftIn_value b hn ha
  refine ⟨u, e, hu.write _ ⟨rfl, rfl, rfl, rfl⟩, h1, h2, ?_⟩
  rw [h1, h2, pow_succ]
  have := b.toNat_le
  omega

/-- The loop of `HuffDecode` raises where the decoder rejects the rest of the code (R176, R177). -/
theorem huffLoop_rejects {T : List CodeEntry} {k : Nat} {s : State} {r : Reject} {kind : ErrKind} {rest : List Bool}
    (hs : BitReaderOk s) (hr : RoomForBits s k) (hk : s.accn.toNat + k ≤ 15) (ha : s.acc.toNat < 2 ^ s.accn.toNat)
    (h : matchCode T k s.accn.toNat s.acc.toNat (bitsAhead s) = .error r) (hc : CodeReject s k r kind rest) :
    RaisesAt DecodeOnly (huffLoop T k) s kind rest := by
  induction k generalizing s with
  | zero =>
    cases h
    cases hc
    exact ⟨s, rfl, rfl, hs, rfl, rfl⟩
  | succ k ih =>
    cases hb : bitsAhead s with
    | nil =>
      rw [hb] at h
      cases h
      cases hc
      exact ⟨s, bind_of_raised (readBit_of_none hb).2, hb, hs, rfl, rfl⟩
    | cons b bits =>
      obtain ⟨u, e, hu, h1, h2, ha'⟩ := readBit_shiftIn hs (hr.mono (by omega)) (by omega) ha hb
      rw [hb, matchCode, ← h1, ← h2] at h
      split at h
      · cases h
      · rename_i hl
        rw [← hu.ahead] at h hb
        rw [Nat.add_comm] at hr
        have hend : SameEnd s (shiftIn b u) := (readBit_sameEnd s).1 b u e
        have hd : DecodeOnly s (shiftIn b u) := (readBit_inputOnly e).decodeOnly.trans rfl
        exact (ih hu.ok (hr.after hu) (by omega) ha' h (hc.tail hend hb)).of_later (huffLoop_of_none e hl)
          (fun _ => DecodeOnly.trans hd) hu.source

/-- `HuffDecode` raises where the decoder rejects the code (R176, R177). -/
theorem huffDecode_rejects {lens : List Nat} {s : State} {r : Reject} {kind : ErrKind} {rest : List Bool}
    (hs : BitReaderOk s) (hr : RoomForBits s 15) (h : decodeSymbol lens (bitsAhead s) = .error r)
    (hc : CodeReject s 15 r kind rest) : RaisesAt DecodeOnly (huffDecode lens) s kind rest := by
  rw [decodeSymbol] at h
  split at h
  · cases h
    cases hc
  · rename_i T hT
    have hc' : CodeReject (clearAcc s) 15 r kind rest := by cases hc <;> constructor
    have hd : DecodeOnly s (clearAcc s) := rfl
    have e : huffDecode lens s = huffLoop T 15 (clearAcc s) := by
      simp only [huffDecode, hT]
      rfl
    exact (huffLoop_rejects (s := clearAcc s) hs hr (le_of_eq rfl) Nat.zero_lt_one h hc').of_later e
      (fun _ => DecodeOnly.trans hd) rfl

theorem huffDecode_of_none {lens : List Nat} {s : State} (h : huffBuild lens = none) :
    huffDecode lens s = .raised (takeError .invalidHuffmanTree s) := by
  simp only [huffDecode, h, raise_apply]

theorem huffDecode_sameEnd {lens : List Nat} {n : Nat} {s t : State} (h : huffDecode lens s = .ok n t) : SameEnd s t :=
  (Relates.huffDecode sameEnd_closed readBit_sameEnd (fun _ _ => rfl) (fun _ => rfl) lens s).1 n t h

/-! ## Elements -/

theorem fetchElement_ends {a : Alphabet} {n : Nat} {s : State} (hn : n < alphabetSize a) (hs : BitReaderOk s)
    (hr : RoomForBits s 32) (h : (bitsAhead s).length < extraWidth a n) :
    RaisesAt InputOnly (fetchElement a n) s (srcEnd s.src) [] :=
  have hw := extraWidth_le hn
  (readBits_ends hw hs (hr.mono hw) h).bind

/-- A coded element is rejected as the decoder rejects it: in its code, or in its extra field after a write of SYM or
DSYM, or a test that is passed. -/
theorem fetchCoded_rejects {a : Alphabet} {lens : List Nat} {s : State} {between : Nat → Op Unit} {r : Reject}
    {kind : ErrKind} {rest : List Bool} (hs : BitReaderOk s) (hr : RoomForBits s 47)
    (hl : lens.length ≤ alphabetSize a) (h : decodeCoded a lens (bitsAhead s) = .error r)
    (hc : CodeReject s 15 r kind rest)
    (hbw : ∀ n mid u, r = .endOfInput → decodeSymbol lens (bitsAhead s) = .ok (n, mid) → CodeOnly s u →
      ∃ sym dsym, between n u = .ok () { u with sym := sym, dsym := dsym }) :
    RaisesAt DecodeOnly ((huffDecode lens).bind fun n => (between n).andThen (fetchElement a n)) s kind rest := by
  rcases decodeCoded_error h with h | ⟨n, mid, hn, h⟩
  · exact (huffDecode_rejects hs (hr.mono (by decide)) h hc).bind
  · obtain ⟨u, m, e, hm, hu, hf, -⟩ := huffDecode_after hs (hr.mono (by decide)) hn
    have hlt := lt_of_lt_of_le (huffDecode_lt e) hl
    obtain ⟨rfl, hw⟩ := (decodeExtra_error h).resolve_right fun h' => not_lt.2 h'.2 hlt
    cases hc
    obtain ⟨sym, dsym, e'⟩ := hbw n mid u rfl hn hf
    have hv := hu.write { u with sym := sym, dsym := dsym } ⟨rfl, rfl, rfl, rfl⟩
    have hd : DecodeOnly s { u with sym := sym, dsym := dsym } := (huffDecode_decodeOnly e).trans rfl
    rw [← hv.ahead] at hw
    rw [← huffDecode_sameEnd e]
    have hx := fetchElement_ends hlt hv.ok (RoomForBits.after (hr.mono (by omega)) hv) hw
    exact (hx.mono fun _ => InputOnly.decodeOnly).of_later ((bind_of_ok e).trans (andThen_of_ok e'))
      (fun _ => DecodeOnly.trans hd) hv.source

/-- A block header whose three bits are not all there (43_blocks.md R191). -/
theorem fetchHeader_ends {s : State} (hs : BitReaderOk s) (hr : RoomForBits s 3) (h : (bitsAhead s).length < 3) :
    RaisesAt DecodeOnly fetchHeader s (srcEnd s.src) [] := by
  by_cases h1 : (bitsAhead s).length < 1
  · exact ((readBits_ends (by decide) hs (hr.mono (by decide)) h1).mono fun _ => InputOnly.decodeOnly).bind
  · obtain ⟨t, e, ht, hf⟩ := readBits_after hs (n := 1) (hr.mono (by decide)) (by decide) (if_neg h1)
    generalize numOfBits ((bitsAhead s).take 1) = f at e
    have hu := ht.write { t with bfinal := BitVec.ofNat 1 f } ⟨rfl, rfl, rfl, rfl⟩
    have hd : DecodeOnly s { t with bfinal := BitVec.ofNat 1 f } := hf.decodeOnly.trans rfl
    have h2 := readBits_ends (n := 2) (by decide) hu.ok (RoomForBits.after (n := 2) hr hu)
      (by rw [hu.ahead, List.length_drop]; omega)
    rw [← (Relates.readBits sameEnd_closed readBit_sameEnd 1 s).1 _ t e]
    exact (h2.mono fun _ => InputOnly.decodeOnly).bind.of_later ((bind_of_ok e).trans (modify_andThen ..))
      (fun _ => DecodeOnly.trans hd) hu.source

/-! ## Steps -/

/-- The step in which a fetch raises. -/
theorem step_of_raised {s t : State} {x : Op Instr} (hr : CoreRuns s) (hc : coreFetch s = Fetched.ofRes (x s))
    (h : x s = .raised t) : step s = .next t := by
  rw [step_eq, fetch_of_coreRuns hr, hc, h]
  rfl

/-- The fetch of each context raises where the decoder runs out of bits or finds no code. Symbol 16 as the first
code-length element, whose extra field is cut off, is left out (43_blocks.md R207). -/
theorem coreFetch_rejects {s : State} {c : Context} {r : Reject} {kind : ErrKind} {rest : List Bool}
    (hs : BitReaderOk s) (hr : RoomForBits s 47) (hc : contextOf s = some c)
    (h : decode c (bitsAhead s) = .error r) (hk : CodeReject s 15 r kind rest)
    (h16 : r = .endOfInput →
      ¬ (c.alphabet = .treeCode ∧ s.idx = 0 ∧ ∃ rest, decodeSymbol c.lens (bitsAhead s) = .ok (16, rest))) :
    ∃ x, coreFetch s = Fetched.ofRes (x s) ∧ RaisesAt DecodeOnly x s kind rest := by
  rcases contextOf_cases hc with ⟨rfl, e⟩ | ⟨rfl, e⟩ | ⟨rfl, e⟩ | ⟨rfl, e⟩
  · obtain ⟨rfl, h3⟩ := decode_header_error h
    cases hk
    exact ⟨_, e, fetchHeader_ends hs (hr.mono (by decide)) h3⟩
  · have hx := fetchCoded_rejects (between := checkRepeat) hs hr (by simp [clInForce, alphabetSize]) h hk
      fun n mid u hend hn hu => by
        have hprev : n = 16 → hasPrevLen u = true := by
          rintro rfl
          rw [show hasPrevLen u = hasPrevLen s by rw [hu]; rfl, hasPrevLen, bne_iff_ne]
          exact fun h0 => h16 hend ⟨rfl, h0, mid, hn⟩
        exact ⟨u.sym, u.dsym, checkRepeat_of_ok hprev⟩
    exact ⟨_, e, hx⟩
  · have hx := fetchCoded_rejects (between := fun n => Op.modify fun t => { t with dsym := BitVec.ofNat 5 n }) hs hr
      (by simp [dInForce, alphabetSize]) h hk fun n mid u _ _ _ => ⟨u.sym, BitVec.ofNat 5 n, rfl⟩
    exact ⟨_, e, hx⟩
  · have hx := fetchCoded_rejects (between := fun n => Op.modify fun t => { t with sym := BitVec.ofNat 9 n }) hs hr
      (by simp [llInForce, alphabetSize]) h hk fun n mid u _ _ _ => ⟨BitVec.ofNat 9 n, u.dsym, rfl⟩
    exact ⟨_, e, hx⟩

/-- Where the table of the next code does not build, the fetch raises before it reads (log 13). -/
theorem coreFetch_invalidTree {s : State} {c : Context} (hc : contextOf s = some c)
    (h : decode c (bitsAhead s) = .error .invalidTree) :
    ∃ x : Op Instr, coreFetch s = Fetched.ofRes (x s) ∧ x s = .raised (takeError .invalidHuffmanTree s) := by
  rcases contextOf_cases hc with ⟨rfl, e⟩ | ⟨rfl, e⟩ | ⟨rfl, e⟩ | ⟨rfl, e⟩
  · cases (decode_header_error h).1
  · exact ⟨_, e, bind_of_raised (huffDecode_of_none (decodeCoded_invalidTree h))⟩
  · exact ⟨_, e, bind_of_raised (huffDecode_of_none (decodeCoded_invalidTree h))⟩
  · exact ⟨_, e, bind_of_raised (huffDecode_of_none (decodeCoded_invalidTree h))⟩

/-- Settles O3: the fetch of the element raises as the decoder rejects, and the step ends there. -/
theorem stepRejectsAsTheDecoderDoes : Obligations.StepRejectsAsTheDecoderDoes := by
  intro s c hr hs room hc
  have hb : RoomForBits s 47 := room.forBits (by decide)
  refine ⟨fun h h16 => ?_, fun h => ?_, fun h => ?_⟩
  · obtain ⟨x, e, u, hx, ha, -, hd, hl⟩ := coreFetch_rejects hs hb hc h .bitsEnd fun _ => h16
    exact ⟨u, step_of_raised hr e hx, ha, (readBit_of_none ha).1, hd, hl⟩
  · obtain ⟨x, e, u, hx, ha, ho, hd, hl⟩ := coreFetch_rejects hs hb hc h .noCode nofun
    exact ⟨u, step_of_raised hr e hx, ha, ho, hd, hl⟩
  · obtain ⟨x, e, hx⟩ := coreFetch_invalidTree hc h
    exact step_of_raised hr e hx

end Sys2Proof.Machine

/-! # The tracking writer: the history of the output, copies, CRC-32 (41_tracking_writer.md) -/

namespace Sys2Proof.Machine

/-! ## The history after CORE's reset and through a step (10_state.md R32 to R34, 41_tracking_writer.md R150) -/

/-- Where COUNT and CRC are as after reset, nothing has been output, whatever the sink held before. -/
theorem outputIs_of_empty {s : State} (hn : s.count = 0) (hc : s.crc = Config.crcInit) : OutputIs s s.snk [] :=
  ⟨(List.append_nil _).symm, hn, hc, fun k hk => absurd hk (by omega)⟩

/-- The history is a matter of the sink, COUNT, CRC and WIN. -/
theorem OutputIs.congr {s t : State} {pre out : List Byte} (h : OutputIs s pre out) (hs : t.snk = s.snk)
    (hn : t.count = s.count) (hc : t.crc = s.crc) (hw : t.win = s.win) : OutputIs t pre out := by
  simpa only [OutputIs, hs, hn, hc, hw] using h

/-- `out` and some more bytes are what was output since reset. -/
def OutputExtends (pre out : List Byte) (s : State) : Prop := ∃ more, OutputIs s pre (out ++ more)

theorem OutputIs.extends {s : State} {pre out : List Byte} (h : OutputIs s pre out) : OutputExtends pre out s :=
  ⟨[], by rwa [List.append_nil]⟩

theorem OutputExtends.putByte {s : State} {pre out : List Byte} (b : Byte) (h : OutputExtends pre out s) :
    OutputExtends pre out (putByte b s) := by
  obtain ⟨more, h⟩ := h
  exact ⟨more ++ [b], List.append_assoc out more [b] ▸ putByte_outputIs b h⟩

/-- Of the primitives of CORE only an output byte touches the history, and it extends it. -/
theorem outputExtends_primitives (pre out : List Byte) :
    Primitives (Kept (OutputExtends pre out)) (Kept (OutputExtends pre out)) :=
  Primitives.ofKept (fun _ _ h => h)
    (fun _ _ _ h e => by
      rcases readBit_ok e with ⟨-, -, rfl⟩ | ⟨-, -, -, -, -, -, rfl⟩ <;> exact h)
    (fun _ _ _ h e => by
      rw [(srcNext_ok e).2.2]
      exact h)
    (fun b _ h => h.putByte b)
    (fun _ h => h)
    (fun _ _ w ⟨more, h⟩ => ⟨more, h.congr w.snk w.count w.crc w.win⟩)
    (fun _ _ h => h)

/-- The end of a block leaves the history alone. -/
theorem OutputExtends.endBlock {s : State} {pre out : List Byte} (h : OutputExtends pre out s) :
    OutputExtends pre out (endBlock s) := by
  cases hf : isFinal s
  · rw [endBlock_of_not_final s hf]
    exact h
  · rw [endBlock_of_final s hf]
    exact h

/-- Settles O49: a step that does not start CORE extends the history; one that does puts COUNT and CRC at their reset
values and keeps the sink. -/
theorem stepKeepsTheHistory : Obligations.StepKeepsTheHistory := by
  refine ⟨outputIs_of_empty (s := State.reset) rfl rfl, fun s t pre out h e => ?_⟩
  rcases step_kept_or_started (outputExtends_primitives pre out) (fun _ h => h.endBlock) (fun _ _ h => h)
    (fun _ _ _ h _ => h) h.extends e with ⟨ht, hn⟩ | ⟨hs, hp, b, rest, g, -, rfl⟩
  · rw [if_neg fun ⟨hs, hp⟩ => hn hs hp]
    exact ht
  · rw [if_pos ⟨hs, hp⟩]
    exact outputIs_of_empty (s := resetCore (setGz g { s with src := rest })) rfl rfl

/-! ## Room in the sink, and the window indices output bytes leave alone -/

/-- After `n` output bytes there is room for the others. -/
theorem RoomOut.after {s t : State} {n m : Nat} (h : RoomOut s (n + m)) (hn : t.count = s.count + n)
    (hf : t.snkFailAt = s.snkFailAt) : RoomOut t m := by
  obtain ⟨hc, hk⟩ := h
  rw [RoomOut, hn, hf]
  refine ⟨by omega, fun k e => ?_⟩
  have := hk k e
  omega

theorem RoomOut.mono {s : State} {n m : Nat} (h : RoomOut s m) (hn : n ≤ m) : RoomOut s n := by
  obtain ⟨hc, hk⟩ := h
  refine ⟨by omega, fun k e => ?_⟩
  have := hk k e
  omega

theorem WindowKept.refl (s : State) : WindowKept s s 0 := fun _ _ => rfl

theorem WindowKept.trans {s t u : State} {n m : Nat} (h : WindowKept s t n) (hn : t.count = s.count + n)
    (h' : WindowKept t u m) : WindowKept s u (n + m) := fun a ha => by
  have hu : Memory.read u.win a = Memory.read t.win a := h' a fun j hj => by
    rw [hn, Nat.add_assoc]
    exact ha (n + j) (by omega)
  exact hu.trans (h a fun j hj => ha j (by omega))

theorem putByte_windowKept (b : Byte) (s : State) : WindowKept s (putByte b s) 1 := fun _ ha =>
  Memory.read_write_other s.win b (ha 0 Nat.one_pos).symm

/-! ## Written bytes (41_tracking_writer.md R151, R152) -/

/-- Settles O19: the byte has room, or the test of the sink comes first. -/
theorem writeByteEffects : Obligations.WriteByteEffects := fun _ _ =>
  ⟨fun h => (writeByte_of_room (n := 0) h).1, fun h => if_pos h⟩

/-- Settles O20, by induction on the bytes: each of them extends the history and leaves room for the rest. -/
theorem writeBytesKeepHistory : Obligations.WriteBytesKeepHistory := by
  intro bs
  induction bs with
  | nil => exact fun s pre out h _ => ⟨s, rfl, by rwa [List.append_nil], rfl, WindowKept.refl s⟩
  | cons b bs ih =>
    intro s pre out h room
    obtain ⟨hb, room'⟩ := writeByte_of_room (b := b) room
    obtain ⟨t, ht, ho, hf, hw⟩ := ih (putByte b s) pre (out ++ [b]) (putByte_outputIs b h) room'
    refine ⟨t, (andThen_of_ok hb).trans ht, ?_, OutputOnly.trans (t := putByte b s) rfl hf, ?_⟩
    · rwa [List.append_assoc] at ho
    · rw [List.length_cons, Nat.add_comm]
      exact (putByte_windowKept b s).trans rfl hw

/-! ## Copies (41_tracking_writer.md R156 to R158) -/

theorem CopiedBack.refl {s : State} (ok : OutputOk s) (dist : Nat) : CopiedBack s s 0 dist :=
  ⟨rfl, rfl, List.prefix_refl _, fun _ hi => absurd hi (Nat.not_lt_zero _), ok, WindowKept.refl s⟩

/-- The window read of a copy gives the sink's byte `dist` before its end. -/
theorem window_read_snk {s : State} {dist : Nat} (ok : OutputOk s) (h1 : 1 ≤ dist)
    (h2 : dist ≤ min Config.wsize s.count) :
    ∃ b, Memory.read s.win ((s.count - dist) % Config.wsize) = some b ∧ s.snk[s.snk.length - dist]? = some b := by
  obtain ⟨pre, out, ho⟩ := ok
  obtain ⟨b, hr, hb⟩ := window_read ho h1 h2
  obtain ⟨hs, hn, -, -⟩ := ho
  refine ⟨b, hr, ?_⟩
  rw [hs, List.length_append, List.getElem?_append_right (by omega), ← hb]
  congr 1
  omega

/-- After `n` bytes of a copy, `dist` before the end stands the byte that number `n` of the copy repeats: a byte from
before the copy while `n < dist`, a byte of the copy itself from then on. -/
theorem CopiedBack.source {s t : State} {n dist : Nat} (h : CopiedBack s t n dist) (h1 : 1 ≤ dist)
    (h2 : dist ≤ s.snk.length) : t.snk[t.snk.length - dist]? = s.snk[s.snk.length - dist + n % dist]? := by
  obtain ⟨-, hl, ⟨tail, hp⟩, hc, -⟩ := h
  rw [hl]
  by_cases hn : n < dist
  · rw [Nat.mod_eq_of_lt hn, ← hp, List.getElem?_append_left (by omega)]
    congr 1
    omega
  · rw [show s.snk.length + n - dist = s.snk.length + (n - dist) by omega, hc _ (by omega),
      Nat.mod_eq_sub_mod (not_lt.1 hn)]

/-- One more byte of a copy. -/
theorem CopiedBack.putByte {s t : State} {n dist : Nat} {b : Byte} (h : CopiedBack s t n dist) (h1 : 1 ≤ dist)
    (h2 : dist ≤ s.snk.length) (hb : t.snk[t.snk.length - dist]? = some b) :
    CopiedBack s (putByte b t) (n + 1) dist := by
  have hsrc := (h.source h1 h2).symm.trans hb
  obtain ⟨hn, hl, hp, hc, ok, hw⟩ := h
  refine ⟨congrArg (· + 1) hn, ?_, hp.trans (List.prefix_append _ _), fun i hi => ?_, putByte_outputOk b ok,
    hw.trans hn (putByte_windowKept b t)⟩
  · simp [hl, Nat.add_assoc]
  · simp only [putByte_fields]
    rcases Nat.lt_succ_iff_lt_or_eq.1 hi with hi | rfl
    · rw [List.getElem?_append_left (by omega)]
      exact hc i hi
    · rw [← hl, List.getElem?_concat_length]
      exact hsrc.symm

/-- As long as the sink takes the bytes, a copy from a distance the history covers goes on byte by byte: after `n` of
its `n + m` bytes, `m` are left to copy. -/
theorem copyBack_of_room {s : State} {dist : Nat} (ok : OutputOk s) (h1 : 1 ≤ dist)
    (h2 : dist ≤ min Config.wsize s.count) (n m : Nat) (room : RoomOut s n) :
    ∃ t, copyBack (n + m) dist s = copyBack m dist t ∧ CopiedBack s t n dist ∧ OutputOnly s t := by
  have hl : dist ≤ s.snk.length := by
    obtain ⟨pre, out, hs, hn, -⟩ := ok
    rw [hs, List.length_append]
    omega
  induction n generalizing m with
  | zero => exact ⟨s, by rw [Nat.zero_add], CopiedBack.refl ok dist, rfl⟩
  | succ n ih =>
    obtain ⟨t, e, hc, hf⟩ := ih (m + 1) (room.mono (Nat.le_succ n))
    have ⟨hn, _, _, _, ok', _⟩ := hc
    obtain ⟨b, hr, hb⟩ := window_read_snk ok' h1 (by omega)
    have hw := (writeByte_of_room (b := b) (n := 0) (room.after hn (by rw [hf]))).1
    refine ⟨putByte b t, ?_, hc.putByte h1 hl hb, hf.trans rfl⟩
    rw [Nat.succ_add_eq_add_succ, e, copyBack_step hr hw]

/-- Settles O21: the distance is legal, so the copy starts, and all of its bytes have room. -/
theorem writePreviousCopies : Obligations.WritePreviousCopies := by
  intro len dist s ok h1 h2 room
  obtain ⟨t, e, hc, hf⟩ := copyBack_of_room ok h1 h2 len 0 room
  refine ⟨t, ?_, hc, hf⟩
  rcases writePrevious_cases len dist s with ⟨h0, -⟩ | ⟨-, h, -⟩ | ⟨-, -, h⟩
  · omega
  · exact absurd h2 (not_le.2 h)
  · exact h.trans e

/-- Settles O22: the two tests at the entry of `WritePrevious`, and the one at the entry of `ReadBits`. -/
theorem writePreviousRejects : Obligations.WritePreviousRejects := by
  refine fun len dist s => ⟨fun h => ?_, rfl, fun h => if_neg (not_le.2 h)⟩
  have h0 : dist ≠ 0 := Nat.ne_zero_of_lt h
  exact (if_neg h0).trans (if_pos h)

/-! ## CRC-32 (41_tracking_writer.md R153 to R155) -/

/-- A shift of the CRC register is linear over xor. -/
theorem crcShift_xor (c d : BitVec 32) : crcShift (c ^^^ d) = crcShift c ^^^ crcShift d := by
  simp only [crcShift, BitVec.getLsbD_xor, BitVec.ushiftRight_xor_distrib]
  cases c.getLsbD 0 <;> cases d.getLsbD 0
  case false.false => rfl
  case true.false =>
    show c >>> 1 ^^^ d >>> 1 ^^^ Config.crcPoly = c >>> 1 ^^^ Config.crcPoly ^^^ d >>> 1
    ac_rfl
  case false.true =>
    show c >>> 1 ^^^ d >>> 1 ^^^ Config.crcPoly = c >>> 1 ^^^ (d >>> 1 ^^^ Config.crcPoly)
    ac_rfl
  case true.true =>
    calc c >>> 1 ^^^ d >>> 1
      _ = c >>> 1 ^^^ d >>> 1 ^^^ (Config.crcPoly ^^^ Config.crcPoly) := by rw [BitVec.xor_self, BitVec.xor_zero]
      _ = c >>> 1 ^^^ Config.crcPoly ^^^ (d >>> 1 ^^^ Config.crcPoly) := by ac_rfl

theorem crcShifts_xor (k : Nat) (c d : BitVec 32) : crcShifts k (c ^^^ d) = crcShifts k c ^^^ crcShifts k d := by
  induction k generalizing c d with
  | zero => rfl
  | succ k ih => rw [crcShifts, crcShift_xor, ih, crcShifts, crcShifts]

/-- While only zeros leave the register, its shifts are plain shifts. -/
theorem crcShifts_of_low_zero (k : Nat) (c : BitVec 32) (h : ∀ i < k, c.getLsbD i = false) :
    crcShifts k c = c >>> k := by
  induction k generalizing c with
  | zero => exact (BitVec.ushiftRight_zero c).symm
  | succ k ih =>
    have h0 : crcShift c = c >>> 1 := if_neg (Bool.eq_false_iff.1 (h 0 k.succ_pos))
    have hk : ∀ i < k, (c >>> 1).getLsbD i = false := fun i hi => by
      rw [BitVec.getLsbD_ushiftRight]
      exact h (1 + i) (by omega)
    rw [crcShifts, h0, ih _ hk, ← BitVec.shiftRight_add, Nat.add_comm]

/-- Settles O23: the register is its low byte xor the rest; by linearity the low byte goes through the table and the
rest, whose low byte is zero, is only shifted. -/
theorem crcTableDriven : Obligations.CrcTableDriven := by
  intro c b
  have hsplit : c ^^^ b.setWidth 32 = (0#32 ^^^ (c.setWidth 8 ^^^ b).setWidth 32) ^^^ (c >>> 8) <<< 8 := by
    refine BitVec.eq_of_getLsbD_eq fun i hi => ?_
    by_cases h : i < 8
    · simp [h, hi]
    · simp [h, hi, show 8 + (i - 8) = i by omega, Bool.xor_comm]
  have hlow : crcShifts 8 ((c >>> 8) <<< 8) = c >>> 8 := by
    rw [crcShifts_of_low_zero 8 _ fun i hi => by simp [hi]]
    refine BitVec.eq_of_getLsbD_eq fun i hi => ?_
    simpa using BitVec.lt_of_getLsbD (x := c) (i := 8 + i)
  rw [crcStep, hsplit, crcShifts_xor, hlow]
  rfl

/-- Settles O24: the accessors by definition, the values by running CRC-32 over at most nine bytes. -/
theorem crcKnownValues : Obligations.CrcKnownValues :=
  ⟨fun _ => ⟨rfl, rfl⟩, by decide, by decide +kernel, by decide +kernel⟩

end Sys2Proof.Machine

/-! # The Huffman construction: its failures, its table, its round trip (42_huffman.md R170 to R178) -/

namespace Sys2Proof

open Machine

/-! ## The budget (R172): the first code of length 16 is twice the Kraft sum -/

theorem lenCount_cons (M : Nat) (lens : List Nat) (L : Nat) :
    lenCount (M :: lens) L = lenCount lens L + if M ≠ 0 ∧ M = L then 1 else 0 := by
  by_cases h0 : L = 0
  · simp [lenCount, h0]
  · by_cases hM : M = L
    · subst hM
      simp [lenCount, h0]
    · simp [lenCount, h0, hM]

/-- One more symbol of length `M` moves the first code of every greater length up by all extensions of its code. -/
theorem firstCode_cons (M : Nat) (lens : List Nat) (L : Nat) :
    firstCode (M :: lens) L = firstCode lens L + if M ≠ 0 ∧ M < L then 2 ^ (L - M) else 0 := by
  induction L with
  | zero => simp [firstCode]
  | succ L ih =>
    rw [firstCode_succ, firstCode_succ, ih, lenCount_cons]
    rcases Nat.lt_trichotomy M L with h | h | h
    · rw [Nat.succ_sub h.le, pow_succ]
      split_ifs <;> omega
    · subst h
      rw [Nat.add_sub_cancel_left]
      split_ifs <;> omega
    · split_ifs <;> omega

theorem kraftUnits_cons (M : Nat) (lens : List Nat) :
    kraftUnits (M :: lens) = kraftUnits lens + if M ≠ 0 then 2 ^ (15 - M) else 0 := by
  by_cases h : M = 0
  · simp [kraftUnits, h]
  · simp [kraftUnits, h, Nat.add_comm]

theorem firstCode_sixteen {lens : List Nat} (h : ∀ L ∈ lens, L ≤ 15) : firstCode lens 16 = 2 * kraftUnits lens := by
  induction lens with
  | nil => rfl
  | cons M lens ih =>
    have hM : M ≤ 15 := h M List.mem_cons_self
    rw [firstCode_cons, kraftUnits_cons, ih fun L hL => h L (List.mem_cons_of_mem M hL),
      show 16 - M = 15 - M + 1 by omega, pow_succ]
    split_ifs <;> omega

/-- The length test of R172 fails at some length exactly when it fails at the last one. -/
theorem overSubscribed_iff (lens : List Nat) : overSubscribed lens = true ↔ 2 ^ 16 < firstCode lens 16 := by
  simp only [overSubscribed, List.any_eq_true, decide_eq_true_eq, List.mem_range'_1, Config.maxBits]
  constructor
  · rintro ⟨L, hL, h⟩
    have hext := firstCode_extend lens L (15 - L)
    rw [show L + (15 - L + 1) = 16 by omega] at hext
    calc 2 ^ 16 = 2 ^ L * 2 ^ (15 - L + 1) := by rw [← pow_add]; congr 1; omega
      _ < (firstCode lens L + lenCount lens L) * 2 ^ (15 - L + 1) := Nat.mul_lt_mul_of_pos_right h (Nat.two_pow_pos _)
      _ ≤ firstCode lens 16 := hext
  · intro h
    rw [firstCode_succ] at h
    exact ⟨15, by omega, by omega⟩

/-- A table builds exactly within the length limit and the Kraft budget (R172, R173). -/
theorem huffBuild_isSome_iff_kraftUnits (lens : List Nat) :
    (huffBuild lens).isSome = true ↔ (∀ L ∈ lens, L ≤ 15) ∧ kraftUnits lens ≤ 2 ^ 15 := by
  rw [huffBuild_isSome_iff]
  refine and_congr_right fun h => ?_
  rw [← Bool.not_eq_true, overSubscribed_iff, firstCode_sixteen h]
  omega

/-- Settles O9: the negation of `huffBuild_isSome_iff_kraftUnits`. -/
theorem huffBuildFailsExactlyOverBudget : Obligations.HuffBuildFailsExactlyOverBudget := by
  intro lens
  rw [← Option.not_isSome_iff_eq_none, huffBuild_isSome_iff_kraftUnits, not_and_or]
  simp

/-! ## The table (R174) -/

variable {lens : List Nat} {T : List CodeEntry}

/-- Every symbol with a non-zero length has a code of that length (R170). -/
theorem exists_entry (h : huffBuild lens = some T) {n : Nat} (hn : lens.getD n 0 ≠ 0) :
    ∃ e ∈ T, e.sym = n ∧ e.len = lens.getD n 0 := by
  have hlt : n < lens.length := by
    by_contra hge
    exact hn (List.getD_eq_default _ _ (Nat.not_lt.1 hge))
  have hl : lens[n]? = some (lens.getD n 0) := by
    rw [List.getD_eq_getElem?_getD, List.getElem?_eq_getElem hlt]
    rfl
  exact ⟨⟨lens.getD n 0, firstCode lens (lens.getD n 0) + (lens.take n).count (lens.getD n 0), n⟩,
    (mem_huffBuild h).2 ⟨hl, hn, rfl⟩, rfl, rfl⟩

/-- A code that begins another is the code of the same symbol: the decoder reads one symbol from the longer code. -/
theorem entry_sym_of_prefix (h : huffBuild lens = some T) {e f : CodeEntry} (he : e ∈ T) (hf : f ∈ T)
    (hp : codeBits e.len e.code <+: codeBits f.len f.code) : e.sym = f.sym := by
  obtain ⟨rest, hrest⟩ := hp
  have h1 : decodeSymbol lens (codeBits f.len f.code) = .ok (e.sym, rest) :=
    decodeSymbol_ok_iff.2 ⟨_, symbolBits_entry h he, hrest.symm⟩
  have h2 : decodeSymbol lens (codeBits f.len f.code) = .ok (f.sym, []) :=
    decodeSymbol_ok_iff.2 ⟨_, symbolBits_entry h hf, (List.append_nil _).symm⟩
  exact congrArg Prod.fst (Except.ok.inj (h1.symm.trans h2))

/-- A shorter code extended with zeros is below every longer code. -/
theorem entry_code_extend_lt (h : huffBuild lens = some T) {e f : CodeEntry} (he : e ∈ T) (hf : f ∈ T)
    (hl : e.len < f.len) : e.code * 2 ^ (f.len - e.len) < f.code := by
  obtain ⟨m, hm⟩ := Nat.exists_eq_add_of_lt hl
  rw [show f.len - e.len = m + 1 by omega]
  calc e.code * 2 ^ (m + 1) < (e.code + 1) * 2 ^ (m + 1) :=
        Nat.mul_lt_mul_of_pos_right (Nat.lt_succ_self _) (Nat.two_pow_pos _)
    _ ≤ f.code := (Nat.le_div_iff_mul_le (Nat.two_pow_pos _)).1 (entry_code_lt_cut h he hf hm.symm)

/-- Settles O10: property by property, from the rules about the entries. -/
theorem huffTableIsCanonicalAndPrefixFree : Obligations.HuffTableIsCanonicalAndPrefixFree := by
  intro lens T h
  refine ⟨fun e he => ?_, fun n hn => ?_, fun e he f hf hs hp => hs (entry_sym_of_prefix h he hf hp),
    fun e he f hf => entry_eq_of_sym h he hf, fun e he f hf => entry_code_lt_of_sym_lt h he hf,
    fun e he f hf => entry_code_extend_lt h he hf⟩
  · obtain ⟨hl, -, hc⟩ := (mem_huffBuild h).1 he
    obtain ⟨h1, h15⟩ := entry_len_bounds h he
    exact ⟨h1, h15, entry_code_lt h he, hl, hc⟩
  · obtain ⟨e, he, hs, -⟩ := exists_entry h hn
    exact ⟨e, he, hs⟩

/-! ## Symbols with a code -/

/-- In lengths that build, a symbol of non-zero length has bits, as many as its length (R174). -/
theorem exists_symbolBits (h : (huffBuild lens).isSome = true) {n : Nat} (hn : lens.getD n 0 ≠ 0) :
    ∃ code, symbolBits lens n = some code ∧ code.length = lens.getD n 0 := by
  obtain ⟨T, hT⟩ := Option.isSome_iff_exists.1 h
  obtain ⟨e, he, rfl, hl⟩ := exists_entry hT hn
  exact ⟨_, symbolBits_entry hT he, by rw [length_codeBits, hl]⟩

/-- Settles O11: the lengths are within the budget, and `HuffDecode` reads what the decoder reads. -/
theorem huffmanRoundTrip : Obligations.HuffmanRoundTrip := by
  intro lens h15 hk
  have hb := (huffBuild_isSome_iff_kraftUnits lens).2 ⟨h15, hk⟩
  refine ⟨hb, fun n hn => ?_⟩
  obtain ⟨code, hc, hlen⟩ := exists_symbolBits hb hn
  refine ⟨code, hc, hlen, fun s rest hs hr ha => ?_⟩
  obtain ⟨t, _, e, -, ht, -, -⟩ :=
    huffDecode_after hs (hr.forBits (by decide)) (decodeSymbol_ok_iff.2 ⟨code, hc, ha⟩)
  exact ⟨t, e, ht.ahead, ht.ok⟩

/-- A well-formed coded element is of the context's alphabet, and its symbol has a length in a table that builds
(R104, R170, R172). -/
theorem alphabet_and_table_of_wellFormed {c : Context} (hc : c ≠ .header) {i : Instr} (h : WellFormed c i = true) :
    alphabetOf i = c.alphabet ∧ c.lens.getD (numberOf i) 0 ≠ 0 ∧ (huffBuild c.lens).isSome = true := by
  have hh : c.alphabet ≠ .header := by
    cases c with
    | header => exact absurd rfl hc
    | treeCode lens | litLen lens | dist lens => exact nofun
  simp only [WellFormed, Bool.and_eq_true, Bool.or_eq_true, beq_iff_eq, hh, false_or, bne_iff_ne, Bool.not_eq_true',
    List.any_eq_false, decide_eq_true_eq, Nat.not_lt] at h
  obtain ⟨ha, ⟨⟨-, hn⟩, h15⟩, hb⟩ := h
  exact ⟨ha, hn, (huffBuild_isSome_iff c.lens).2 ⟨h15, hb⟩⟩

/-- Settles O8: a header is always encodable; a coded element is where its symbol has a code. -/
theorem encodableExactlyWhenWellFormed : Obligations.EncodableExactlyWhenWellFormed := by
  intro c i
  rw [Bool.eq_iff_iff, Option.isSome_iff_exists]
  refine ⟨fun h => ?_, fun ⟨_, h⟩ => wellFormed_of_encode h⟩
  by_cases hc : c = .header
  · subst hc
    have ha : alphabetOf i = .header := by simpa [WellFormed, Context.alphabet] using h
    exact ⟨_, encode_header_iff.2 ⟨ha, rfl⟩⟩
  · obtain ⟨ha, hn, hb⟩ := alphabet_and_table_of_wellFormed hc h
    obtain ⟨code, hs, -⟩ := exists_symbolBits hb hn
    exact ⟨_, (encode_coded_iff hc).2 ⟨ha, code, hs, rfl⟩⟩

end Sys2Proof

/-! # CORE always ends (43_blocks.md R213, 00_scope.md R9) -/

namespace Sys2Proof.Machine

/-! ## What is left to read -/

/-- A bit read is a bit fewer left to read (40_bitreader.md R130). -/
theorem readBit_bitsLeft {s t : State} {b : Bool} (h : readBit s = .ok b t) : bitsLeft t + 1 = bitsLeft s := by
  rcases readBit_ok h with ⟨hc, -, rfl⟩ | ⟨hc, c, rest, hs, -, -, rfl⟩
  · have hc0 := mt bc_eq_zero_iff.2 hc
    simp only [bitsLeft, shiftBit_fields]
    bv_omega
  · rw [bc_eq_zero_iff] at hc
    have h7 : (8 - 1 : BitVec 4).toNat = 7 := rfl
    simp only [bitsLeft, shiftBit_fields, loadByte_fields, hs, hc, h7, List.length_cons]
    omega

theorem srcNext_bitsLeft {s t : State} {b : Byte} (h : srcNext s = .ok b t) : bitsLeft t + 8 = bitsLeft s := by
  obtain ⟨hs, -, ht⟩ := srcNext_ok h
  have hc : t.bc = s.bc := by rw [ht]
  simp only [bitsLeft, hs, hc, List.length_cons]
  omega

/-- No primitive of CORE adds to what is left to read. -/
theorem bitsLeft_primitives (n : Nat) :
    Primitives (Kept fun s => bitsLeft s ≤ n) (Kept fun s => bitsLeft s ≤ n) :=
  Primitives.ofKept (fun _ _ h => h)
    (fun _ _ _ h e => by have := readBit_bitsLeft e; omega)
    (fun _ _ _ h e => by have := srcNext_bitsLeft e; omega)
    (fun _ _ h => h)
    (fun s h => le_trans (by simp [bitsLeft]) h)
    (fun _ _ w h => by rwa [bitsLeft, w.bc, w.src])
    (fun _ _ h => h)

theorem exec_bitsLeft {i : Instr} {s t : State} (h : exec i s = .next t) : bitsLeft t ≤ bitsLeft s := by
  rcases (bitsLeft_primitives (bitsLeft s)).exec i h with h | h
  · exact h le_rfl
  · exact h le_rfl

theorem readBitsFrom_bitsLeft {n i v x : Nat} {s t : State} (h : readBitsFrom n i v s = .ok x t) :
    bitsLeft t + n = bitsLeft s := by
  induction n generalizing i v s with
  | zero =>
    cases h
    rfl
  | succ n ih =>
    obtain ⟨b, u, h1, h2⟩ := bind_ok_iff.1 h
    have := readBit_bitsLeft h1
    have := ih h2
    omega

theorem readBits_bitsLeft {n x : Nat} {s t : State} (h : readBits n s = .ok x t) : bitsLeft t + n = bitsLeft s := by
  rw [readBits] at h
  split at h
  · exact readBitsFrom_bitsLeft h
  · cases h

/-- A code has at least one bit (42_huffman.md R170, R175). -/
theorem huffLoop_bitsLeft {T : List CodeEntry} {k n : Nat} {s t : State} (h : huffLoop T k s = .ok n t) :
    bitsLeft t < bitsLeft s := by
  induction k generalizing s with
  | zero => cases h
  | succ k ih =>
    obtain ⟨b, u, h1, h2⟩ := bind_ok_iff.1 h
    have hu := readBit_bitsLeft h1
    have hv : bitsLeft (shiftIn b u) = bitsLeft u := rfl
    rw [modify_andThen] at h2
    split at h2
    · cases h2
      omega
    · have := ih h2
      omega

theorem huffDecode_bitsLeft {lens : List Nat} {n : Nat} {s t : State} (h : huffDecode lens s = .ok n t) :
    bitsLeft t < bitsLeft s := by
  rw [huffDecode] at h
  split at h
  · cases h
  · exact huffLoop_bitsLeft (s := clearAcc s) h

/-- Every element has at least one bit. -/
theorem coreFetch_element_bitsLeft {i : Instr} {s t : State} (h : coreFetch s = .element i t) :
    bitsLeft t < bitsLeft s := by
  rcases coreFetch_element h with ⟨-, h⟩ | ⟨-, -, h⟩ | ⟨-, -, h⟩ | ⟨-, -, h⟩
  · obtain ⟨f, u, b, v, x, h1, h2, h3, -⟩ := fetchHeader_ok h
    have := readBits_bitsLeft h1
    have : bitsLeft v + 2 = bitsLeft u := (readBits_bitsLeft h2 :)
    have : bitsLeft t + 0 = bitsLeft v := (readBits_bitsLeft h3 :)
    omega
  · obtain ⟨n, u, x, h1, -, h2, -⟩ := fetchTree_ok h
    have := huffDecode_bitsLeft h1
    have := readBits_bitsLeft h2
    omega
  · obtain ⟨n, u, x, h1, h2, -⟩ := fetchDist_ok h
    have := huffDecode_bitsLeft h1
    have : bitsLeft t + _ = bitsLeft u := (readBits_bitsLeft h2 :)
    omega
  · obtain ⟨n, u, x, h1, h2, -⟩ := fetchLitLen_ok h
    have := huffDecode_bitsLeft h1
    have : bitsLeft t + _ = bitsLeft u := (readBits_bitsLeft h2 :)
    omega

/-! ## How many steps are left -/

/-- A bound on the steps CORE takes until it ends: two for each bit left, and those on the way to the next read. -/
def stepsLeft (s : State) : Nat :=
  2 * bitsLeft s + if s.st = .readBlockHeader ∨ s.st = .decodeSymbols then 1 else 2

theorem stepsLeft_le (s : State) : stepsLeft s ≤ 2 * bitsLeft s + 2 := by
  rw [stepsLeft]
  split <;> omega

theorem lt_stepsLeft (s : State) : 2 * bitsLeft s < stepsLeft s := by
  rw [stepsLeft]
  split <;> omega

/-- An element leaves fewer steps: it takes a bit, and a bit is worth two steps. -/
theorem element_stepsLeft {i : Instr} {s t u : State} (h : coreFetch s = .element i t) (e : exec i t = .next u) :
    stepsLeft u < stepsLeft s := by
  have := coreFetch_element_bitsLeft h
  have := exec_bitsLeft e
  have := stepsLeft_le u
  have := lt_stepsLeft s
  omega

/-- A move of CORE that does not end it brings it to its next read. -/
theorem stepsLeft_of_reads {s t : State} (hb : bitsLeft t ≤ bitsLeft s)
    (ht : t.st = .readBlockHeader ∨ t.st = .decodeSymbols)
    (hs : ¬ (s.st = .readBlockHeader ∨ s.st = .decodeSymbols)) : stepsLeft t < stepsLeft s := by
  rw [stepsLeft, stepsLeft, if_pos ht, if_neg hs]
  omega

theorem endBlock_ends_or_reads (s : State) : Ended (endBlock s) ∨ endBlock s = setState .readBlockHeader s := by
  cases hf : isFinal s
  · exact .inr (endBlock_of_not_final s hf)
  · rw [endBlock_of_final s hf]
    exact .inl (.inl rfl)

/-- A decode that raises ends CORE. -/
theorem ended_of_decode {x : Op Instr} (hx : Relates RunsOn EndsInError x) {s t : State}
    (h : Fetched.ofRes (x s) = .move (.next t)) : Ended t := by
  cases hr : x s <;> rw [hr] at h <;> cases h
  exact .inr ((hx s).2 _ hr).st

/-- A move of CORE ends it or leaves fewer steps. -/
theorem move_ends_or_stepsLeft {s t : State} (ok : ControlOk s) (hn : ¬ Ended s)
    (h : coreFetch s = .move (.next t)) : Ended t ∨ stepsLeft t < stepsLeft s := by
  have p := status_primitives
  obtain ⟨nStored, nFixed, -⟩ := ok
  unfold coreFetch at h
  split at h <;> rename_i hs
  · cases h
    exact .inr (stepsLeft_of_reads le_rfl (.inl rfl) (by simp [hs]))
  · exact .inl (ended_of_decode p.fetchHeader h)
  · exact absurd hs nStored
  · exact absurd hs nFixed
  · split at h
    · exact .inl (ended_of_decode p.fetchTree h)
    · have h' := Fetched.move.inj h
      rcases splitAndBuild_cases s with ⟨-, -, e⟩ | ⟨-, e⟩
      · cases (run_of_ok e).symm.trans h'
        exact .inr (stepsLeft_of_reads le_rfl (.inr rfl) (by simp [hs]))
      · cases (run_of_raised e).symm.trans h'
        exact .inl (.inr rfl)
  · split at h
    · exact .inl (ended_of_decode p.fetchDist h)
    · exact .inl (ended_of_decode p.fetchLitLen h)
  · cases h
    rcases endBlock_ends_or_reads s with he | he
    · exact .inl he
    · rw [he]
      exact .inr (stepsLeft_of_reads le_rfl (.inl rfl) (by simp [hs]))
  · exact absurd (.inl hs) hn
  · exact absurd (.inr hs) hn

/-! ## Runs -/

/-- A sound state of CORE, alone or started by the host. -/
def CoreSound (s : State) : Prop := (s.gz.phase = .bare ∨ s.gz.phase = .core) ∧ Sound s

/-- Until CORE has ended, it takes the steps. -/
theorem CoreSound.coreRuns {s : State} (h : CoreSound s) (hn : ¬ Ended s) : CoreRuns s := by
  obtain ⟨hp, -, -, -, ⟨hd, he, -⟩, -⟩ := h
  refine hp.imp_right fun hp => ⟨hp, ?_, not_not.1 fun e => hn (.inr (he.1 e))⟩
  have : s.done ≠ 1 := fun e => hn (.inl (hd.1 e))
  bv_omega

/-- A step of CORE leaves the host alone. -/
theorem follow_coreFetch_gz {s t : State} (h : follow (coreFetch s) = .next t) : t.gz = s.gz := by
  rcases (gz_primitives s.gz).core h with ⟨-, h | h⟩ | ⟨-, rfl⟩ | ⟨-, rfl⟩
  · exact h rfl
  · exact h rfl
  · exact endBlock_gz s
  · rfl

theorem CoreSound.next {s t : State} (h : CoreSound s) (hn : ¬ Ended s) (e : step s = .next t) : CoreSound t := by
  have hg : t.gz = s.gz := by
    rw [step_eq, fetch_of_coreRuns (h.coreRuns hn)] at e
    exact follow_coreFetch_gz e
  obtain ⟨hp, hb, ⟨pre, out, ho⟩, hw, hs, hc⟩ := h
  have ho' := stepKeepsTheHistory.2 s t pre out ho e
  rw [if_neg (by rw [hg]; exact fun h => h.1 h.2)] at ho'
  obtain ⟨more, ho'⟩ := ho'
  exact ⟨hg ▸ hp, stepKeepsTheBitReader s t hb e, ⟨pre, _, ho'⟩, stepKeepsTheWindowForm s t hw e,
    stepKeepsTheStatus s t hs e, stepKeepsTheControl s t hc e⟩

/-- A step of CORE ends it or leaves fewer steps. -/
theorem CoreSound.ends_or_stepsLeft {s t : State} (h : CoreSound s) (hn : ¬ Ended s) (e : step s = .next t) :
    Ended t ∨ stepsLeft t < stepsLeft s := by
  rw [step_eq, fetch_of_coreRuns (h.coreRuns hn)] at e
  obtain ⟨-, -, -, -, -, hc⟩ := h
  cases hf : coreFetch s with
  | element i u =>
    rw [hf] at e
    exact .inr (element_stepsLeft hf e)
  | move o =>
    rw [hf] at e
    exact move_ends_or_stepsLeft hc hn (hf.trans (congrArg Fetched.move e))

/-- The run of `k` steps from `s` has ended CORE, or has refused 2^64 bytes of input or output. -/
def RunEnds (k : Nat) (s : State) : Prop :=
  (∃ t, Host.Core.run core k s = .next t ∧ Ended t) ∨
  ∃ r, Host.Core.run core k s = .refused r ∧ (r = .inputTooLong ∨ r = .outputTooLong)

theorem run_succ_of_next {M : Host.Core} {s t : M.State} (e : M.step s = .next t) (k : Nat) :
    M.run (k + 1) s = M.run k t := by
  simp only [Host.Core.run, e]

theorem run_succ_of_refused {M : Host.Core} {s : M.State} {r : M.Refusal} (e : M.step s = .refused r) (k : Nat) :
    M.run (k + 1) s = .refused r := by
  simp only [Host.Core.run, e]

/-- By induction on the bound: each step ends CORE, is refused, or lowers the bound. -/
theorem exists_runEnds {n : Nat} {s : State} (h : CoreSound s) (hn : stepsLeft s ≤ n) : ∃ k ≤ n, RunEnds k s := by
  induction n generalizing s with
  | zero =>
    have := lt_stepsLeft s
    omega
  | succ n ih =>
    by_cases he : Ended s
    · exact ⟨0, Nat.zero_le _, .inl ⟨s, rfl, he⟩⟩
    have safe := stepIsSafe s h.2
    cases e : step s with
    | next t =>
      obtain ⟨k, hk, hr⟩ : ∃ k ≤ n, RunEnds k t := by
        rcases h.ends_or_stepsLeft he e with ht | ht
        · exact ⟨0, Nat.zero_le _, .inl ⟨t, rfl, ht⟩⟩
        · exact ih (h.next he e) (by omega)
      refine ⟨k + 1, Nat.succ_le_succ hk, ?_⟩
      rw [RunEnds, run_succ_of_next (M := core) e]
      exact hr
    | fault f =>
      rw [e] at safe
      exact safe.elim
    | refused r =>
      rw [e] at safe
      exact ⟨1, Nat.succ_le_succ (Nat.zero_le _), .inr ⟨r, run_succ_of_refused (M := core) e 0, safe⟩⟩

/-- Settles O56: the bound on the steps left is at most twice the bits left plus two. -/
theorem coreAlwaysEnds : Obligations.CoreAlwaysEnds := by
  intro s hp ok
  exact exists_runEnds ⟨hp, ok⟩ (stepsLeft_le s)

end Sys2Proof.Machine

/-! # Ends, moves and headers that read nothing (43_blocks.md R190 to R201) -/

namespace Sys2Proof.Machine

/-! ## The end of CORE, START and BLOCK_END (R190 to R194) -/

/-- After the end CORE does nothing (R194; log 16). -/
theorem coreFetch_of_ended {s : State} (h : s.st = .error ∨ s.st = .done) : coreFetch s = .move (.next s) := by
  unfold coreFetch
  rcases h with h | h <;> rw [h]

theorem gzCoreEnded_memory (s : State) :
    (gzCoreEnded s).st = s.st ∧ (gzCoreEnded s).src = s.src ∧ (gzCoreEnded s).ipos = s.ipos ∧
      (gzCoreEnded s).snk = s.snk := by
  rcases gzCoreEnded_cases s with ⟨-, e⟩ | ⟨-, e⟩ <;> rw [e] <;> exact ⟨rfl, rfl, rfl, rfl⟩

/-- Settles O27: after the end a step is nothing, or the host's move that reads no byte. -/
theorem endedStatesStay : Obligations.EndedStatesStay := by
  refine ⟨fun α k s => ⟨takeError k s, rfl, rfl⟩, fun s hp he => ?_⟩
  have stays : step s = .next s ∨ step s = .next (gzCoreEnded s) := by
    rw [step_eq]
    rcases hp with hp | hp <;> simp only [fetch, hp]
    · rw [coreFetch_of_ended he]
      exact .inl rfl
    · split
      · exact .inr rfl
      · rw [coreFetch_of_ended he]
        exact .inl rfl
  rcases stays with e | e
  · exact ⟨s, e, rfl, rfl, rfl, rfl⟩
  · exact ⟨_, e, gzCoreEnded_memory s⟩

/-- The step that makes a move of CORE. -/
theorem step_of_move {s : State} {o : Host.Outcome State Fault Refusal} (hr : CoreRuns s)
    (h : coreFetch s = .move o) : step s = o := by
  rw [step_eq, fetch_of_coreRuns hr, h]
  rfl

theorem coreFetch_start {s : State} (h : s.st = .start) :
    coreFetch s = .move (.next (setState .readBlockHeader s)) := by
  rw [coreFetch, h]

theorem coreFetch_blockEnd {s : State} (h : s.st = .blockEnd) : coreFetch s = .move (.next (endBlock s)) := by
  rw [coreFetch, h]

/-- Settles O28: START and BLOCK_END are moves of CORE. -/
theorem startAndBlockEnd : Obligations.StartAndBlockEnd := by
  refine fun s hr => ⟨fun h => step_of_move hr (coreFetch_start h), fun h hf => ?_, fun h hf => ?_⟩
  · rw [step_of_move hr (coreFetch_blockEnd h), endBlock_of_not_final s (by simp [isFinal, hf])]
    rfl
  · rw [step_of_move hr (coreFetch_blockEnd h), endBlock_of_final s (by simp [isFinal, hf])]

/-! ## BLK.RSVD and BLK.FIXED (R199, R201) -/

/-- Settles O33: the header is written, then the raise. -/
theorem reservedBlockTypeRaises : Obligations.ReservedBlockTypeRaises := fun s f =>
  run_raise .unsupportedBlockType (setHeader f 3 s)

/-- A run leaves the entries above it alone. -/
theorem writeRun_getElem {w n i : Nat} (A : Vector (BitVec w) n) {xs : List (BitVec w)} (hx : xs.length ≤ i)
    (hi : i < n) : (writeRun A xs)[i] = A[i] := by
  rw [← Vector.getElem_toList (by simpa using hi), ← Vector.getElem_toList (xs := A) (by simpa using hi)]
  simp only [writeRun_toList A xs (by omega)]
  rw [List.getElem_append_right hx, List.getElem_drop]
  congr 1
  omega

/-- Settles O34: the lengths installed are the fixed ones, and `installFixed` leaves a state in which they build. -/
theorem fixedBlockInstallsTables : Obligations.FixedBlockInstallsTables := by
  intro s f
  obtain ⟨hl, hd⟩ := installFixed_lens (setState .fixed (setHeader f 1 s))
  obtain ⟨bl, bd, -⟩ := (controlOk_decodeSymbols rfl).1 (installFixed_controlOk (setState .fixed (setHeader f 1 s)))
  have hlen : (fixedDLens.map (BitVec.ofNat 4)).length = 30 := rfl
  exact ⟨_, rfl, hl, hd, bl, bd, writeRun_getElem s.dLens (by omega) _, writeRun_getElem s.dLens (by omega) _, rfl⟩

end Sys2Proof.Machine

/-! # The code-length sequence (43_blocks.md R205 to R211) -/

namespace Sys2Proof.Machine

/-! ## Its elements (R206 to R210) -/

/-- A run that has room appends its lengths and nothing else. -/
theorem repeatLen_appends {v : BitVec 4} {r : Nat} {s : State} (hw : lensWanted s ≤ 320)
    (hr : s.idx.toNat + r ≤ lensWanted s) : ∃ t, repeatLen v r s = .ok () t ∧ t.idx.toNat = s.idx.toNat + r ∧
      t.scr.toList = s.scr.toList.take s.idx.toNat ++ List.replicate r v ++ s.scr.toList.drop (s.idx.toNat + r) ∧
      t = { s with scr := t.scr, idx := t.idx } := by
  rcases repeatLen_cases v r s with ⟨h, -⟩ | ⟨-, e⟩
  · omega
  · exact ⟨_, e, pushLens_effect v r s (by omega)⟩

theorem repeatLen_of_past {v : BitVec 4} {r : Nat} {s : State} (h : lensWanted s < s.idx.toNat + r) :
    repeatLen v r s = .raised (takeError .invalidHuffmanTree s) := if_pos h

theorem needPrevLen_of_pos {s : State} (h : 0 < s.idx.toNat) : needPrevLen s = .ok () s := by
  refine if_pos ?_
  rw [hasPrevLen, bne_iff_ne]
  rintro h0
  simp [h0] at h

theorem needPrevLen_of_zero {s : State} (h : s.idx = 0) :
    needPrevLen s = .raised (takeError .invalidHuffmanTree s) := by
  refine if_neg ?_
  simp [hasPrevLen, h]

/-- Settles O36: each of the four is a run of lengths that has room, CREP16 after its test. -/
theorem codeLengthElementsAppend : Obligations.CodeLengthElementsAppend := by
  refine ⟨fun n s _ hw hr => ⟨_, rfl, pushLens_effect n 1 s (by omega)⟩, fun x s h0 hw hr => ?_,
    fun x s _ hw hr => ?_, fun x s _ hw hr => ?_⟩
  · obtain ⟨t, e, ht⟩ := repeatLen_appends (v := prevLen s) hw hr
    exact ⟨t, run_of_ok ((andThen_of_ok (needPrevLen_of_pos h0)).trans e), ht⟩
  · obtain ⟨t, e, ht⟩ := repeatLen_appends (v := 0) hw hr
    exact ⟨t, run_of_ok e, ht⟩
  · obtain ⟨t, e, ht⟩ := repeatLen_appends (v := 0) hw hr
    exact ⟨t, run_of_ok e, ht⟩

/-- Settles O37: the test before CREP16, and the test of each run. -/
theorem codeLengthElementsReject : Obligations.CodeLengthElementsReject := by
  refine fun s => ⟨fun x h0 => run_of_raised (bind_of_raised (needPrevLen_of_zero h0)), fun x h => ?_,
    fun x h => run_of_raised (repeatLen_of_past h), fun x h => run_of_raised (repeatLen_of_past h)⟩
  rcases needPrevLen_cases s with ⟨-, e⟩ | ⟨-, e⟩
  · exact run_of_raised ((andThen_of_ok e).trans (repeatLen_of_past h))
  · exact run_of_raised (bind_of_raised e)

theorem coreFetch_dynamic {s : State} (h : s.st = .dynamic) :
    coreFetch s = if wantsLens s then Fetched.ofRes (fetchTree s) else .move (Op.run splitAndBuild s) := by
  rw [coreFetch, h]

/-- Settles O38: the code of symbol 16 is decoded, then the test raises. -/
theorem repeat16IsTestedBeforeItsExtraBits : Obligations.Repeat16IsTestedBeforeItsExtraBits := by
  intro s rest hr hs h0 hw ok room h
  obtain ⟨u, m, e, -, hu, hf, -⟩ := huffDecode_after ok (room.forBits (by decide)) h
  have hidx : u.idx = 0 := by rw [hf, h0]
  have hraise : checkRepeat 16 u = .raised (takeError .invalidHuffmanTree u) :=
    if_pos ⟨rfl, by simp [hasPrevLen, hidx]⟩
  have hfetch : fetchTree s = .raised (takeError .invalidHuffmanTree u) :=
    (bind_of_ok e).trans (bind_of_raised hraise)
  exact ⟨u, step_of_raised hr ((coreFetch_dynamic hs).trans (if_pos hw)) hfetch, hu.ahead, hu.ok,
    huffDecode_decodeOnly e⟩

/-! ## Its end (R211) -/

/-- The first entries of a run of up to `n` entries. -/
theorem writeRun_take_of_le {w n k : Nat} (A : Vector (BitVec w) n) {xs : List (BitVec w)} (hk : xs.length = k)
    (hn : k ≤ n) : (writeRun A xs).toList.take k = xs := by
  subst hk
  exact writeRun_take A xs hn

/-- The lengths in force after the split. -/
theorem splitLens_inForce {s : State} (hl : s.hlit.toNat ≤ 288) (hd : s.hdist.toNat ≤ 32) :
    llInForce (splitLens s) = (s.scr.toList.take s.hlit.toNat).map BitVec.toNat ∧
      dInForce (splitLens s) = ((s.scr.toList.drop s.hlit.toNat).take s.hdist.toNat).map BitVec.toNat := by
  have hscr : s.scr.toList.length = 320 := Vector.length_toList
  constructor
  · refine congrArg (List.map BitVec.toNat) (writeRun_take_of_le (k := s.hlit.toNat) s.llLens ?_ hl)
    rw [List.length_take]
    omega
  · refine congrArg (List.map BitVec.toNat) (writeRun_take_of_le (k := s.hdist.toNat) s.dLens ?_ hd)
    rw [List.length_take, List.length_drop]
    omega

/-- Settles O39: a step with no length wanted splits and builds. -/
theorem splitInstallsBothTables : Obligations.SplitInstallsBothTables := by
  intro s hr hs hw hl hd
  obtain ⟨h1, h2⟩ := splitLens_inForce hl hd
  have hnw : ¬ wantsLens s = true := by simpa [wantsLens] using hw
  have e := step_of_move hr ((coreFetch_dynamic hs).trans (if_neg hnw))
  refine ⟨splitLens s, h1, h2, rfl, fun hb1 hb2 => ?_, fun hb => ?_⟩ <;> rw [e]
  · rcases splitAndBuild_cases s with ⟨-, -, e⟩ | ⟨hn, -⟩
    · exact run_of_ok e
    · rcases hn with hn | hn
      · simp [hn] at hb1
      · simp [hn] at hb2
  · rcases splitAndBuild_cases s with ⟨hb1, hb2, -⟩ | ⟨-, e⟩
    · rcases hb with hn | hn
      · simp [hn] at hb1
      · simp [hn] at hb2
    · exact run_of_raised e

end Sys2Proof.Machine

/-! # Stored blocks (43_blocks.md R195 to R197) -/

namespace Sys2Proof.Machine

/-! ## Bytes from the source -/

/-- With a byte at the head of the source and room in IPOS, a sequence goes on with the byte. -/
theorem readByteAligned_bind {α : Type} {g : Byte → Op α} {s : State} {b : Byte} {rest : List SrcItem} (n : Nat)
    (h : s.src = .byte b :: rest) (hr : RoomIn s (n + 1)) :
    readByteAligned.bind g s = g b { s with src := rest, ipos := s.ipos + 1 } := by
  have hr1 : RoomIn s 1 := by
    simp only [RoomIn] at *
    omega
  exact bind_of_ok ((sourceOutcomes s).1 b rest h hr1)

/-- Where no byte stands at the head of the source, the read raises and takes nothing (60_exceptions.md R357, R358). -/
theorem readByteAligned_of_end {s : State} {tail : List SrcItem} (h : s.src = tail) (he : SourceEnds tail) :
    readByteAligned s = .raised (takeError (srcEnd tail) s) := by
  obtain ⟨-, -, heof, hio⟩ := sourceOutcomes s
  rcases he with rfl | ⟨rest, rfl⟩
  · exact heof h
  · exact hio rest h

/-! ## LEN and NLEN (R195, R197) -/

/-- With four bytes there, LEN and NLEN are read and compared. -/
theorem storedLengths_of_bytes {s : State} {b0 b1 b2 b3 : Byte} {rest : List SrcItem}
    (h : s.src = bytesSrc [b0, b1, b2, b3] ++ rest) (hr : RoomIn s 4) :
    storedLengths s = checkNlen { s with
      ipos := s.ipos + 4, src := rest, slen := joinBytes b0 b1, snlen := joinBytes b2 b3 } := by
  rw [storedLengths, readByteAligned_bind 3 h hr, readByteAligned_bind 2 rfl hr, modify_andThen,
    readByteAligned_bind 1 rfl hr, readByteAligned_bind 0 rfl hr, modify_andThen]
  rfl

/-- With fewer, the bytes there are taken, and LEN holds its two bytes if they are among them. -/
theorem storedLengths_of_end {s : State} {bs : List Byte} {tail : List SrcItem} (h : s.src = bytesSrc bs ++ tail)
    (he : SourceEnds tail) (hl : bs.length < 4) (hr : RoomIn s 4) :
    storedLengths s = .raised (takeError (srcEnd tail) { s with
      ipos := s.ipos + bs.length, src := tail
      slen := if 2 ≤ bs.length then joinBytes (bs.getD 0 0) (bs.getD 1 0) else s.slen }) := by
  rw [storedLengths]
  match bs, h, hl with
  | [], h, _ =>
    rw [bind_of_raised (readByteAligned_of_end h he), ← (show s.src = tail from h)]
    rfl
  | [b0], h, _ =>
    rw [readByteAligned_bind 3 h hr, bind_of_raised (readByteAligned_of_end rfl he)]
    rfl
  | [b0, b1], h, _ =>
    rw [readByteAligned_bind 3 h hr, readByteAligned_bind 2 rfl hr, modify_andThen,
      bind_of_raised (readByteAligned_of_end rfl he)]
    rfl
  | [b0, b1, b2], h, _ =>
    rw [readByteAligned_bind 3 h hr, readByteAligned_bind 2 rfl hr, modify_andThen, readByteAligned_bind 1 rfl hr,
      bind_of_raised (readByteAligned_of_end rfl he)]
    rfl

/-- Settles O30: LEN and NLEN are read whole and differ, or their read runs out of bytes. -/
theorem storedBlockRejectsNlen : Obligations.StoredBlockRejectsNlen := by
  refine ⟨fun s f b0 b1 b2 b3 rest h hn hr => ?_, fun s f bs tail h he hl hr => ?_⟩
  · have e := storedLengths_of_bytes (s := alignToByte (setState .stored (setHeader f 0 s))) h hr
    rw [exec_blkStored]
    exact run_of_raised (bind_of_raised (e.trans (if_neg hn)))
  · have e := storedLengths_of_end (s := alignToByte (setState .stored (setHeader f 0 s))) h he hl hr
    rw [exec_blkStored]
    exact run_of_raised (bind_of_raised e)

/-! ## The data (R195, R196) -/

section
variable {s u : State} {f : BitVec 1} {b0 b1 b2 b3 : Byte} {done : List Byte}

/-- Taking bytes from the source is no part of what `StoredPart` says. -/
theorem StoredPart.take (h : StoredPart s u f b0 b1 b2 b3 done) (ipos : Nat) (src : List SrcItem) :
    StoredPart s { u with ipos := ipos, src := src } f b0 b1 b2 b3 done := by
  obtain ⟨hsnk, hcrc, hcount, hok, hwin, hrem, hf⟩ := h
  refine ⟨hsnk, hcrc, hcount, hok, hwin, hrem, ?_⟩
  rw [hf]

/-- One more byte written and counted off. -/
theorem StoredPart.putByte (h : StoredPart s u f b0 b1 b2 b3 done) (b : Byte)
    (hl : done.length < (joinBytes b0 b1).toNat) :
    StoredPart s { putByte b u with rem := u.rem - 1 } f b0 b1 b2 b3 (done ++ [b]) := by
  obtain ⟨hsnk, hcrc, hcount, hok, hwin, hrem, hf⟩ := h
  refine ⟨?_, ?_, ?_, fun ok => putByte_outputOk b (hok ok), ?_, ?_, ?_⟩
  · simp [hsnk]
  · simp [hcrc]
  · simp [hcount, Nat.add_assoc]
  · rw [List.length_append]
    exact hwin.trans hcount (putByte_windowKept b u)
  · rw [List.length_append, List.length_singleton]
    bv_omega
  · rw [hf]
    rfl

/-- The sink has room for the rest of the data. -/
theorem StoredPart.room (h : StoredPart s u f b0 b1 b2 b3 done) {n : Nat} (hr : RoomOut s (done.length + n)) :
    RoomOut u n := by
  obtain ⟨-, -, hcount, -, -, -, hf⟩ := h
  exact hr.after hcount (by rw [hf])

/-- As long as bytes come and the sink takes them, the data is copied byte by byte: after `todo`, `m` bytes are left. -/
theorem copyStored_of_room (h : StoredPart s u f b0 b1 b2 b3 done) {todo : List Byte} {rest : List SrcItem} (m : Nat)
    (hsrc : u.src = bytesSrc todo ++ rest) (hl : done.length + todo.length ≤ (joinBytes b0 b1).toNat)
    (hi : RoomIn u todo.length) (ho : RoomOut s (done.length + todo.length)) :
    ∃ t, copyStored (todo.length + m) u = copyStored m t ∧ StoredPart s t f b0 b1 b2 b3 (done ++ todo) ∧
      t.src = rest ∧ t.ipos = u.ipos + todo.length := by
  induction todo generalizing u done with
  | nil => exact ⟨u, by rw [List.length_nil, Nat.zero_add], by rwa [List.append_nil], hsrc, rfl⟩
  | cons b todo ih =>
    rw [List.length_cons] at hl hi ho
    have hu := h.take (u.ipos + 1) (bytesSrc todo ++ rest)
    have hw := (writeByte_of_room (b := b) (n := 0) (hu.room (ho.mono (by omega)))).1
    have hv := hu.putByte b (by omega)
    have hlen : (done ++ [b]).length = done.length + 1 := List.length_append
    obtain ⟨t, e, ht, hs, hp⟩ := ih hv rfl (by omega)
      (by simp only [RoomIn, putByte_fields] at *; omega) (by rwa [hlen, Nat.add_right_comm])
    refine ⟨t, ?_, by rwa [List.append_assoc] at ht, hs, ?_⟩
    · rw [List.length_cons, Nat.succ_add, copyStored,
        readByteAligned_bind (rest := bytesSrc todo ++ rest) todo.length hsrc hi, andThen_of_ok hw, modify_andThen]
      exact e
    · rw [hp, List.length_cons]
      simp only [putByte_fields]
      omega

end

theorem andThen_congr {β : Type} {x x' : Op Unit} (y : Op β) {s t : State} (h : x s = x' t) :
    x.andThen y s = x'.andThen y t := by
  rw [Op.andThen, Op.andThen, Op.bind, Op.bind, h]

theorem run_congr {x x' : Op Unit} {s t : State} (h : x s = x' t) : Op.run x s = Op.run x' t := by
  rw [Op.run, Op.run, h]

/-- The state in which a stored block begins to copy: LEN and NLEN have been read, `src` is behind them. -/
def storedStart (f : BitVec 1) (b0 b1 b2 b3 : Byte) (src : List SrcItem) (s : State) : State :=
  { s with
    bfinal := f, btype := 0, st := .stored, bb := 0, bc := 0, ipos := s.ipos + 4, src := src
    slen := joinBytes b0 b1, snlen := joinBytes b2 b3, rem := joinBytes b0 b1 }

theorem storedStart_part (f : BitVec 1) (b0 b1 b2 b3 : Byte) (src : List SrcItem) (s : State) :
    StoredPart s (storedStart f b0 b1 b2 b3 src s) f b0 b1 b2 b3 [] :=
  ⟨(List.append_nil _).symm, rfl, rfl, id, WindowKept.refl s, rfl, rfl⟩

/-- With correct LEN and NLEN, BLK.STORED comes to the copy. -/
theorem exec_blkStored_of_lengths {s : State} (f : BitVec 1) {b0 b1 b2 b3 : Byte} {rest : List SrcItem}
    (h : s.src = bytesSrc [b0, b1, b2, b3] ++ rest) (hn : joinBytes b0 b1 = ~~~ joinBytes b2 b3) (hr : RoomIn s 4) :
    exec (.blkStored f) s = Op.run storedRest (storedStart f b0 b1 b2 b3 rest s) := by
  have e := storedLengths_of_bytes (s := alignToByte (setState .stored (setHeader f 0 s))) h hr
  rw [exec_blkStored]
  exact run_congr (andThen_of_ok (e.trans (if_pos hn)))

/-- BLK.STORED with correct LEN and NLEN and `data` before `rest`, all of which the sink takes: `data` is copied, and
`m` bytes of LEN are left to copy. -/
theorem exec_blkStored_of_room {s : State} (f : BitVec 1) {b0 b1 b2 b3 : Byte} {data : List Byte}
    {rest : List SrcItem} (m : Nat) (hsrc : s.src = bytesSrc (b0 :: b1 :: b2 :: b3 :: data) ++ rest)
    (hn : joinBytes b0 b1 = ~~~ joinBytes b2 b3) (hl : data.length + m = (joinBytes b0 b1).toNat)
    (hi : RoomIn s (4 + data.length)) (ho : RoomOut s data.length) :
    ∃ u, exec (.blkStored f) s = Op.run ((copyStored m).andThen <| Op.modify (setState .blockEnd)) u ∧
      StoredPart s u f b0 b1 b2 b3 data ∧ u.src = rest ∧ u.ipos = s.ipos + 4 + data.length := by
  have e := exec_blkStored_of_lengths (rest := bytesSrc data ++ rest) f hsrc hn (by simp only [RoomIn] at *; omega)
  obtain ⟨u, e', hu, hs, hp⟩ := copyStored_of_room
    (storedStart_part f b0 b1 b2 b3 (bytesSrc data ++ rest) s) m rfl (by rw [List.length_nil]; omega)
    (by simp only [RoomIn, storedStart] at *; omega) (by rwa [List.length_nil, Nat.zero_add])
  refine ⟨u, ?_, hu, hs, hp⟩
  rw [e]
  refine run_congr (andThen_congr _ ?_)
  rw [← e', hl]
  rfl

/-- Settles O29: nothing is left to copy after LEN bytes. -/
theorem storedBlockCopies : Obligations.StoredBlockCopies := by
  intro s f b0 b1 b2 b3 data rest hsrc hn hl hi ho
  obtain ⟨u, e, ⟨hsnk, hcrc, hcount, hok, hwin, hrem, hf⟩, hs, hp⟩ := exec_blkStored_of_room f 0 hsrc hn hl hi ho
  have hrem0 : u.rem = 0 := by bv_omega
  refine ⟨setState .blockEnd u, e, hsnk, hcrc, hcount, hok, hwin, ?_⟩
  rw [hs, hp, hrem0] at hf
  rw [hf]
  rfl

/-- Settles O31: after the bytes there or the bytes the sink takes, at least one is left to copy, and its read or its
write raises. -/
theorem storedBlockTruncated : Obligations.StoredBlockTruncated := by
  refine ⟨fun s f b0 b1 b2 b3 data tail hsrc he hn hl hi ho => ?_,
    fun s f b0 b1 b2 b3 data b rest hsrc hn hl hi ho hf => ?_⟩
  · obtain ⟨m, hm⟩ := Nat.exists_eq_add_of_lt hl
    obtain ⟨u, e, hu, hs, hp⟩ := exec_blkStored_of_room f (m + 1) hsrc hn hm.symm hi ho
    refine ⟨u, ?_, hu, hs, hp⟩
    rw [e, copyStored]
    exact run_of_raised (bind_of_raised (bind_of_raised (readByteAligned_of_end hs he)))
  · obtain ⟨m, hm⟩ := Nat.exists_eq_add_of_lt hl
    obtain ⟨u, e, hu, hs, hp⟩ := exec_blkStored_of_room f (m + 1) hsrc hn hm.symm
      (by simp only [RoomIn] at *; omega) ho
    have hv := hu.take (u.ipos + 1) rest
    have hfail : u.snkFailAt = some u.count := by
      obtain ⟨-, -, hcount, -, -, -, hfr⟩ := hu
      rw [hcount, ← hf, hfr]
    refine ⟨_, ?_, hv, rfl, ?_⟩
    · rw [e, copyStored]
      refine run_of_raised (bind_of_raised ?_)
      rw [readByteAligned_bind 0 hs (by simp only [RoomIn] at *; omega)]
      exact bind_of_raised (if_pos hfail)
    · simp only [hp]
      omega

end Sys2Proof.Machine

/-! # The header of a dynamic block (43_blocks.md R203, R204) -/

namespace Sys2Proof.Machine

/-! ## Reading what bits there are -/

/-- The value `w` makes of the `n` bits from bit `a` on, or `old` where they are not all there. -/
def fieldOr {α : Type} (bits : List Bool) (a n : Nat) (w : Nat → α) (old : α) : α :=
  if a + n ≤ bits.length then w (numOfBits ((bits.drop a).take n)) else old

section
variable {α : Type} {bits : List Bool} {a n k : Nat} {w : Nat → α} {old : α}

theorem fieldOr_of_le (h : a + n ≤ bits.length) : fieldOr bits a n w old = w (numOfBits ((bits.drop a).take n)) :=
  if_pos h

theorem fieldOr_of_lt (h : bits.length < a + n) : fieldOr bits a n w old = old := if_neg (not_le.2 h)

theorem fieldOr_drop (h : k ≤ bits.length) : fieldOr (bits.drop k) a n w old = fieldOr bits (k + a) n w old := by
  have hc : a + n ≤ bits.length - k ↔ k + a + n ≤ bits.length := by omega
  simp only [fieldOr, List.length_drop, List.drop_drop, hc]

end

/-- `x` reads `n` bits, or consumes the bits there are and raises as a read past the end does; either way what it has
changed is `F`. -/
def Reads (n : Nat) (F : State → State → Prop) (x : Op Unit) (s : State) : Prop :=
  (n ≤ (bitsAhead s).length →
    ∃ t, x s = .ok () t ∧ AfterBits s n ((bitsAhead s).drop n) t ∧ F s t ∧ SameEnd s t) ∧
  ((bitsAhead s).length < n → RaisesAt F x s (srcEnd s.src) [])

/-- Two reads in a row. -/
theorem Reads.andThen {s : State} {n m : Nat} {F G H : State → State → Prop} {x y : Op Unit} (hx : Reads n F x s)
    (hy : ∀ t, n ≤ (bitsAhead s).length → AfterBits s n ((bitsAhead s).drop n) t → F s t → Reads m G y t)
    (short : ∀ u, (bitsAhead s).length < n → F s u → H s u)
    (long : ∀ t u, n ≤ (bitsAhead s).length → bitsAhead t = (bitsAhead s).drop n → F s t → G t u → H s u) :
    Reads (n + m) H (x.andThen y) s := by
  by_cases hn : (bitsAhead s).length < n
  · exact ⟨fun h => by omega, fun _ => ((hx.2 hn).mono fun u => short u hn).bind⟩
  rw [not_lt] at hn
  obtain ⟨t, e, ht, hF, hend⟩ := hx.1 hn
  obtain ⟨h1, h2⟩ := hy t hn ht hF
  rw [ht.ahead, List.length_drop] at h1 h2
  refine ⟨fun h => ?_, fun h => ?_⟩
  · obtain ⟨u, e', hu, hG, hend'⟩ := h1 (by omega)
    rw [List.drop_drop] at hu
    exact ⟨u, (andThen_of_ok e).trans e', ht.trans hu, long t u hn ht.ahead hF hG, hend'.trans hend⟩
  · obtain ⟨u, e', ha, ho, hG, hl⟩ := h2 (by omega)
    rw [hend] at e'
    exact ⟨u, (andThen_of_ok e).trans e', ha, ho, long t u hn ht.ahead hF hG, hl.trans ht.source⟩

/-- `s` with the bit reader, IPOS and the source of `u`. -/
def withInput (u s : State) : State := { s with bb := u.bb, bc := u.bc, ipos := u.ipos, src := u.src }

/-- A field read and written to a register. -/
def readField (n : Nat) (write : Nat → State → State) : Op Unit := (readBits n).bind fun v => Op.modify (write v)

/-- The register `get`, which `put` writes, takes what `w` makes of the field. -/
theorem readField_reads {α : Type} {n : Nat} {w : Nat → α} (get : State → α) (put : α → State → State) {s : State}
    (hs : BitReaderOk s) (hr : RoomForBits s n) (hn : n ≤ 32)
    (input : ∀ x u, (put x u).bb = u.bb ∧ (put x u).bc = u.bc ∧ (put x u).ipos = u.ipos ∧ (put x u).src = u.src)
    (same : ∀ u, put (get s) (withInput u s) = withInput u s) :
    Reads n (fun s u => u = put (fieldOr (bitsAhead s) 0 n w (get s)) (withInput u s)) (readField n fun v => put (w v))
      s := by
  refine ⟨fun h => ?_, fun h => ?_⟩
  · obtain ⟨t, e, ht, hf⟩ := readBits_after (rest := (bitsAhead s).drop n) hs hr hn (if_neg (not_lt.2 h))
    generalize hv : numOfBits ((bitsAhead s).take n) = v at e
    obtain ⟨hbb, hbc, hipos, hsrc⟩ := input (w v) t
    refine ⟨_, bind_of_ok e, ht.write _ (input (w v) t), ?_, ?_⟩
    · show put (w v) t = put (fieldOr (bitsAhead s) 0 n w (get s)) (withInput (put (w v) t) s)
      rw [fieldOr_of_le (by omega), List.drop_zero, hv, withInput, hbb, hbc, hipos, hsrc]
      exact congrArg (put (w v)) hf
    · rw [SameEnd, hsrc]
      exact (Relates.readBits sameEnd_closed readBit_sameEnd n s).1 _ t e
  · refine ((readBits_ends hn hs hr h).mono fun u hu => ?_).bind
    rw [fieldOr_of_lt (by omega), same]
    exact hu

/-! ## The three counts (R203) -/

/-- HLIT, HDIST and HCLEN hold what the bits ahead of `s` give of them, and otherwise `u` is `s` but for what a read
changes. -/
def CountsRead (s u : State) : Prop :=
  u = { withInput u s with
    hlit := fieldOr (bitsAhead s) 0 5 hlitOf s.hlit
    hdist := fieldOr (bitsAhead s) 5 5 hdistOf s.hdist
    hclen := fieldOr (bitsAhead s) 10 4 hclenOf s.hclen }

theorem readCounts_eq : readCounts =
    (readField 5 fun v s => { s with hlit := hlitOf v }).andThen
      ((readField 5 fun v s => { s with hdist := hdistOf v }).andThen
        (readField 4 fun v s => { s with hclen := hclenOf v })) := by
  simp only [readCounts, readField, Op.andThen, bind_assoc]

theorem readCounts_reads {s : State} (hs : BitReaderOk s) (hr : RoomForBits s 14) :
    Reads 14 CountsRead readCounts s := by
  rw [readCounts_eq]
  refine Reads.andThen (m := 9)
    (G := fun t u => u = { withInput u t with
      hdist := fieldOr (bitsAhead t) 0 5 hdistOf t.hdist, hclen := fieldOr (bitsAhead t) 5 4 hclenOf t.hclen })
    (readField_reads State.hlit (fun x s => { s with hlit := x }) hs (hr.mono (by decide)) (by decide)
      (fun _ _ => ⟨rfl, rfl, rfl, rfl⟩) fun _ => rfl)
    (fun t _ ht _ => ?_) (fun u h hu => ?_) fun t u h ha ht hu => ?_
  · have hrt : RoomForBits t 9 := RoomForBits.after (m := 5) hr ht
    refine Reads.andThen (m := 4)
      (readField_reads State.hdist (fun x s => { s with hdist := x }) ht.ok (hrt.mono (by decide)) (by decide)
        (fun _ _ => ⟨rfl, rfl, rfl, rfl⟩) fun _ => rfl)
      (fun u _ hu _ => readField_reads State.hclen (fun x s => { s with hclen := x }) hu.ok
        (RoomForBits.after (m := 5) hrt hu) (by decide) (fun _ _ => ⟨rfl, rfl, rfl, rfl⟩) fun _ => rfl)
      (fun u h hu => ?_) fun u v h ha hu hv => ?_
    · rw [fieldOr_of_lt (by omega)] at hu ⊢
      rw [fieldOr_of_lt (by omega)]
      exact hu
    · rw [ha, fieldOr_drop h, hu] at hv
      exact hv
  · rw [fieldOr_of_lt (by omega)] at hu
    rw [CountsRead, fieldOr_of_lt (by omega), fieldOr_of_lt (by omega), fieldOr_of_lt (by omega)]
    exact hu
  · rw [ha, fieldOr_drop h, fieldOr_drop h, ht] at hu
    exact hu

/-! ## The tree-code lengths (R204) -/

/-- The lengths that stand whole in the bits ahead, three bits each. -/
def wholeLens (bits : List Bool) : List Nat :=
  (List.range (bits.length / 3)).map fun j => numOfBits ((bits.drop (3 * j)).take 3)

theorem length_wholeLens (bits : List Bool) : (wholeLens bits).length = bits.length / 3 := by
  rw [wholeLens, List.length_map, List.length_range]

theorem wholeLens_of_lt {bits : List Bool} (h : bits.length < 3) : wholeLens bits = [] := by
  rw [wholeLens, Nat.div_eq_of_lt h]
  rfl

theorem wholeLens_of_le {bits : List Bool} (h : 3 ≤ bits.length) :
    wholeLens bits = numOfBits (bits.take 3) :: wholeLens (bits.drop 3) := by
  have hl : bits.length / 3 = (bits.length - 3) / 3 + 1 := by omega
  rw [wholeLens, hl, List.range_succ_eq_map, List.map_cons, List.map_map, wholeLens, List.length_drop]
  refine congrArg₂ _ rfl (List.map_congr_left fun j _ => ?_)
  rw [List.drop_drop, Function.comp, Nat.mul_succ, Nat.add_comm]

theorem lt_of_mem_wholeLens {bits : List Bool} {l : Nat} (h : l ∈ wholeLens bits) : l < 8 := by
  obtain ⟨j, -, rfl⟩ := List.mem_map.1 h
  exact lt_of_lt_of_le (numOfBits_lt _) (Nat.pow_le_pow_right (by decide) (List.length_take_le 3 _))

theorem lensAhead_eq (bits : List Bool) : lensAhead bits = wholeLens (bits.drop 14) := by
  simp only [lensAhead, wholeLens, List.length_drop, List.drop_drop]

/-- Lengths that are there are read back. -/
theorem wholeLens_flatMap {ls : List Nat} (h : ∀ l ∈ ls, l < 8) (rest : List Bool) :
    wholeLens (ls.flatMap (numBits 3) ++ rest) = ls ++ wholeLens rest := by
  induction ls with
  | nil => rfl
  | cons l ls ih =>
    obtain ⟨hl, hls⟩ := List.forall_mem_cons.1 h
    have e : (l :: ls).flatMap (numBits 3) ++ rest = numBits 3 l ++ (ls.flatMap (numBits 3) ++ rest) := by simp
    rw [e, wholeLens_of_le (by simp), List.take_left' (length_numBits 3 l), List.drop_left' (length_numBits 3 l),
      numOfBits_numBits, Nat.mod_eq_of_lt (show l < 2 ^ 3 from hl), ih hls]
    rfl

/-- `CL_LENS[n] <- l` for the symbols `ns` and the lengths `ls`, pair by pair (R204). -/
def putLens (ns ls : List Nat) (A : Vector (BitVec 3) 19) : Vector (BitVec 3) 19 :=
  (ns.zip ls).foldl (fun A p => A.setIfInBounds p.1 (BitVec.ofNat 3 p.2)) A

theorem putLens_cons (n l : Nat) (ns ls : List Nat) (A : Vector (BitVec 3) 19) :
    putLens (n :: ns) (l :: ls) A = putLens ns ls (A.setIfInBounds n (BitVec.ofNat 3 l)) := rfl

theorem putLens_nil (ns : List Nat) (A : Vector (BitVec 3) 19) : putLens ns [] A = A := by
  rw [putLens, List.zip_nil_right, List.foldl_nil]

/-- Only as many lengths are put as there are symbols. -/
theorem putLens_take (k : Nat) (ns ls : List Nat) (A : Vector (BitVec 3) 19) :
    putLens (ns.take k) ls A = putLens ns (ls.take k) A := by
  rw [putLens, putLens]
  congr 1
  induction k generalizing ns ls with
  | zero => simp
  | succ k ih =>
    cases ns with
    | nil => rfl
    | cons n ns =>
      cases ls with
      | nil => rfl
      | cons l ls => exact congrArg _ (ih ns ls)

theorem putLens_of_notMem {ns : List Nat} {i : Nat} (h : i ∉ ns) (ls : List Nat) (A : Vector (BitVec 3) 19)
    (hi : i < 19) : (putLens ns ls A)[i] = A[i] := by
  induction ns generalizing ls A with
  | nil => rfl
  | cons n ns ih =>
    obtain ⟨hne, hns⟩ := not_or.1 (mt List.mem_cons.2 h)
    cases ls with
    | nil => rw [putLens_nil]
    | cons l ls => rw [putLens_cons, ih hns, Vector.getElem_setIfInBounds_ne hi (Ne.symm hne)]

/-- A symbol's entry is the length at its place in the order, or the old one where there is none. -/
theorem putLens_of_mem {ns : List Nat} {i : Nat} (nd : ns.Nodup) (h : i ∈ ns) (ls : List Nat)
    (A : Vector (BitVec 3) 19) (hi : i < 19) :
    (putLens ns ls A)[i] = (ls[ns.idxOf i]?.map (BitVec.ofNat 3)).getD A[i] := by
  induction ns generalizing ls A with
  | nil => cases h
  | cons n ns ih =>
    obtain ⟨hn, nd⟩ := List.nodup_cons.1 nd
    cases ls with
    | nil => rw [putLens_nil]; rfl
    | cons l ls =>
      rw [putLens_cons]
      by_cases hin : i = n
      · subst hin
        rw [putLens_of_notMem hn, Vector.getElem_setIfInBounds_self, List.idxOf_cons_self]
        rfl
      · have hmem : i ∈ ns := (List.mem_cons.1 h).resolve_left hin
        rw [ih nd hmem, Vector.getElem_setIfInBounds_ne hi (Ne.symm hin), List.idxOf_cons_ne ns (Ne.symm hin)]
        rfl

/-- The 19 lengths of the tree code, from the transmitted ones in the order `CL_ORDER` (30_encoding.md R94). -/
theorem putLens_clOrder {ls : List Nat} (h : ∀ l ∈ ls, l < 8) :
    (putLens clOrder ls (Vector.replicate 19 0)).toList.map BitVec.toNat = treeLens ls := by
  have order : clOrder.Nodup ∧ ∀ i < 19, i ∈ clOrder := by decide
  refine List.ext_getElem (by simp [treeLens]) fun i hi _ => ?_
  have hi : i < 19 := by simpa using hi
  simp only [List.getElem_map, Vector.getElem_toList, treeLens, List.getElem_range]
  rw [putLens_of_mem order.1 (order.2 i hi), List.getD_eq_getElem?_getD]
  cases e : ls[clOrder.idxOf i]? with
  | none => simp
  | some l => simpa using h l (List.mem_of_getElem? e)

theorem readClLens_cons (n : Nat) (ns : List Nat) : readClLens (n :: ns) =
    (readField 3 fun v s => { s with clLens := s.clLens.setIfInBounds n (BitVec.ofNat 3 v) }).andThen
      (readClLens ns) := by
  simp only [readClLens, readField, Op.andThen, bind_assoc]

/-- The lengths that are there go to the entries of `CL_LENS` the symbols name. -/
theorem readClLens_reads {s : State} {ns : List Nat} (hs : BitReaderOk s) (hr : RoomForBits s (3 * ns.length)) :
    Reads (3 * ns.length)
      (fun s u => u = { withInput u s with clLens := putLens ns (wholeLens (bitsAhead s)) s.clLens })
      (readClLens ns) s := by
  induction ns generalizing s with
  | nil => exact ⟨fun _ => ⟨s, rfl, .refl hs, rfl, rfl⟩, nofun⟩
  | cons n ns ih =>
    rw [List.length_cons, Nat.mul_succ, Nat.add_comm] at hr ⊢
    rw [readClLens_cons]
    refine Reads.andThen
      (readField_reads (w := fun v (A : Vector (BitVec 3) 19) => A.setIfInBounds n (BitVec.ofNat 3 v)) (fun _ => id)
        (fun f s => { s with clLens := f s.clLens }) hs (hr.mono (by omega)) (by decide)
        (fun _ _ => ⟨rfl, rfl, rfl, rfl⟩) fun _ => rfl)
      (fun t _ ht _ => ih ht.ok (hr.after ht)) (fun u h hu => ?_) fun t u h ha ht hu => ?_
    · rw [fieldOr_of_lt (by omega)] at hu
      rw [wholeLens_of_lt h, putLens_nil]
      exact hu
    · rw [fieldOr_of_le (by omega)] at ht
      rw [ha, ht] at hu
      rw [wholeLens_of_le h, putLens_cons]
      exact hu

/-! ## The header (R203, R204) -/

/-- The tree-code lengths: all 19 cleared, then HCLEN of them read. -/
def readLens : Op Unit :=
  (Op.modify fun s => { s with clLens := Vector.replicate 19 0 }).andThen fun s =>
    readClLens (clOrder.take s.hclen.toNat) s

/-- `T_CL` is built from what has been read. -/
def buildTreeCode : Op Unit := fun s => buildTable (clInForce s) s

theorem readTreeCode_eq : readTreeCode = readLens.andThen buildTreeCode := rfl

/-- BLK.DYNAMIC reads its fields, then builds `T_CL` and clears IDX. -/
theorem exec_blkDynamic (f : BitVec 1) (s : State) : exec (.blkDynamic f) s =
    Op.run ((readCounts.andThen readLens).andThen (buildTreeCode.andThen (Op.modify fun t => { t with idx := 0 })))
      (setState .dynamic (setHeader f 2 s)) := by
  have e : dynamicHeader = (Op.modify (setState .dynamic)).andThen ((readCounts.andThen readLens).andThen
      (buildTreeCode.andThen (Op.modify fun t => { t with idx := 0 }))) := by
    simp only [dynamicHeader, readTreeCode_eq, Op.andThen, bind_assoc]
  rw [exec, execBlkDynamic, e]
  rfl

/-- `CL_LENS` holds the first `k` lengths ahead of `s` in the order `CL_ORDER`. -/
def LensRead (k : Nat) (s u : State) : Prop :=
  u = { withInput u s with
    clLens := putLens clOrder ((wholeLens (bitsAhead s)).take k) (Vector.replicate 19 0) }

theorem readLens_reads {s : State} {k : Nat} (hs : BitReaderOk s) (hr : RoomForBits s (3 * k))
    (hk : s.hclen.toNat = k) (h19 : k ≤ 19) : Reads (3 * k) (LensRead k) readLens s := by
  have hlen : (clOrder.take k).length = k := List.length_take_of_le h19
  have clear : Reads 0 (fun s u => u = { s with clLens := Vector.replicate 19 0 })
      (Op.modify fun s => { s with clLens := Vector.replicate 19 0 }) s :=
    ⟨fun _ => ⟨_, rfl, (AfterBits.refl hs).write _ ⟨rfl, rfl, rfl, rfl⟩, rfl, rfl⟩,
      fun h => absurd h (Nat.not_lt_zero _)⟩
  rw [← Nat.zero_add (3 * k)] at hr ⊢
  refine clear.andThen (G := fun t u => u = { withInput u t with
    clLens := putLens (clOrder.take k) (wholeLens (bitsAhead t)) t.clLens }) (fun t _ ht hF => ?_)
    (fun _ h => absurd h (Nat.not_lt_zero _)) fun t u _ ha ht hu => ?_
  · have e : t.hclen.toNat = k := by rw [hF, hk]
    have h := readClLens_reads (ns := clOrder.take k) ht.ok (by rw [hlen]; exact hr.after ht)
    rw [hlen] at h
    simpa only [Reads, RaisesAt, e] using h
  · rw [ha, putLens_take, ht] at hu
    exact hu

/-- What the fields of a header have changed: the counts as far as they are there, and `CL_LENS` once they all are. -/
def DynamicRead (s u : State) : Prop :=
  u = { withInput u s with
    hlit := fieldOr (bitsAhead s) 0 5 hlitOf s.hlit
    hdist := fieldOr (bitsAhead s) 5 5 hdistOf s.hdist
    hclen := fieldOr (bitsAhead s) 10 4 hclenOf s.hclen
    clLens := if 14 ≤ (bitsAhead s).length then
        putLens clOrder ((wholeLens ((bitsAhead s).drop 14)).take (numOfBits (((bitsAhead s).drop 10).take 4) + 4))
          (Vector.replicate 19 0)
      else s.clLens }

theorem numOfBits_take_lt (n : Nat) (bits : List Bool) : numOfBits (bits.take n) < 2 ^ n :=
  lt_of_lt_of_le (numOfBits_lt _) (Nat.pow_le_pow_right (by decide) (List.length_take_le n _))

theorem hlitOf_toNat {v : Nat} (h : v < 2 ^ 5) : (hlitOf v).toNat = v + 257 := by
  rw [hlitOf, BitVec.toNat_ofNat]
  omega

theorem hdistOf_toNat {v : Nat} (h : v < 2 ^ 5) : (hdistOf v).toNat = v + 1 := by
  rw [hdistOf, BitVec.toNat_ofNat]
  omega

theorem hclenOf_toNat {v : Nat} (h : v < 2 ^ 4) : (hclenOf v).toNat = v + 4 := by
  rw [hclenOf, BitVec.toNat_ofNat]
  omega

theorem dynamicFields_reads {s : State} (hs : BitReaderOk s) (hr : RoomForBits s 71) :
    Reads (dynamicNeeds (bitsAhead s)) DynamicRead (readCounts.andThen readLens) s := by
  have hv := numOfBits_take_lt 4 ((bitsAhead s).drop 10)
  generalize hk : numOfBits (((bitsAhead s).drop 10).take 4) + 4 = k
  have hneeds : dynamicNeeds (bitsAhead s) = 14 + if (bitsAhead s).length < 14 then 0 else 3 * k := by
    rw [dynamicNeeds, hk]
    split <;> rfl
  rw [hneeds]
  refine (readCounts_reads hs (hr.mono (by decide))).andThen (G := LensRead k) (fun t h ht hF => ?_)
    (fun u h hu => ?_) fun t u h ha ht hu => ?_
  · have hclen : t.hclen.toNat = k := by
      rw [hF, ← hk, ← hclenOf_toNat hv]
      exact congrArg BitVec.toNat (fieldOr_of_le h)
    rw [if_neg (not_lt.2 h)]
    exact readLens_reads ht.ok (RoomForBits.after (hr.mono (by omega)) ht) hclen (by omega)
  · rw [DynamicRead, if_neg (not_le.2 h)]
    exact hu
  · rw [LensRead, ha, ht] at hu
    rw [DynamicRead, if_pos h, hk]
    exact hu

/-- The registers after the fields of a header, as numbers. -/
theorem DynamicRead.values {s u : State} (h : DynamicRead s u) {bits : List Bool} (hb : bitsAhead s = bits) :
    (if 5 ≤ bits.length then u.hlit.toNat = numOfBits (bits.take 5) + 257 else u.hlit = s.hlit) ∧
    (if 10 ≤ bits.length then u.hdist.toNat = numOfBits ((bits.drop 5).take 5) + 1 else u.hdist = s.hdist) ∧
    (if 14 ≤ bits.length then u.hclen.toNat = numOfBits ((bits.drop 10).take 4) + 4 ∧
        clInForce u = treeLens ((lensAhead bits).take (numOfBits ((bits.drop 10).take 4) + 4))
      else u.hclen = s.hclen ∧ u.clLens = s.clLens) ∧
    u = { withInput u s with hlit := u.hlit, hdist := u.hdist, hclen := u.hclen, clLens := u.clLens } := by
  subst hb
  have hlit : u.hlit = fieldOr (bitsAhead s) 0 5 hlitOf s.hlit := congrArg State.hlit h
  have hdist : u.hdist = fieldOr (bitsAhead s) 5 5 hdistOf s.hdist := congrArg State.hdist h
  have hclen : u.hclen = fieldOr (bitsAhead s) 10 4 hclenOf s.hclen := congrArg State.hclen h
  have hlens : u.clLens = if 14 ≤ (bitsAhead s).length then _ else s.clLens := congrArg State.clLens h
  refine ⟨?_, ?_, ?_, ?_⟩
  · split
    · rw [hlit, fieldOr_of_le (by omega)]
      exact hlitOf_toNat (numOfBits_take_lt 5 _)
    · exact hlit.trans (fieldOr_of_lt (by omega))
  · split
    · rw [hdist, fieldOr_of_le ‹_›]
      exact hdistOf_toNat (numOfBits_take_lt 5 _)
    · exact hdist.trans (fieldOr_of_lt (by omega))
  · split
    · rw [hclen, fieldOr_of_le ‹_›, clInForce, hlens, if_pos ‹_›, lensAhead_eq]
      exact ⟨hclenOf_toNat (numOfBits_take_lt 4 _),
        putLens_clOrder fun l hl => lt_of_mem_wholeLens (List.mem_of_mem_take hl)⟩
    · exact ⟨hclen.trans (fieldOr_of_lt (by omega)), hlens.trans (if_neg ‹_›)⟩
  · rw [hlit, hdist, hclen, hlens]
    exact h

/-- The parts of the bits of a whole header. -/
theorem header_bits {bits rest : List Bool} {hl hd hc : Nat} {ls : List Nat}
    (h : bits = numBits 5 hl ++ numBits 5 hd ++ numBits 4 hc ++ ls.flatMap (numBits 3) ++ rest) :
    bits.take 5 = numBits 5 hl ∧ (bits.drop 5).take 5 = numBits 5 hd ∧ (bits.drop 10).take 4 = numBits 4 hc ∧
      bits.drop 14 = ls.flatMap (numBits 3) ++ rest ∧ (ls.flatMap (numBits 3)).length = 3 * ls.length ∧
      14 + 3 * ls.length ≤ bits.length := by
  have hlen : (ls.flatMap (numBits 3)).length = 3 * ls.length := by simp [List.length_flatMap, mul_comm]
  subst h
  refine ⟨rfl, rfl, rfl, rfl, hlen, ?_⟩
  simp only [List.length_append, length_numBits, hlen]
  omega

/-- With a whole header ahead, its fields are read and nothing else changes. -/
theorem dynamicFields_of_header {s : State} {hl hd hc : Nat} {ls : List Nat} {rest : List Bool} (hs : BitReaderOk s)
    (hr : RoomForBits s 71) (hhl : hl < 2 ^ 5) (hhd : hd < 2 ^ 5) (hhc : hc < 2 ^ 4) (hls : ls.length = hc + 4)
    (h8 : ∀ l ∈ ls, l < 8)
    (hb : bitsAhead s = numBits 5 hl ++ numBits 5 hd ++ numBits 4 hc ++ ls.flatMap (numBits 3) ++ rest) :
    ∃ t, (readCounts.andThen readLens) s = .ok () t ∧ bitsAhead t = rest ∧ BitReaderOk t ∧
      t.hlit.toNat = hl + 257 ∧ t.hdist.toNat = hd + 1 ∧ t.hclen.toNat = hc + 4 ∧ clInForce t = treeLens ls ∧
      t = { withInput t s with hlit := t.hlit, hdist := t.hdist, hclen := t.hclen, clLens := t.clLens } := by
  obtain ⟨h5, h10, h14, hlens, hflat, hlen⟩ := header_bits hb
  have hn4 : numOfBits (((bitsAhead s).drop 10).take 4) = hc := by
    rw [h14, numOfBits_numBits, Nat.mod_eq_of_lt hhc]
  have hneeds : dynamicNeeds (bitsAhead s) = 14 + 3 * ls.length := by
    rw [dynamicNeeds, if_neg (by omega), hn4, hls]
  obtain ⟨t, e, ht, hF, -⟩ := (dynamicFields_reads hs hr).1 (hneeds.trans_le hlen)
  obtain ⟨vlit, vdist, vclen, frame⟩ := hF.values rfl
  rw [if_pos (by omega), h5, numOfBits_numBits, Nat.mod_eq_of_lt hhl] at vlit
  rw [if_pos (by omega), h10, numOfBits_numBits, Nat.mod_eq_of_lt hhd] at vdist
  rw [if_pos (by omega), hn4, lensAhead_eq, hlens, wholeLens_flatMap h8, ← hls, List.take_left] at vclen
  refine ⟨t, e, ?_, ht.ok, vlit, vdist, vclen.1.trans hls, vclen.2, frame⟩
  rw [ht.ahead, hneeds, ← List.drop_drop, hlens, List.drop_left' hflat]

/-- Settles O35: the fields are read whole, and the build decides; or the bits end inside them. -/
theorem dynamicHeaderReadsItsFields : Obligations.DynamicHeaderReadsItsFields := by
  refine ⟨fun s f hl hd hc ls rest hs hr hhl hhd hhc hls h8 hb => ?_, fun s f hs hr hlt => ?_⟩
  · obtain ⟨t, e, ha, ho, vlit, vdist, vclen, vlens, frame⟩ := dynamicFields_of_header
      (s := setState .dynamic (setHeader f 2 s)) hs (hr.forBits (by decide)) hhl hhd hhc hls h8 hb
    refine ⟨t, ha, ho, vlit, vdist, vclen, vlens, frame, fun hb => ?_, fun hb => ?_⟩ <;>
      rw [exec_blkDynamic] <;> rw [← vlens] at hb
    · rcases buildTable_cases (clInForce t) t with ⟨-, e'⟩ | ⟨hn, -⟩
      · exact run_of_ok ((andThen_of_ok e).trans (andThen_of_ok e'))
      · simp [hn] at hb
    · rcases buildTable_cases (clInForce t) t with ⟨hb', -⟩ | ⟨-, e'⟩
      · simp [hb] at hb'
      · exact run_of_raised ((andThen_of_ok e).trans (bind_of_raised e'))
  · obtain ⟨u, e, ha, -, hF, -⟩ := (dynamicFields_reads (s := setState .dynamic (setHeader f 2 s)) hs
      (hr.forBits (by decide))).2 hlt
    obtain ⟨vlit, vdist, vclen, frame⟩ := hF.values (bits := bitsAhead s) rfl
    refine ⟨u, ?_, ha, (readBit_of_none ha).1, vlit, vdist, ?_, frame⟩
    · rw [exec_blkDynamic]
      exact run_of_raised (bind_of_raised e)
    · by_cases h14 : 14 ≤ (bitsAhead s).length
      · have hfew : (lensAhead (bitsAhead s)).length ≤ numOfBits (((bitsAhead s).drop 10).take 4) + 4 := by
          rw [dynamicNeeds, if_neg (not_lt.2 h14)] at hlt
          rw [lensAhead_eq, length_wholeLens, List.length_drop]
          omega
        rw [if_pos h14, List.take_of_length_le hfew] at vclen
        rwa [if_pos h14]
      · rwa [if_neg h14] at vclen ⊢

end Sys2Proof.Machine

/-! # Symbols of a block's body: literals, lengths, matches (44_symbols.md R231 to R298) -/

namespace Sys2Proof.Machine

/-! ## Copies that meet a byte the sink refuses (60_exceptions.md R358, R365) -/

/-- Up to output byte `k`, which it refuses, the sink takes the bytes. -/
theorem RoomOut.before {s : State} {k : Nat} (hf : s.snkFailAt = some k) (hk : s.count ≤ k)
    (hl : k < Config.countLimit) : RoomOut s (k - s.count) := by
  refine ⟨by omega, fun j hj => ?_⟩
  have : k = j := Option.some.inj (hf.symm.trans hj)
  omega

/-- `WritePrevious` with a legal distance is the copy loop (41_tracking_writer.md R156). -/
theorem writePrevious_of_legal {s : State} {dist : Nat} (len : Nat) (h1 : 1 ≤ dist)
    (h2 : dist ≤ min Config.wsize s.count) : writePrevious len dist s = copyBack len dist s :=
  (if_neg (Nat.ne_zero_of_lt h1)).trans (if_neg (not_lt.2 h2))

/-- The loop runs to the byte the sink refuses, with the bytes before it output, and ends there. -/
theorem writePrevious_of_refused {s : State} {len dist k : Nat} (ok : OutputOk s) (h1 : 1 ≤ dist)
    (h2 : dist ≤ min Config.wsize s.count) (hf : s.snkFailAt = some k) (hk : s.count ≤ k) (hlen : k < s.count + len)
    (hl : k < Config.countLimit) :
    ∃ t, writePrevious len dist s = .raised (takeError .ioError t) ∧ CopiedBack s t (k - s.count) dist ∧
      OutputOnly s t := by
  obtain ⟨m, rfl⟩ : ∃ m, len = k - s.count + (m + 1) := ⟨len - (k - s.count) - 1, by omega⟩
  obtain ⟨t, e, hc, ho⟩ := copyBack_of_room ok h1 h2 (k - s.count) (m + 1) (RoomOut.before hf hk hl)
  have ⟨hn, _, _, _, ok', _⟩ := hc
  refine ⟨t, ?_, hc, ho⟩
  obtain ⟨b, hr, -⟩ := window_read_snk ok' h1 (by omega)
  have hat : t.snkFailAt = some t.count := by
    rw [(congrArg State.snkFailAt ho).trans hf, hn, Nat.add_sub_cancel' hk]
  rw [writePrevious_of_legal _ h1 h2, e]
  simp only [copyBack, hr]
  exact bind_of_raised ((writeByteEffects b t).2 hat)

/-! ## Distance elements (R264 to R293, R296) -/

/-- `i` runs the match of R296 (5) to (7) with distance `dist`: MDIST takes it, MLEN bytes are copied, and a
literal/length code is awaited again. The distance is one of R98. -/
def RunsMatch (i : Instr) (dist : Nat) : Prop :=
  1 ≤ dist ∧ dist ≤ Config.wsize ∧ ∀ s, exec i s =
    Op.run ((writePrevious s.mlen.toNat dist).andThen (Op.modify fun t => { t with awaitDist := false }))
      { s with mdist := BitVec.ofNat 16 dist }

/-- Row `D` of the distance table (R98) with the extra field `y`. -/
theorem runsMatch_row {i : Instr} (D : Nat) (y : BitVec (dExtra D)) (h : exec i = Op.run (distElement D y.toNat))
    (hD : D < 30 := by decide) : RunsMatch i (dBase D + y.toNat) := by
  obtain ⟨h1, h2⟩ := dBase_add_bounds hD y.isLt
  refine ⟨h1, h2, fun s => ?_⟩
  rw [h]
  exact congrArg (fun dist => Op.run ((writePrevious s.mlen.toNat dist).andThen (Op.modify _)) _)
    (matchDistance_toNat hD y.isLt)

/-- The 30 rows of the distance table (R98), one for each of DIST0 to DIST29 (R264 to R293): what holds of every element
that runs a match, holds of each row. -/
theorem distance_rows {P : Instr → Nat → Prop} (h : ∀ {i dist}, RunsMatch i dist → P i dist) :
    P .dist0 1 ∧ P .dist1 2 ∧ P .dist2 3 ∧ P .dist3 4 ∧ (∀ y, P (.dist4 y) (5 + y.toNat)) ∧
    (∀ y, P (.dist5 y) (7 + y.toNat)) ∧ (∀ y, P (.dist6 y) (9 + y.toNat)) ∧ (∀ y, P (.dist7 y) (13 + y.toNat)) ∧
    (∀ y, P (.dist8 y) (17 + y.toNat)) ∧ (∀ y, P (.dist9 y) (25 + y.toNat)) ∧ (∀ y, P (.dist10 y) (33 + y.toNat)) ∧
    (∀ y, P (.dist11 y) (49 + y.toNat)) ∧ (∀ y, P (.dist12 y) (65 + y.toNat)) ∧ (∀ y, P (.dist13 y) (97 + y.toNat)) ∧
    (∀ y, P (.dist14 y) (129 + y.toNat)) ∧ (∀ y, P (.dist15 y) (193 + y.toNat)) ∧
    (∀ y, P (.dist16 y) (257 + y.toNat)) ∧ (∀ y, P (.dist17 y) (385 + y.toNat)) ∧
    (∀ y, P (.dist18 y) (513 + y.toNat)) ∧ (∀ y, P (.dist19 y) (769 + y.toNat)) ∧
    (∀ y, P (.dist20 y) (1025 + y.toNat)) ∧ (∀ y, P (.dist21 y) (1537 + y.toNat)) ∧
    (∀ y, P (.dist22 y) (2049 + y.toNat)) ∧ (∀ y, P (.dist23 y) (3073 + y.toNat)) ∧
    (∀ y, P (.dist24 y) (4097 + y.toNat)) ∧ (∀ y, P (.dist25 y) (6145 + y.toNat)) ∧
    (∀ y, P (.dist26 y) (8193 + y.toNat)) ∧ (∀ y, P (.dist27 y) (12289 + y.toNat)) ∧
    (∀ y, P (.dist28 y) (16385 + y.toNat)) ∧ (∀ y, P (.dist29 y) (24577 + y.toNat)) :=
  ⟨h (runsMatch_row 0 0 rfl), h (runsMatch_row 1 0 rfl), h (runsMatch_row 2 0 rfl), h (runsMatch_row 3 0 rfl),
   fun y => h (runsMatch_row 4 y rfl), fun y => h (runsMatch_row 5 y rfl), fun y => h (runsMatch_row 6 y rfl),
   fun y => h (runsMatch_row 7 y rfl), fun y => h (runsMatch_row 8 y rfl), fun y => h (runsMatch_row 9 y rfl),
   fun y => h (runsMatch_row 10 y rfl), fun y => h (runsMatch_row 11 y rfl), fun y => h (runsMatch_row 12 y rfl),
   fun y => h (runsMatch_row 13 y rfl), fun y => h (runsMatch_row 14 y rfl), fun y => h (runsMatch_row 15 y rfl),
   fun y => h (runsMatch_row 16 y rfl), fun y => h (runsMatch_row 17 y rfl), fun y => h (runsMatch_row 18 y rfl),
   fun y => h (runsMatch_row 19 y rfl), fun y => h (runsMatch_row 20 y rfl), fun y => h (runsMatch_row 21 y rfl),
   fun y => h (runsMatch_row 22 y rfl), fun y => h (runsMatch_row 23 y rfl), fun y => h (runsMatch_row 24 y rfl),
   fun y => h (runsMatch_row 25 y rfl), fun y => h (runsMatch_row 26 y rfl), fun y => h (runsMatch_row 27 y rfl),
   fun y => h (runsMatch_row 28 y rfl), fun y => h (runsMatch_row 29 y rfl)⟩

/-- MDIST holds every distance of the table. -/
theorem toNat_mdist {dist : Nat} (h : dist ≤ Config.wsize) : (BitVec.ofNat 16 dist).toNat = dist :=
  BitVec.toNat_ofNat dist 16 ▸ Nat.mod_eq_of_lt (lt_of_le_of_lt h (by decide))

/-- What the copy of a match has left alone, MDIST among it. -/
theorem match_frame {s t : State} {d : BitVec 16} (h : OutputOnly { s with mdist := d } t) :
    t.mdist = d ∧ t = { s with mdist := t.mdist, snk := t.snk, crc := t.crc, win := t.win, count := t.count } := by
  have hd : t.mdist = d := congrArg State.mdist h
  refine ⟨hd, ?_⟩
  rw [hd]
  exact h

theorem RunsMatch.copiesFrom {i : Instr} {dist : Nat} (h : RunsMatch i dist) : CopiesFrom i dist := by
  obtain ⟨h1, h2, e⟩ := h
  intro s ok hn room
  obtain ⟨t, ht, hc, ho⟩ := writePreviousCopies s.mlen.toNat dist { s with mdist := BitVec.ofNat 16 dist } ok h1
    (le_min h2 hn) room
  obtain ⟨hd, frame⟩ := match_frame ho
  refine ⟨{ t with awaitDist := false }, ?_, ?_, hc, ?_⟩
  · rw [e]
    exact run_of_ok (andThen_of_ok ht)
  · exact (congrArg BitVec.toNat hd).trans (toNat_mdist h2)
  · exact congrArg (fun u : State => { u with awaitDist := false }) frame

theorem RunsMatch.rejectsFar {i : Instr} {dist : Nat} (h : RunsMatch i dist) : RejectsFar i dist := by
  obtain ⟨-, -, e⟩ := h
  intro s hn
  rw [e]
  exact run_of_raised (bind_of_raised ((writePreviousRejects _ _ _).1 (min_lt_of_right_lt hn)))

theorem RunsMatch.stopsAtSink {i : Instr} {dist : Nat} (h : RunsMatch i dist) : StopsAtSink i dist := by
  obtain ⟨h1, h2, e⟩ := h
  intro s k ok hn hf hk hlen hl
  obtain ⟨t, ht, hc, ho⟩ := writePrevious_of_refused (s := { s with mdist := BitVec.ofNat 16 dist }) ok h1
    (le_min h2 hn) hf hk hlen hl
  obtain ⟨hd, frame⟩ := match_frame ho
  refine ⟨t, ?_, ?_, hc, frame⟩
  · rw [e]
    exact run_of_raised (bind_of_raised ht)
  · rw [hd, toNat_mdist h2]

/-- Settles O43: each row runs a match, and `WritePrevious` copies its bytes. -/
theorem distanceElementsCopy : Obligations.DistanceElementsCopy :=
  distance_rows RunsMatch.copiesFrom

/-- Settles O44: each row runs a match, and `WritePrevious` rejects its distance. -/
theorem distanceElementsRejectFar : Obligations.DistanceElementsRejectFar :=
  distance_rows RunsMatch.rejectsFar

/-- Settles O45: `WritePrevious` stops at the refused byte, and so does the match of each row. -/
theorem matchStopsWhereTheSinkFails : Obligations.MatchStopsWhereTheSinkFails :=
  ⟨fun _ _ _ _ ok h1 h2 hf hk hlen hl => writePrevious_of_refused ok h1 h2 hf hk hlen hl,
    distance_rows RunsMatch.stopsAtSink⟩

/-! ## Length elements (R233 to R261) -/

/-- Row `S` of the length table (R97) with the extra field `x`. -/
theorem setsLength_row {i : Instr} (S : Nat) (x : BitVec (lExtra S)) (h : exec i = Op.run (lengthElement S x.toNat))
    (hS : 257 ≤ S ∧ S < 286 := by decide) : SetsLength i (lBase S + x.toNat) := fun s =>
  ⟨{ s with mlen := matchLength S x.toNat, awaitDist := true }, congrFun h s, matchLength_toNat hS x.isLt, rfl⟩

/-- Settles O41, row by row of the length table. -/
theorem lengthElementsSetTheLength : Obligations.LengthElementsSetTheLength :=
  ⟨setsLength_row 257 0 rfl, setsLength_row 258 0 rfl, setsLength_row 259 0 rfl, setsLength_row 260 0 rfl,
   setsLength_row 261 0 rfl, setsLength_row 262 0 rfl, setsLength_row 263 0 rfl, setsLength_row 264 0 rfl,
   fun x => setsLength_row 265 x rfl, fun x => setsLength_row 266 x rfl, fun x => setsLength_row 267 x rfl,
   fun x => setsLength_row 268 x rfl, fun x => setsLength_row 269 x rfl, fun x => setsLength_row 270 x rfl,
   fun x => setsLength_row 271 x rfl, fun x => setsLength_row 272 x rfl, fun x => setsLength_row 273 x rfl,
   fun x => setsLength_row 274 x rfl, fun x => setsLength_row 275 x rfl, fun x => setsLength_row 276 x rfl,
   fun x => setsLength_row 277 x rfl, fun x => setsLength_row 278 x rfl, fun x => setsLength_row 279 x rfl,
   fun x => setsLength_row 280 x rfl, fun x => setsLength_row 281 x rfl, fun x => setsLength_row 282 x rfl,
   fun x => setsLength_row 283 x rfl, fun x => setsLength_row 284 x rfl, setsLength_row 285 0 rfl⟩

/-! ## Literals, end of block, reserved symbols (R231, R232, R262, R263, R294, R295) -/

/-- Settles O40: LIT is `WriteByte`, EOB one register write. -/
theorem literalAndEndOfBlock : Obligations.LiteralAndEndOfBlock :=
  ⟨fun s b room => run_of_ok ((writeByteEffects b s).1 room),
    fun s b hf => run_of_raised ((writeByteEffects b s).2 hf),
    fun s => run_modify (setState .blockEnd) s⟩

/-- Settles O42: the meaning of each of the four is one raise. -/
theorem reservedSymbolsRaise : Obligations.ReservedSymbolsRaise := fun s =>
  have h := run_raise .invalidHuffmanCode s
  ⟨h, h, h, h⟩

end Sys2Proof.Machine

/-! # The gzip host: header, start of CORE, trailer (45_host_gzip.md R320 to R337) -/

namespace Sys2Proof.Machine

/-! ## Who takes the step (R320, R321) -/

/-- Settles O1: `step` follows what the fetch found, and a running CORE's fetch is its own. -/
theorem stepRunsTheFetchedElement : Obligations.StepRunsTheFetchedElement := fun s =>
  ⟨fun i t h => by rw [step_eq, h, follow], fun o h => by rw [step_eq, h, follow], fetch_of_coreRuns⟩

/-- A run that has succeeded or failed stays (log 16). -/
theorem step_of_over {s : State} (h : s.gz.phase ∈ [.success, .failed]) : step s = .next s := by
  rw [step_eq]
  simp only [List.mem_cons, List.not_mem_nil, or_false] at h
  rcases h with h | h <;> rw [fetch, h, follow]

/-- In every phase in which the host reads a byte, the step is its move. -/
theorem step_of_hostReads {s : State} (h : s.gz.phase ∉ [.bare, .core, .success, .failed]) :
    step s = .next (gzMove s) := by
  rw [step_eq, fetch]
  cases hp : s.gz.phase with
  | bare | core | success | failed => simp [hp] at h
  | ids | cm | flg | fixedRest | xlen | extra | name | comment | hcrc | trailer => rfl

/-- The move of a host that has a byte ahead. -/
theorem step_of_hostReads_byte {s : State} {b : Byte} {rest : List SrcItem} (h : s.src = .byte b :: rest)
    (hp : s.gz.phase ∉ [.bare, .core, .success, .failed]) : step s = .next (gzByte b { s with src := rest }) := by
  rw [step_of_hostReads hp, gzMove, h]

/-- Everything a step of the host can do while CORE is not running. -/
theorem step_host_cases {s t : State} (hb : s.gz.phase ≠ .bare) (hc : s.gz.phase ≠ .core) (e : step s = .next t) :
    t = gzMove s ∨ t = s := by
  rcases (gz_primitives s.gz).step e with ⟨-, h | h⟩ | ⟨-, ⟨-, h⟩ | h | ⟨h, -⟩⟩
  · exact absurd h hb
  · exact absurd h hc
  · exact .inl h
  · exact .inr h
  · exact absurd h hc

/-- When CORE has ended, the step is the host's and reads nothing. -/
theorem step_of_coreEnded {s : State} (hp : s.gz.phase = .core) (h : s.done = 1 ∨ s.err ≠ 0) :
    step s = .next (gzCoreEnded s) := by
  have he : (isDone s || hasError s) = true := by simpa [isDone, hasError] using h
  rw [step_eq, fetch, hp]
  simp only [he, if_true, follow]

/-! ## What a move leaves alone -/

theorem HostMove.src {s t : State} (h : HostMove s t) : t.src = s.src :=
  hostMove_rec (P := fun t => t.src = s.src) h (fun _ => rfl) fun _ => rfl

theorem HostMove.snk {s t : State} (h : HostMove s t) : t.snk = s.snk :=
  hostMove_rec (P := fun t => t.snk = s.snk) h (fun _ => rfl) fun _ => rfl

/-- Until CORE starts, a move changes the host's registers only. -/
theorem HostMove.eq_setGz {s t : State} (h : HostMove s t) (hc : t.gz.phase ≠ .core) : t = setGz t.gz s :=
  h.elim And.left fun h => absurd h.2 hc

/-- The host never writes to the sink (R320). -/
theorem gzMove_snk {s : State} (h : s.gz.phase ≠ .core) : (gzMove s).snk = s.snk := by
  rcases gzMove_cases s h with ⟨-, e⟩ | ⟨b, rest, -, e⟩
  · rw [e]
    rfl
  · exact e.snk

/-- Settles O60: with no byte ahead the move is a failure, no move writes to the sink, and a run that is over stays. -/
theorem hostEndOfInputAndIdle : Obligations.HostEndOfInputAndIdle := by
  refine fun s => ⟨fun hp => ⟨fun h => ?_, fun rest h => ?_⟩, fun hp t e => ?_, step_of_over⟩
  · rw [step_of_hostReads hp]
    simp only [gzMove, h, gzFail, setGz]
  · rw [step_of_hostReads hp]
    simp only [gzMove, h, gzFail, setGz]
  · simp only [List.mem_cons, List.not_mem_nil, or_false, not_or] at hp
    rcases step_host_cases hp.1 hp.2 e with rfl | rfl
    · exact gzMove_snk hp.2
    · rfl

/-! ## A byte of the header (R328 to R332) -/

@[simp] theorem gzFail_gz (k : ErrKind) (s : State) :
    (gzFail k s).gz = { s.gz with phase := .failed, err := some k } := rfl

@[simp] theorem gzKeep_gz (b : Byte) (s : State) : (gzKeep b s).gz = { s.gz with buf := s.gz.buf ++ [b] } := rfl

/-- The first byte of a field of two. -/
theorem first_byte_kept {b : Byte} {s t : State} {q : GzPhase} (h : t = gzKeep b s) (hp : s.gz.phase = q)
    (hb : s.gz.buf = []) : t.gz.phase = q ∧ t.gz.buf = [b] := by
  subst h
  exact ⟨hp, by simp [hb]⟩

theorem entered_gzEnter (p : GzPhase) (s : State) : Entered (gzEnter p s) p := by
  simp [Entered]

/-- A little-endian field of two bytes. -/
theorem leNumber_pair (b0 b1 : Byte) : leNumber [b0, b1] = b0.toNat + 256 * b1.toNat := rfl

/-- What a hashed header byte does leaves HCRC as it is, and only the FLG byte writes FLG. -/
theorem gzHeaderByte_kept (b : Byte) (s : State) :
    (gzHeaderByte b s).gz.hcrc = s.gz.hcrc ∧ (s.gz.phase ≠ .flg → (gzHeaderByte b s).gz.flg = s.gz.flg) := by
  unfold gzHeaderByte gzSkip
  repeat' split
  all_goals simp_all

/-- A check leads on or fails the run. -/
theorem entered_or_failed {c : Prop} [Decidable c] {p : GzPhase} {k : ErrKind} {s t : State}
    (h : t = if c then gzEnter p s else gzFail k s) :
    if c then Entered t p else t.gz.phase = .failed ∧ t.gz.err = some k := by
  subst h
  split
  · exact entered_gzEnter p s
  · exact ⟨rfl, rfl⟩

/-- A zero-terminated field ends at its 0; before it the host's registers stay, whatever HCRC has become. -/
theorem entered_or_stays {c : Prop} [Decidable c] {p : GzPhase} {s t : State} (h : t = if c then gzEnter p s else s) :
    if c then Entered t p else t.gz = { s.gz with hcrc := t.gz.hcrc } := by
  subst h
  split
  · exact entered_gzEnter p s
  · rfl

/-- A skipped byte is counted off, and the last one leads on. -/
theorem skipped_or_entered {p q : GzPhase} {s t : State} (h : t = gzSkip p s) (hp : s.gz.phase = q) :
    if 1 < s.gz.left then t.gz.phase = q ∧ t.gz.left = s.gz.left - 1 else Entered t p := by
  subst h
  rw [gzSkip]
  split
  · rw [if_neg (by omega)]
    exact ⟨hp, rfl⟩
  · rw [if_pos (by omega)]
    exact entered_gzEnter p s

section

variable {b : Byte} {s : State}

theorem gzHeaderByte_ids_first (hp : s.gz.phase = .ids) (hb : s.gz.buf = []) :
    (gzHeaderByte b s).gz.phase = .ids ∧ (gzHeaderByte b s).gz.buf = [b] :=
  first_byte_kept (by simp only [gzHeaderByte, hp, hb]) hp hb

theorem gzHeaderByte_ids_second {b1 : Byte} (hp : s.gz.phase = .ids) (hb : s.gz.buf = [b1]) :
    if b1 = 0x1F ∧ b = 0x8B then Entered (gzHeaderByte b s) .cm
    else (gzHeaderByte b s).gz.phase = .failed ∧ (gzHeaderByte b s).gz.err = some .wrongIdValues :=
  entered_or_failed (s := s) (by simp only [gzHeaderByte, hp, hb])

theorem gzHeaderByte_cm (hp : s.gz.phase = .cm) :
    if b = 8 then Entered (gzHeaderByte b s) .flg
    else (gzHeaderByte b s).gz.phase = .failed ∧ (gzHeaderByte b s).gz.err = some .unsupportedCompressionMethod :=
  entered_or_failed (s := s) (by simp only [gzHeaderByte, hp])

theorem gzHeaderByte_flg (hp : s.gz.phase = .flg) :
    (gzHeaderByte b s).gz.phase = .fixedRest ∧ (gzHeaderByte b s).gz.flg = b ∧ (gzHeaderByte b s).gz.left = 6 := by
  simp only [gzHeaderByte, hp, setGz, and_self]

theorem gzHeaderByte_fixedRest (hp : s.gz.phase = .fixedRest) :
    if 1 < s.gz.left then (gzHeaderByte b s).gz.phase = .fixedRest ∧ (gzHeaderByte b s).gz.left = s.gz.left - 1
    else Entered (gzHeaderByte b s) (nextField s.gz.flg 0) :=
  skipped_or_entered (by simp only [gzHeaderByte, hp, afterFixed_eq]) hp

theorem gzHeaderByte_xlen_first (hp : s.gz.phase = .xlen) (hb : s.gz.buf = []) :
    (gzHeaderByte b s).gz.phase = .xlen ∧ (gzHeaderByte b s).gz.buf = [b] :=
  first_byte_kept (by simp only [gzHeaderByte, hp, hb]) hp hb

theorem gzHeaderByte_xlen_second {b0 : Byte} (hp : s.gz.phase = .xlen) (hb : s.gz.buf = [b0]) :
    if b0.toNat + 256 * b.toNat = 0 then Entered (gzHeaderByte b s) (nextField s.gz.flg 1)
    else (gzHeaderByte b s).gz.phase = .extra ∧ (gzHeaderByte b s).gz.left = b0.toNat + 256 * b.toNat := by
  simp only [gzHeaderByte, hp, hb, leNumber_pair, afterExtra_eq]
  split
  · exact entered_gzEnter _ s
  · exact ⟨rfl, rfl⟩

theorem gzHeaderByte_extra (hp : s.gz.phase = .extra) :
    if 1 < s.gz.left then (gzHeaderByte b s).gz.phase = .extra ∧ (gzHeaderByte b s).gz.left = s.gz.left - 1
    else Entered (gzHeaderByte b s) (nextField s.gz.flg 1) :=
  skipped_or_entered (by simp only [gzHeaderByte, hp, afterExtra_eq]) hp

theorem gzHeaderByte_name (hp : s.gz.phase = .name) :
    if b = 0 then Entered (gzHeaderByte b s) (nextField s.gz.flg 2)
    else (gzHeaderByte b s).gz = { s.gz with hcrc := (gzHeaderByte b s).gz.hcrc } :=
  entered_or_stays (s := s) (by simp only [gzHeaderByte, hp, afterName_eq])

theorem gzHeaderByte_comment (hp : s.gz.phase = .comment) :
    if b = 0 then Entered (gzHeaderByte b s) (nextField s.gz.flg 3)
    else (gzHeaderByte b s).gz = { s.gz with hcrc := (gzHeaderByte b s).gz.hcrc } :=
  entered_or_stays (s := s) (by simp only [gzHeaderByte, hp, afterComment_eq])

end

/-- Settles O57: the byte is taken and hashed, and then does what its phase says. -/
theorem hostChecksTheHeader : Obligations.HostChecksTheHeader := by
  intro s b rest h hp
  have hc : s.gz.phase ≠ .core := fun e => by simp [e, headerPhases] at hp
  let u := gzHash b { s with src := rest }
  have hm : HostMove u (gzHeaderByte b u) := hostMove_header b u hc
  obtain ⟨hcrc, hflg⟩ := gzHeaderByte_kept b u
  exact ⟨gzHeaderByte b u, step_headerByte h hp, hm.src, hm.snk, hcrc, hm.eq_setGz, hflg,
    gzHeaderByte_ids_first (s := u), fun _ => gzHeaderByte_ids_second (s := u), gzHeaderByte_cm (s := u),
    gzHeaderByte_flg (s := u), gzHeaderByte_fixedRest (s := u), gzHeaderByte_xlen_first (s := u),
    fun _ => gzHeaderByte_xlen_second (s := u), gzHeaderByte_extra (s := u), gzHeaderByte_name (s := u),
    gzHeaderByte_comment (s := u)⟩

/-! ## The start of CORE (R326, R331, R333) -/

/-- A step of the host that starts CORE is a move that has taken a byte, and CORE's reset. -/
theorem step_starts_core {s t : State} (e : step s = .next t) (hs : s.gz.phase ≠ .core) (ht : t.gz.phase = .core) :
    ∃ b rest, s.src = .byte b :: rest ∧ t = resetCore (setGz t.gz { s with src := rest }) := by
  have hb : s.gz.phase ≠ .bare := fun hb => by
    rw [step_eq, fetch_of_coreRuns (.inl hb)] at e
    exact hs (follow_coreFetch_gz e ▸ ht)
  rcases step_host_cases hb hs e with rfl | rfl
  · rcases gzMove_cases s hs with ⟨-, h⟩ | ⟨b, rest, h, ⟨-, hm⟩ | ⟨hm, -⟩⟩
    · rw [h] at ht
      cases ht
    · exact absurd ht hm
    · exact ⟨b, rest, h, hm⟩
  · exact absurd ht hs

theorem crcAfter_append (hdr : List Byte) (b : Byte) : crcAfter (hdr ++ [b]) = crcStep (crcAfter hdr) b :=
  List.foldl_append

/-- The byte at the head of the source is the header's next one. -/
theorem HeaderRead.take {all rest : List SrcItem} {hdr : List Byte} {b : Byte} {s t : State} (h : HeaderRead all hdr s)
    (hs : s.src = .byte b :: rest) (hr : t.src = rest) (hc : t.gz.hcrc = crcStep s.gz.hcrc b) :
    HeaderRead all (hdr ++ [b]) t := by
  obtain ⟨hall, hcrc⟩ := h
  refine ⟨?_, by rw [hc, hcrc, crcAfter_append]⟩
  rw [hall, hs, hr, bytesSrc, bytesSrc, List.map_append, List.append_assoc]
  rfl

/-- In a header phase the host reads. -/
theorem hostReads_of_header : ∀ p ∈ headerPhases, p ∉ [GzPhase.bare, .core, .success, .failed] := by
  decide

/-- A step in a header phase reads one more byte of the header, or fails the run. -/
theorem HeaderRead.step {all : List SrcItem} {hdr : List Byte} {s t : State} (h : HeaderRead all hdr s)
    (hp : s.gz.phase ∈ headerPhases) (e : step s = .next t) :
    HeaderRead all hdr t ∧ t.gz.phase = .failed ∨ ∃ b, s.src = .byte b :: t.src ∧ HeaderRead all (hdr ++ [b]) t := by
  obtain ⟨hend, hmark⟩ := (hostEndOfInputAndIdle s).1 (hostReads_of_header _ hp)
  match hs : s.src with
  | [] =>
    cases e.symm.trans (hend hs)
    exact .inl ⟨h, rfl⟩
  | .ioErr :: rest =>
    cases e.symm.trans (hmark rest hs)
    exact .inl ⟨h, rfl⟩
  | .byte b :: rest =>
    obtain ⟨u, hu, hsrc, -, hcrc, -⟩ := hostChecksTheHeader s b rest hs hp
    cases e.symm.trans hu
    exact .inr ⟨b, by rw [hsrc], h.take hs hsrc hcrc⟩

/-- The first byte of FHCRC is kept. -/
theorem step_hcrc_first {b : Byte} {rest : List SrcItem} {s : State} (hp : s.gz.phase = .hcrc) (hb : s.gz.buf = [])
    (hs : s.src = .byte b :: rest) : step s = .next (gzKeep b { s with src := rest }) := by
  rw [step_of_hostReads_byte hs (by simp [hp])]
  simp only [gzByte, hp, gzHcrcByte, hb]

/-- With the second one the host compares the field with the low half of the header's CRC-32 (R331). -/
theorem step_hcrc_second {b c0 : Byte} {c : BitVec 32} {rest : List SrcItem} {s : State} (hp : s.gz.phase = .hcrc)
    (hb : s.gz.buf = [c0]) (hc : s.gz.hcrc = c) (hs : s.src = .byte b :: rest) :
    ∃ t, step s = .next t ∧ t.src = rest ∧ t.snk = s.snk ∧
      if c0.toNat + 256 * b.toNat = (c ^^^ 0xFFFFFFFF).toNat % 2 ^ 16 then t.gz.phase = .core
      else t.gz.phase = .failed ∧ t.gz.err = some .headerCrc16Mismatch := by
  refine ⟨_, step_of_hostReads_byte hs (by simp [hp]), ?_⟩
  simp only [gzByte, hp, gzHcrcByte, hb, leNumber_pair, hc, Config.crcXorOut]
  split
  · exact ⟨gzEnter_src _ _, gzEnter_snk _ _, (entered_gzEnter _ _).1⟩
  · exact ⟨rfl, rfl, rfl, rfl⟩

/-- Settles O58: a start of CORE is its reset, header bytes are hashed as they are read, and the second FHCRC byte
starts CORE or fails the run. -/
theorem hostStartsAFreshCore : Obligations.HostStartsAFreshCore := by
  refine ⟨fun s t e hs ht => ?_, fun src => ⟨⟨rfl, rfl⟩, rfl⟩, fun all hdr s t h hp e => h.step hp e, ?_⟩
  · obtain ⟨b, rest, h, hm⟩ := step_starts_core e hs ht
    have hsrc : t.src = rest := by rw [hm, (resetCore_kept _).1, setGz]
    subst hsrc
    exact ⟨⟨b, h⟩, hm⟩
  · rintro all hdr s c0 c1 rest ⟨-, hcrc⟩ hp hb hs
    obtain ⟨t, e, ht⟩ := step_hcrc_second (b := c1) (s := gzKeep c0 { s with src := .byte c1 :: rest }) hp
      (by rw [gzKeep_gz, hb, List.nil_append]) hcrc rfl
    exact ⟨_, t, step_hcrc_first hp hb hs, e, rfl, hp, ht⟩

/-! ## The trailer (R334 to R336) -/

/-- A little-endian field of four bytes. -/
theorem leNumber_four (b0 b1 b2 b3 : Byte) :
    leNumber [b0, b1, b2, b3] = b0.toNat + 256 * (b1.toNat + 256 * (b2.toNat + 256 * b3.toNat)) := rfl

theorem gzByte_trailer_kept {b : Byte} {s : State} (hp : s.gz.phase = .trailer) (hl : s.gz.buf.length < 7) :
    gzByte b s = gzKeep b s := by
  simp only [gzByte, hp, gzTrailerByte, if_pos hl]

/-- The eighth byte: ISIZE is checked before the CRC (R335). -/
theorem gzByte_trailer_last {c0 c1 c2 c3 l0 l1 l2 l3 : Byte} {s : State} (hp : s.gz.phase = .trailer)
    (hb : s.gz.buf = [c0, c1, c2, c3, l0, l1, l2]) :
    gzByte l3 s =
      if l0.toNat + 256 * (l1.toNat + 256 * (l2.toNat + 256 * l3.toNat)) ≠ s.count % 2 ^ 32
      then gzFail .lengthMismatch s
      else if c0.toNat + 256 * (c1.toNat + 256 * (c2.toNat + 256 * c3.toNat)) ≠ (s.crc ^^^ 0xFFFFFFFF).toNat
      then gzFail .crc32Mismatch s
      else setGz { s.gz with phase := .success } s := by
  simp only [gzByte, hp, gzTrailerByte, gzTrailer, hb, List.cons_append, List.nil_append, List.drop,
    List.take, leNumber_four, List.length_cons, List.length_nil,
    lt_self_iff_false, if_false, byteCount, crc32, Config.crcXorOut]

/-- Settles O59: the end of CORE reads nothing, seven bytes are kept, the eighth is checked with them. -/
theorem hostChecksTheTrailer : Obligations.HostChecksTheTrailer := by
  refine ⟨fun s hp he => ?_, fun s hp he hd => ?_, fun s b rest h hp hl => ?_, ?_⟩
  · rcases gzCoreEnded_cases s with ⟨-, e⟩ | ⟨h, -⟩
    · exact ⟨_, e ▸ step_of_coreEnded hp (.inr he), rfl, rfl, rfl⟩
    · exact absurd h he
  · rcases gzCoreEnded_cases s with ⟨h, -⟩ | ⟨-, e⟩
    · exact absurd he h
    · exact ⟨_, e ▸ step_of_coreEnded hp (.inl hd), rfl, rfl, rfl⟩
  · rw [step_of_hostReads_byte h (by simp [hp]), gzByte_trailer_kept (by exact hp) (by exact hl)]
    rfl
  · intro s c0 c1 c2 c3 l0 l1 l2 l3 rest h hp hb
    have last := gzByte_trailer_last (l3 := l3) (s := { s with src := rest }) hp hb
    refine ⟨_, last ▸ step_of_hostReads_byte h (by simp [hp]), ?_⟩
    split
    · exact ⟨rfl, rfl, rfl⟩
    · split
      · exact ⟨rfl, rfl, rfl⟩
      · exact ⟨rfl, rfl⟩

end Sys2Proof.Machine

/-! # Exceptions: the recorded error, the codes and the texts (60_exceptions.md R350, R356, R361) -/

namespace Sys2Proof.Machine

/-- Settles O25: a raise is `takeError`, a code names its kind back, and the codes and the texts are read off their
tables. -/
theorem raiseRecordsTheFirstError : Obligations.RaiseRecordsTheFirstError := by
  refine ⟨fun α k s => ?state, ?codes, errKind_errCode, ?texts⟩
  case state => rw [raise_apply, takeError]
  case codes => rfl
  case texts => rfl

end Sys2Proof.Machine

/-! # Reset (70_reset_and_hazards.md R380, R381) -/

namespace Sys2Proof.Machine

/-- Before the first byte is taken from the source the bit cursor is 0. -/
theorem cursor_of_unread {s : State} (hi : s.ipos = 0) : cursor s = 0 := by
  rw [cursor, hi, Nat.mul_zero, Nat.zero_sub]

/-- The CRC-32 of no bytes is 0: the register still holds its initial value, which the accessor inverts. -/
theorem crc32_of_crcInit {s : State} (hc : s.crc = Config.crcInit) : crc32 s = 0 := by
  rw [crc32, hc]
  decide

/-- CORE's reset leaves the state after reset as it is. -/
theorem resetCore_reset : resetCore State.reset = State.reset := rfl

/-- The status is consistent after reset, as after every reset of CORE. -/
theorem reset_statusOk : StatusOk State.reset := by
  rw [← resetCore_reset]
  exact resetCore_statusOk State.reset

/-- Settles O46: the registers and the lengths are the table's by definition; the derived values follow from IPOS, CRC
and COUNT. -/
theorem resetState : Obligations.ResetState := by
  have hcursor : cursor State.reset = 0 := cursor_of_unread rfl
  have hcrc : crc32 State.reset = 0 := crc32_of_crcInit rfl
  have hcount : byteCount State.reset = 0 := rfl
  refine ⟨?bb, ?bc, ?ipos, ?crc, ?count, ?clLens, ?llLens, ?dLens, ?llN, ?dN, ?acc, ?accn, ?st, ?code, ?bfinal,
    ?btype, ?hlit, ?hdist, ?hclen, ?idx, ?slen, ?snlen, ?rem, ?sym, ?dsym, ?mlen, ?mdist, ?err, ?done,
    hcursor, hcrc, hcount⟩ <;> rfl

/-- Settles O47: the bit buffer is empty, nothing has been output, no window index has been written, and CORE is in
START. -/
theorem resetSatisfiesTheInvariant : Obligations.ResetSatisfiesTheInvariant := by
  have bits : BitReaderOk State.reset := bitReaderOk_of_empty rfl rfl
  have output : OutputOk State.reset := ⟨[], [], outputIs_of_empty (s := State.reset) rfl rfl⟩
  have window : WindowOk State.reset := windowOk_of_empty rfl
  have control : ControlOk State.reset := controlOk_of_st .start rfl (by decide)
  exact ⟨bits, output, window, reset_statusOk, control⟩

end Sys2Proof.Machine
